-- ==== Sys2Proof/Word.lean ====
section
/-! DEFINITION. The bit-vector types of SPDIFENC (spec/00_scope.md R6, R7, R8). -/

namespace Sys2Proof

/-- A byte of the burst buffer, of a payload or of a marker (R8). -/
abbrev Byte := BitVec 8

/-- A 16-bit word: OFFSET, CAP, a data-type code, a length field (R7). -/
abbrev Half := BitVec 16

/-- A 32-bit value: FR_NSAMPLES, BURST_NSAMPLES, EAC3_BLOCKS, a command word (R6, R20, R90). -/
abbrev Word := BitVec 32

/-- A timestamp: the number that its TS_WIDTH opaque bits form (R6, R32). The width is the parameter
`Params.tsWidth`, so it is no part of the type; nothing is computed on a timestamp (log 7). -/
abbrev Timestamp := Nat

end Sys2Proof
end

