-- ==== Sys2Proof/Config.lean ====
section
/-! DEFINITION. What the platform fixes and what the spec leaves open: the parameters of spec/00_scope.md R6, the
Header Parser functions of spec/10_state.md R41, and the free values of the registers a flush leaves unspecified (R20). -/

namespace Sys2Proof

/-- The 2-bit stream type of a Header Parser reply (R104). No rule depends on the numbers. -/
inductive StreamType where
  | independent
  | dependent
  | ac3Convert
  | reserved
deriving DecidableEq, Repr

/-- The record of a Header Parser reply (R103). For family DTS the last four fields carry no meaning. -/
structure HeaderReply where
  frameSize           : Word
  sampleCount         : Word
  isEnhanced          : Bool
  substreamId         : Byte
  blocksPerSyncFrame  : Byte
  streamType          : StreamType
deriving DecidableEq, Repr

/-- A reply the environment has fixed for one request: the bytes shown to the parser, and its answer (`none` is the
parser's `None`). -/
abbrev FixedReply := List Byte × Option HeaderReply

/-- The parameters of R6, constants for the life of the model (R262). They are data, so that a claim about every
state holds for every value of them, and a run can be evaluated for the values a platform gives. -/
structure Params where
  /-- EAC3_CAPACITY: a multiple of 4 with 8 < EAC3_CAPACITY ≤ 65532 (`Params.wf`). -/
  eac3Capacity : Half
  /-- EAC3_NSAMPLES. -/
  eac3NSamples : Word
  /-- MAT_START, part of the marker ROM (R38). -/
  matStart     : Vector Byte 20
  /-- MAT_MID. -/
  matMid       : Vector Byte 12
  /-- MAT_END. -/
  matEnd       : Vector Byte 16
  /-- TS_WIDTH, the width of a timestamp (D39). -/
  tsWidth      : Nat
  /-- DTS_BE_MAGIC, a set of two byte values. -/
  dtsMagic     : Byte × Byte
  /-- Replies of HP_A52 that the environment has fixed; every other request is answered by `Config.hpA52`. -/
  a52Replies   : List FixedReply
  /-- Replies of HP_DTS that the environment has fixed; every other request is answered by `Config.hpDts`. -/
  dtsReplies   : List FixedReply
deriving DecidableEq, Repr

/-- The constraints R6 puts on the parameters. -/
abbrev Params.wf (p : Params) : Prop :=
  8 < p.eac3Capacity.toNat ∧ p.eac3Capacity.toNat ≤ 65532 ∧ p.eac3Capacity.toNat % 4 = 0 ∧ p.dtsMagic.1 ≠ p.dtsMagic.2

namespace Config

/-- HP_A52 (R41): a total pure function of the bytes shown, about which nothing is assumed (log 5). -/
opaque hpA52 : List Byte → Option HeaderReply

/-- HP_DTS (R41), likewise. -/
opaque hpDts : List Byte → Option HeaderReply

/-- What CAP holds after a flush: unspecified (R20), a free value for each flush (log 9). -/
opaque freeCap : Nat → Half

/-- What OFFSET holds after a flush (R20, log 9). -/
opaque freeOffset : Nat → Half

/-- What BURST_PTS holds after a flush (R20, log 9). -/
opaque freePts : Nat → Timestamp

/-- What BURST_DTS holds after a flush (R20, log 9). -/
opaque freeDts : Nat → Timestamp

/-- What BURST_NSAMPLES holds after a flush (R20, log 9). -/
opaque freeNSamples : Nat → Word

end Config

end Sys2Proof
end

