-- ==== Sys2Proof/Machine/Constants.lean ====
section
/-! DEFINITION. The constants the document fixes (spec/00_scope.md R5) and the defaults of the parameters it leaves
open (R6; TS_WIDTH is the spec's own default, the others are from general knowledge, G1 to G3, PRESUMED, log 6). -/

namespace Sys2Proof.Machine

/-- HEADER_SIZE (R5). -/
def headerSize : Nat := 8

/-- SYNC1 (R5). -/
def sync1 : Half := 0xF872

/-- SYNC2 (R5). -/
def sync2 : Half := 0x4E1F

/-- AC3_CAPACITY (R5). -/
def ac3Capacity : Nat := 6144

/-- AC3_NSAMPLES (R5). -/
def ac3NSamples : Nat := 1536

/-- DT_AC3, before bsmod is folded in (R5). -/
def dtAc3 : Half := 0x01

/-- DT_EAC3 (R5). -/
def dtEac3 : Half := 0x15

/-- DT_DTS1, DT_DTS2 and DT_DTS3 by sample count; any other count has none (R5, R181). -/
def dtDts (ns : Nat) : Option Half :=
  if ns = 512 then some 0x0B
  else if ns = 1024 then some 0x0C
  else if ns = 2048 then some 0x0D
  else none

/-- DT_TRUEHD (R5). -/
def dtTrueHd : Half := 0x16

/-- MULT_AC3 and MULT_DTS: the length field in bits (R5). -/
def multBits : BitVec 4 := 8

/-- MULT_EAC3 and MULT_TRUEHD: the length field in bytes (R5). -/
def multBytes : BitVec 4 := 1

/-- EAC3_TARGET_BLOCKS (R5). -/
def eac3TargetBlocks : Nat := 6

/-- TRUEHD_CAPACITY (R5). -/
def trueHdCapacity : Nat := 61440

/-- TRUEHD_SLOT (R5). -/
def trueHdSlot : Nat := 2560

/-- TRUEHD_NSAMPLES (R5). -/
def trueHdNSamples : Nat := 3840

/-- MAT_START's default (R6, G1). -/
def defaultMatStart : Vector Byte 20 :=
  #v[0x07, 0x9E, 0x00, 0x03, 0x84, 0x01, 0x01, 0x01, 0x80, 0x00, 0x56, 0xA5, 0x3B, 0xF4, 0x81, 0x83, 0x49, 0x80,
    0x77, 0xE0]

/-- MAT_MID's default (R6, G1). -/
def defaultMatMid : Vector Byte 12 :=
  #v[0xC3, 0xC1, 0x42, 0x49, 0x3B, 0xFA, 0x82, 0x83, 0x49, 0x80, 0x77, 0xE0]

/-- MAT_END's default (R6, G1). -/
def defaultMatEnd : Vector Byte 16 :=
  #v[0xC3, 0xC2, 0xC0, 0xC4, 0x00, 0x00, 0x00, 0x00, 0x00, 0x00, 0x00, 0x00, 0x97, 0x11, 0x00, 0x00]

/-- The defaults of R6. -/
def defaultParams : Params where
  eac3Capacity := 24576
  eac3NSamples := 6144
  tsWidth := 64
  matStart := defaultMatStart
  matMid := defaultMatMid
  matEnd := defaultMatEnd
  dtsMagic := (0x7F, 0x1F)
  a52Replies := []
  dtsReplies := []

end Sys2Proof.Machine
end

