-- ==== Sys2Proof/Syntax.lean ====
section
/-! DEFINITION. The commands and micro-operations of SPDIFENC as syntax (spec/30_encoding.md), and the transactions
that carry them on the ports (spec/10_state.md R21, R44). -/

namespace Sys2Proof

/-- The codec identities CFG_CODEC can hold (R25, R94); the values 5 to 7 are never stored. -/
inductive Codec where
  | ac3
  | eac3
  | dts
  | mlp
  | truehd
deriving DecidableEq, Repr

/-- The frame descriptor of a PROCESS (R21, R93). FR_DATA carries its own length, so FR_LEN is `Frame.len` (log 11). -/
structure Frame where
  /-- FR_NSAMPLES, "0 if unknown". -/
  nsamples : Word
  /-- FR_PTS. -/
  pts      : Timestamp
  /-- FR_DTS. -/
  dts      : Timestamp
  /-- FR_DATA, stream order, FR_DATA[0] first. -/
  data     : List Byte
deriving DecidableEq, Repr

/-- FR_LEN, the byte length of the payload (R21), as a natural number (D5). -/
abbrev Frame.len (f : Frame) : Nat := f.data.length

/-- One constructor per row of spec/opcode_table.json. -/
inductive Instr where
  /-- SETUP (R92, R210): codec id, output-format id, every value of each. -/
  | setup (codec fmt : Byte)
  /-- PROCESS (R93, R211): the host command, dispatched on CFG_CODEC. -/
  | process (f : Frame)
  /-- PROCESS.AC3 (R99, R160): what PROCESS runs when CFG_CODEC = 0. -/
  | processAc3 (f : Frame)
  /-- PROCESS.EAC3 (R99, R170): what PROCESS runs when CFG_CODEC = 1. -/
  | processEac3 (f : Frame)
  /-- PROCESS.DTS (R99, R180): what PROCESS runs when CFG_CODEC = 2. -/
  | processDts (f : Frame)
  /-- PROCESS.TRUEHD (R99, R190): what PROCESS runs when CFG_CODEC = 3 or 4. -/
  | processTrueHd (f : Frame)
  /-- FLUSH (R96, R212). -/
  | flush
  /-- ALLOC (R100, R131): capacity, timestamps, declared sample count. -/
  | alloc (cap : Half) (pts dts : Timestamp) (ns : Word)
  /-- WRITE (R100, R132): the bytes (their number is `n`) and their byte order. -/
  | write (data : List Byte) (srcBe : Bool)
  /-- PAD (R100, R133). -/
  | pad (size : Word)
  /-- FINALIZE (R100, R134): data-type code, length multiplier. -/
  | finalize (dt : Half) (mult : BitVec 4)
  /-- REWIND (R100, R135). -/
  | rewind
  /-- DISCARD (R100, R136). -/
  | discard
deriving DecidableEq, Repr

/-- The frame descriptor as the CMD port carries it, field by field in the order of R93. -/
structure Descriptor where
  len      : Word
  nsamples : Word
  pts      : Timestamp
  dts      : Timestamp
  data     : List Byte
deriving DecidableEq, Repr

/-- The descriptor wires of a command that has no descriptor. -/
def Descriptor.none : Descriptor := { len := 0, nsamples := 0, pts := 0, dts := 0, data := [] }

/-- The operands that travel beside a micro-operation word (R100). -/
structure WopOperands where
  cap   : Half
  pts   : Timestamp
  dts   : Timestamp
  ns    : Word
  data  : List Byte
  n     : Word
  srcBe : Bool
  size  : Word
  dt    : Half
  mult  : BitVec 4
deriving DecidableEq, Repr

/-- All operand wires zero. -/
def WopOperands.zero : WopOperands :=
  { cap := 0, pts := 0, dts := 0, ns := 0, data := [], n := 0, srcBe := false, size := 0, dt := 0, mult := 0 }

/-- What an instruction is on a port: a 32-bit command word with the descriptor wires (R90, R93), or an 8-bit
micro-operation word with its operands (R100). -/
inductive Encoded where
  | cmd (word : Word) (d : Descriptor)
  | wop (word : Byte) (o : WopOperands)
deriving DecidableEq, Repr

end Sys2Proof
end

