-- ==== Sys2Proof/Machine/State.lean ====
section
/-! DEFINITION. The state of one SPDIFENC session with its ports, as plain data (spec/10_state.md R20 to R44), the state
after reset (spec/70_reset_and_hazards.md R260), and the reasons a step can stop. -/

namespace Sys2Proof.Machine

/-- The error kinds (R230). Each is a response, not a stop of the machine. -/
inductive ErrorKind where
  | allocationFailure
  | malformedFrame
  | unsupportedConfiguration
  | illegalCommand
  | writerFault
deriving DecidableEq, Repr

/-- The response to a host command (R98). The burst record that accompanies COMPLETE is on the OUT port. -/
inductive Response where
  | done
  | complete
  | pending
  | error (k : ErrorKind)
deriving DecidableEq, Repr

/-- What a transaction on the writer port came to (the model's own, log 2): performed, raised an error, or refused
with no state change (R100, U11, log 3). -/
inductive WopResult where
  | performed
  | raised (k : ErrorKind)
  | rejected
deriving DecidableEq, Repr

/-- The emitted burst record (R39). -/
structure BurstRecord where
  /-- OUT_LEN. -/
  len      : Half
  /-- OUT_DATA, in buffer order. -/
  data     : List Byte
  /-- OUT_NSAMPLES. -/
  nsamples : Word
  /-- OUT_PTS. -/
  pts      : Timestamp
  /-- OUT_DTS. -/
  dts      : Timestamp
deriving DecidableEq, Repr

/-- One transaction the environment has placed on a port: the `rst` input (R260), or a command or micro-operation
with the level BUF_AVAIL has while it runs (R40, R44; log 1, log 4). -/
inductive Input where
  | rst
  | req (e : Encoded) (bufAvail : Bool)
deriving DecidableEq, Repr

/-- The burst buffer BUF (R36): the bytes written, by address; an address not listed was never written. -/
abbrev Memory := List Host.Cell

/-- The canonical form of BUF: addresses strictly rising, none above 65535 (R7, R36). -/
abbrev Memory.wf (m : Memory) : Prop :=
  m.Pairwise (fun c d => c.1 < d.1) ∧ ∀ c ∈ m, c.1 < 65536

/-- Everything the spec gives one session (R20), its ports (R44) and the constants of its environment (R262). The
fields `wres` and `draws` are the model's own. -/
structure State where
  /-- The parameters of R6, never written by a step. -/
  params        : Params
  /-- Transactions the environment has placed and the block has not taken, oldest first (R44, log 1). -/
  input         : List Input
  /-- BUF_AVAIL (R40). -/
  bufAvail      : Bool
  /-- RSP (R98): the response to the last command taken, if any. -/
  rsp           : Option Response
  /-- OUT (R39): the burst record emitted with the last transaction taken, if any. -/
  out           : Option BurstRecord
  /-- The result of the last transaction, if it was on the writer port (log 2). -/
  wres          : Option WopResult
  /-- CONFIGURED (R27). -/
  configured    : Bool
  /-- CFG_CODEC (R25). -/
  cfgCodec      : Codec
  /-- CFG_OUT_BE (R26). -/
  cfgOutBe      : Bool
  /-- FAULT (R28). -/
  fault         : Bool
  /-- BURST_ACTIVE (R29). -/
  burstActive   : Bool
  /-- CAP (R30). -/
  cap           : Half
  /-- OFFSET (R31). -/
  offset        : Half
  /-- BURST_PTS (R32). -/
  burstPts      : Timestamp
  /-- BURST_DTS (R32). -/
  burstDts      : Timestamp
  /-- BURST_NSAMPLES (R32). -/
  burstNSamples : Word
  /-- BUF (R36). -/
  buf           : Memory
  /-- EAC3_BLOCKS (R33). -/
  eac3Blocks    : Word
  /-- TRUEHD_IDX, 0 to 23 (R34). -/
  trueHdIdx     : Fin 24
  /-- How many times free values have been drawn (the model's own, log 9). -/
  draws         : Nat
deriving DecidableEq, Repr

/-- The machine right after reset (R260): no command has been issued. CFG_CODEC, CFG_OUT_BE, CAP, OFFSET, BURST_PTS,
BURST_DTS and BURST_NSAMPLES are unspecified there; the values below are a DESIGN CHOICE (log 8, unsafe). The
parameters have R6's defaults (PRESUMED, log 6). -/
def State.reset : State where
  params := defaultParams
  input := []
  bufAvail := true
  rsp := none
  out := none
  wres := none
  configured := false
  cfgCodec := .ac3
  cfgOutBe := false
  fault := false
  burstActive := false
  cap := 0
  offset := 0
  burstPts := 0
  burstDts := 0
  burstNSamples := 0
  buf := []
  eac3Blocks := 0
  trueHdIdx := 0
  draws := 0

/-- Why the machine stops with a fault. -/
inductive Fault where
  /-- A byte of the burst buffer that was never written would be read: raised by FINALIZE when it emits the burst
  (R36, R141, U7: "a model must treat reading it as a fault"). Safe: the hardware emits an unspecified value. It is
  reachable through the writer port only. -/
  | unwrittenByte
deriving DecidableEq, Repr

/-- Why a transaction has no meaning. -/
inductive Refusal where
  /-- An instruction of the opcode table without a meaning yet. Safe. No arm of `exec` answers it. -/
  | notModelled (mnemonic : String)
  /-- The descriptor's FR_LEN is not the number of FR_DATA bytes, or WRITE's `n` is not the number of its data bytes:
  the spec has no such command (R93, R132; log 11). Raised by `step`. Safe. -/
  | inconsistentLength
deriving DecidableEq, Repr

end Sys2Proof.Machine
end

