-- ==== Sys2Proof/Machine/Flags.lean ====
section
/-! DEFINITION. The status of the block: response and error codes, session states, and the computed values of
spec/30_encoding.md R111 that decide them (there are no arithmetic condition codes, spec/10_state.md R24). -/

namespace Sys2Proof.Machine

/-- The codes of the error kinds in RSP_KIND (R98, R230). -/
def errorCode : ErrorKind → BitVec 3
  | .allocationFailure => 1
  | .malformedFrame => 2
  | .unsupportedConfiguration => 3
  | .illegalCommand => 4
  | .writerFault => 5

/-- RSP_STATUS (R98). -/
def rspStatus : Response → BitVec 2
  | .done => 0
  | .complete => 1
  | .pending => 2
  | .error _ => 3

/-- RSP_KIND, 0 unless the status is ERROR (R98). -/
def rspKind : Response → BitVec 3
  | .done => 0
  | .complete => 0
  | .pending => 0
  | .error k => errorCode k

/-- The session states (R241). -/
inductive SessionState where
  | unconfigured
  | ready
  | faulted
deriving DecidableEq, Repr

/-- The session state, a function of FAULT and CONFIGURED (R241). -/
def sessionState (s : State) : SessionState :=
  if s.fault then .faulted else if s.configured then .ready else .unconfigured

/-- The length field: (OFFSET − 8) × mult, mod 2^16 (R107, R111). -/
def lengthField (offset : Half) (mult : BitVec 4) : Half := (offset - BitVec.ofNat 16 headerSize) * mult.setWidth 16

/-- When an AC3 frame "looks wrong" and the parser is asked (R161). -/
def ac3LooksWrong (f : Frame) : Bool :=
  f.nsamples != BitVec.ofNat 32 ac3NSamples || decide (f.len < 6) || decide (ac3Capacity < f.len)

/-- Whether an E-AC3 frame enters the accumulation branch (R171). -/
def accumulates (h : HeaderReply) : Bool :=
  h.isEnhanced && (h.streamType == .independent || h.streamType == .ac3Convert)
    && h.blocksPerSyncFrame != BitVec.ofNat 8 eac3TargetBlocks

/-- EAC3_BLOCKS after a frame of the accumulation branch: only sub-stream 0 counts, mod 2^32 (R170, R172). -/
def countBlocks (h : HeaderReply) (blocks : Word) : Word :=
  if h.substreamId = 0 then blocks + h.blocksPerSyncFrame.setWidth 32 else blocks

/-- K(i), what the slot of index i gives up to the preamble and the markers (R191). -/
def slotReserve (i : Fin 24) : Nat :=
  if i.val = 0 then 28
  else if i.val = 11 then 4
  else if i.val = 12 then 8
  else if i.val = 23 then 24
  else 0

/-- The padding 2560 − S − K(i), a signed integer (R9, R191). -/
def slotPad (len : Nat) (i : Fin 24) : Int := (trueHdSlot : Int) - len - slotReserve i

/-- Whether R190 rejects a TrueHD frame: negative padding, or payload and padding past the room left. -/
def slotRejects (len : Nat) (i : Fin 24) (cap offset : Half) : Bool :=
  decide (slotPad len i < 0) || decide ((cap.toNat : Int) - offset.toNat < len + slotPad len i)

end Sys2Proof.Machine
end

