-- ==== Sys2Proof/Machine/Operands.lean ====
section
/-! DEFINITION. Every operand form: bytes of a 16-bit word, the endian transform of a WRITE, reads of the payload, the
Header Parser's replies, codec and format ids (spec/20_memory.md, spec/30_encoding.md). -/

namespace Sys2Proof.Machine

/-- `v[15:8]`. -/
def hiByte (v : Half) : Byte := v.extractLsb' 8 8

/-- `v[7:0]`. -/
def loByte (v : Half) : Byte := v.extractLsb' 0 8

/-- The two bytes `set16` stores, lower address first: destination order (R137). -/
def halfBytes (be : Bool) (v : Half) : List Byte :=
  if be then [hiByte v, loByte v] else [loByte v, hiByte v]

/-- The word of a promoted odd byte: `b << 8` (R64, R111). -/
def promote (b : Byte) : Half := b ++ (0 : Byte)

/-- What a WRITE of these bytes leaves in BUF (R62, R64, R132): pairs, exchanged iff `swap`, and a trailing odd byte
promoted to a word in the destination order `be`. -/
def wireBytes (swap be : Bool) : List Byte → List Byte
  | [] => []
  | [b] => halfBytes be (promote b)
  | a :: b :: rest => if swap then b :: a :: wireBytes swap be rest else a :: b :: wireBytes swap be rest

/-- `need` of R132: the even part, and a whole word for an odd last byte. -/
def writeNeed (n : Nat) : Nat := n - n % 2 + (if n % 2 = 1 then 2 else 0)

/-- FR_DATA[i]; every rule that reads it has first checked `i < FR_LEN` (R37). -/
def frameByte (f : Frame) (i : Nat) : Byte := f.data.getD i 0

/-- FR_DATA[0:n] (R10). -/
def payload (f : Frame) (n : Nat) : List Byte := f.data.take n

/-- The AC3 data-type code with bsmod in bits 10:8 (R106, R162). -/
def ac3DataType (f : Frame) : Half := dtAc3 ||| ((frameByte f 5 &&& 0x7).setWidth 16 <<< 8)

/-- The source byte order of a DTS frame, sniffed from its first byte; little-endian when empty (R61, R183). -/
def dtsSrcBe (p : Params) (f : Frame) : Bool :=
  match f.data with
  | [] => false
  | b :: _ => b == p.dtsMagic.1 || b == p.dtsMagic.2

/-- A timestamp as its TS_WIDTH wires carry it: the identity on a value of that width (R6, R21, R32; log 7). -/
def tsBits (p : Params) (t : Timestamp) : Timestamp := t % 2 ^ p.tsWidth

/-- The reply the environment has fixed for a request, if it has. -/
def fixedReply : List FixedReply → List Byte → Option (Option HeaderReply)
  | [], _ => none
  | (key, r) :: rest, b => if key = b then some r else fixedReply rest b

/-- The 2-bit code of a stream type in a parser reply (R103, R104). No rule depends on the numbers. -/
def streamTypeCode : StreamType → BitVec 2
  | .independent => 0
  | .dependent => 1
  | .ac3Convert => 2
  | .reserved => 3

/-- HP_A52 (R41): a pure function of the bytes shown. -/
def a52Reply (p : Params) (b : List Byte) : Option HeaderReply :=
  match fixedReply p.a52Replies b with
  | some r => r
  | none => Config.hpA52 b

/-- HP_DTS (R41). -/
def dtsReply (p : Params) (b : List Byte) : Option HeaderReply :=
  match fixedReply p.dtsReplies b with
  | some r => r
  | none => Config.hpDts b

/-- The codec a codec id names; ids 5 to 255 are unsupported (R94). -/
def codecOfId (id : Byte) : Option Codec :=
  if id = 0 then some .ac3
  else if id = 1 then some .eac3
  else if id = 2 then some .dts
  else if id = 3 then some .mlp
  else if id = 4 then some .truehd
  else none

/-- CFG_OUT_BE for an output-format id: 0 SPDIFL, 1 SPDIFB, others unsupported (R95). -/
def outBeOfId (id : Byte) : Option Bool :=
  if id = 0 then some false
  else if id = 1 then some true
  else none

/-- The 3 bits CFG_CODEC holds for a codec (R25, R94). -/
def codecBits : Codec → BitVec 3
  | .ac3 => 0
  | .eac3 => 1
  | .dts => 2
  | .mlp => 3
  | .truehd => 4

end Sys2Proof.Machine
end

