-- ==== Sys2Proof/Machine/Ops.lean ====
section
/-! DEFINITION. The shared operations: the burst buffer, the writer micro-operations (spec/40_writer.md), the flush
(spec/45_session.md R212) and the entry of an error (spec/60_exceptions.md R233, R235). -/

namespace Sys2Proof.Machine

/-- BUF[a], `none` for "never written" (R36). -/
def Memory.read : Memory → Nat → Option Byte
  | [], _ => none
  | (k, b) :: m, a => if k = a then some b else Memory.read m a

/-- The bytes `bs` laid out from address `a` on. -/
def cellsAt : Nat → List Byte → Memory
  | _, [] => []
  | a, b :: bs => (a, b) :: cellsAt (a + 1) bs

/-- MemWrite(a, n, b): BUF[a+i] <- b[i], no other byte changes (R10). -/
def Memory.write (m : Memory) (a : Nat) (bs : List Byte) : Memory :=
  m.filter (fun c => c.1 < a) ++ (cellsAt a bs ++ m.filter (fun c => a + bs.length ≤ c.1))

/-- BUF[a] .. BUF[a+n-1] <- "never written" (R131). -/
def Memory.erase (m : Memory) (a n : Nat) : Memory :=
  m.filter (fun c => c.1 < a ∨ a + n ≤ c.1)

/-- The cells of BUF from address `a` to `a + n - 1`. -/
def Memory.window (m : Memory) (a n : Nat) : Memory := m.filter (fun c => a ≤ c.1 ∧ c.1 < a + n)

/-- MemRead(a, n), `none` if a byte of it was never written, which shows as a missing cell (R10, R36). -/
def Memory.readRange (m : Memory) (a n : Nat) : Option (List Byte) :=
  if (m.window a n).length = n then some ((m.window a n).map (·.2)) else none

/-- `set16(a, v)` in the destination byte order (R137). -/
def Memory.set16 (be : Bool) (m : Memory) (a : Nat) (v : Half) : Memory := m.write a (halfBytes be v)

/-- The Burst Header Builder: the four preamble words (R105, R134, R138). -/
def stampHeader (be : Bool) (dt len : Half) (m : Memory) : Memory :=
  Memory.set16 be (Memory.set16 be (Memory.set16 be (Memory.set16 be m 0 sync1) 2 sync2) 4 dt) 6 len

/-- What a writer micro-operation, or a sequence of them, comes to: a state, an error raised with the state as the
raiser left it (R233, R235), or a read of a byte never written (R36). -/
inductive Micro where
  | done (s : State)
  | raise (k : ErrorKind) (s : State)
  | unwritten

/-- Sequencing: after an error nothing more is executed (R10). -/
def Micro.andThen (m : Micro) (k : State → Micro) : Micro :=
  match m with
  | .done s => k s
  | .raise e s => .raise e s
  | .unwritten => .unwritten

/-- ALLOC (R131). BUF_AVAIL is sampled only with no burst in progress. -/
def allocBurst (cap : Half) (pts dts : Timestamp) (ns : Word) (s : State) : Micro :=
  if s.burstActive = true then .raise .allocationFailure s
  else if s.bufAvail = false then .raise .allocationFailure s
  else .done
    { s with
      cap := cap
      offset := BitVec.ofNat 16 headerSize
      burstPts := tsBits s.params pts
      burstDts := tsBits s.params dts
      burstNSamples := ns
      buf := s.buf.erase 0 cap.toNat
      burstActive := true }

/-- WRITE (R132): the overflow test counts the promoted word and precedes every byte. -/
def writeBytes (data : List Byte) (srcBe : Bool) (s : State) : Micro :=
  if s.burstActive = false then .raise .writerFault s
  else if s.cap.toNat < s.offset.toNat + writeNeed data.length then .raise .writerFault s
  else .done
    { s with
      buf := s.buf.write s.offset.toNat (wireBytes (srcBe != s.cfgOutBe) s.cfgOutBe data)
      offset := BitVec.ofNat 16 (s.offset.toNat + writeNeed data.length) }

/-- PAD (R133). -/
def padZeros (size : Nat) (s : State) : Micro :=
  if s.burstActive = false then .raise .writerFault s
  else if s.cap.toNat < s.offset.toNat + size then .raise .writerFault s
  else .done
    { s with
      buf := s.buf.write s.offset.toNat (List.replicate size 0)
      offset := BitVec.ofNat 16 (s.offset.toNat + size) }

/-- BUF as FINALIZE leaves it: the preamble unless dt = 0, then zeros from OFFSET to CAP − 1 (R134, R138, R139). -/
def finalImage (dt : Half) (mult : BitVec 4) (s : State) : Memory :=
  Memory.write (if dt = 0 then s.buf else stampHeader s.cfgOutBe dt (lengthField s.offset mult) s.buf)
    s.offset.toNat (List.replicate (s.cap.toNat - s.offset.toNat) 0)

/-- FINALIZE (R134): stamp, fill, emit the burst record (R39), release the burst. -/
def finalizeBurst (dt : Half) (mult : BitVec 4) (s : State) : Micro :=
  if s.burstActive = false then .raise .writerFault s
  else
    match (finalImage dt mult s).readRange 0 s.cap.toNat with
    | none => .unwritten
    | some data => .done
      { s with
        buf := finalImage dt mult s
        offset := s.cap
        out := some
          { len := s.cap, data := data, nsamples := s.burstNSamples, pts := s.burstPts, dts := s.burstDts }
        burstActive := false }

/-- REWIND (R135). -/
def rewindBurst (s : State) : Micro :=
  if s.burstActive = false then .raise .writerFault s
  else .done { s with offset := 0 }

/-- DISCARD (R136). CAP, OFFSET and BURST_* become meaningless: each takes a free value (R20, log 9). -/
def discardBurst (s : State) : State :=
  { s with
    burstActive := false
    buf := []
    cap := Config.freeCap s.draws
    offset := Config.freeOffset s.draws
    burstPts := tsBits s.params (Config.freePts s.draws)
    burstDts := tsBits s.params (Config.freeDts s.draws)
    burstNSamples := Config.freeNSamples s.draws
    draws := s.draws + 1 }

/-- FLUSH_STATE (R212): the burst and both counters in one transition. -/
def flushState (s : State) : State :=
  { discardBurst s with eac3Blocks := 0, trueHdIdx := 0 }

/-- `respond X` (R10, R98). -/
def respond (r : Response) (s : State) : State := { s with rsp := some r }

/-- FAULT <- 1 when a writer contract is violated, and on no other error (R28, R140, R235). -/
def setFault (k : ErrorKind) (s : State) : State :=
  if k = .writerFault then { s with fault := true } else s

/-- The entry of an error inside a command: a writer fault keeps the state and sets FAULT (R235); every other kind
flushes (R233). Nothing is saved and there is no return (R230, R234). -/
def raiseError (k : ErrorKind) (s : State) : State :=
  if k = .writerFault then respond (.error k) (setFault k s) else respond (.error k) (flushState s)

/-- How a command ends (R213). -/
def finishCommand : Micro → Host.Outcome State Fault Refusal
  | .done s => .next s
  | .raise k s => .next (raiseError k s)
  | .unwritten => .fault .unwrittenByte

/-- How a transaction on the writer port ends (log 2): the micro-operation itself changes nothing when it raises,
but for FAULT (R140). -/
def finishMicro : Micro → Host.Outcome State Fault Refusal
  | .done s => .next { s with wres := some .performed }
  | .raise k s => .next { setFault k s with wres := some (.raised k) }
  | .unwritten => .fault .unwrittenByte

/-- A transaction on the writer port refused with no state change (R100, U11; log 3). -/
def rejectMicro (s : State) : State := { s with wres := some .rejected }

end Sys2Proof.Machine
end

