-- ==== Sys2Proof/Machine/Ac3.lean ====
section
/-! DEFINITION. PROCESS.AC3 (spec/41_ac3.md R160 to R164). -/

namespace Sys2Proof.Machine

/-- The number of bytes to write: FR_LEN, or what the parser reports when the frame looks wrong; `none` where R160
rejects the reply. -/
def ac3Size (p : Params) (f : Frame) : Option Nat :=
  if ac3LooksWrong f then
    match a52Reply p f.data with
    | none => none
    | some h =>
      if h.isEnhanced = true ∨ f.len < h.frameSize.toNat then none else some h.frameSize.toNat
  else some f.len

/-- The burst of one accepted frame (R160). -/
def ac3Emit (f : Frame) (size : Nat) (s : State) : Micro :=
  (allocBurst (BitVec.ofNat 16 ac3Capacity) f.pts f.dts (BitVec.ofNat 32 ac3NSamples) s).andThen fun s =>
  (writeBytes (payload f size) true s).andThen fun s =>
  (finalizeBurst (ac3DataType f) multBits s).andThen fun s =>
  .done (respond .complete s)

/-- R160, in the order of its tests. -/
def processAc3 (f : Frame) (s : State) : Micro :=
  match ac3Size s.params f with
  | none => .raise .malformedFrame s
  | some size =>
    if f.len < 6 then .raise .malformedFrame s
    else if ac3Capacity < size + headerSize then .raise .malformedFrame s
    else ac3Emit f size s

/-- PROCESS.AC3 (R160). -/
def execProcessAc3 (f : Frame) (s : State) : Host.Outcome State Fault Refusal :=
  finishCommand (processAc3 f s)

end Sys2Proof.Machine
end

