-- ==== Sys2Proof/Machine/Dts.lean ====
section
/-! DEFINITION. PROCESS.DTS (spec/43_dts.md R180 to R185). -/

namespace Sys2Proof.Machine

/-- The size and sample count of the frame: as declared, or recovered by the parser when FR_NSAMPLES = 0; `none` where
R180 rejects the reply. -/
def dtsSize (p : Params) (f : Frame) : Option (Nat × Nat) :=
  if f.nsamples = 0 then
    match dtsReply p f.data with
    | none => none
    | some h => if f.len < h.frameSize.toNat then none else some (h.frameSize.toNat, h.sampleCount.toNat)
  else some (f.len, f.nsamples.toNat)

/-- The header-less case: the frame fills the capacity exactly (R182). -/
def dtsBare (size ns : Nat) : Bool := size == ns * 4

/-- The burst of one accepted frame (R180, R182). -/
def dtsEmit (f : Frame) (size ns : Nat) (dt : Half) (s : State) : Micro :=
  (allocBurst (BitVec.ofNat 16 (ns * 4)) f.pts f.dts (BitVec.ofNat 32 ns) s).andThen fun s =>
  (if dtsBare size ns then rewindBurst s else .done s).andThen fun s =>
  (writeBytes (payload f size) (dtsSrcBe s.params f) s).andThen fun s =>
  (finalizeBurst (if dtsBare size ns then 0 else dt) multBits s).andThen fun s =>
  .done (respond .complete s)

/-- R180, in the order of its tests. -/
def processDts (f : Frame) (s : State) : Micro :=
  match dtsSize s.params f with
  | none => .raise .malformedFrame s
  | some (size, ns) =>
    match dtDts ns with
    | none => .raise .malformedFrame s
    | some dt =>
      if dtsBare size ns = false ∧ ns * 4 < size + headerSize then .raise .malformedFrame s
      else dtsEmit f size ns dt s

/-- PROCESS.DTS (R180). -/
def execProcessDts (f : Frame) (s : State) : Host.Outcome State Fault Refusal :=
  finishCommand (processDts f s)

end Sys2Proof.Machine
end

