-- ==== Sys2Proof/Machine/Eac3.lean ====
section
/-! DEFINITION. PROCESS.EAC3 (spec/42_eac3.md R170 to R175). -/

namespace Sys2Proof.Machine

/-- The burst in progress, or a new one (R170). -/
def eac3Open (f : Frame) (s : State) : Micro :=
  if s.burstActive = true then .done s
  else allocBurst s.params.eac3Capacity f.pts f.dts s.params.eac3NSamples s

/-- The end of an aggregate: the counter to 0, then FINALIZE (R170). -/
def eac3Close (s : State) : Micro :=
  (finalizeBurst dtEac3 multBytes { s with eac3Blocks := 0 }).andThen fun s =>
  .done (respond .complete s)

/-- What follows the WRITE: the accumulation branch, or the immediate end (R170, R171). -/
def eac3Count (h : HeaderReply) (s : State) : Micro :=
  if accumulates h = true then
    if countBlocks h s.eac3Blocks ≠ BitVec.ofNat 32 eac3TargetBlocks then
      .done (respond .pending { s with eac3Blocks := countBlocks h s.eac3Blocks })
    else eac3Close { s with eac3Blocks := countBlocks h s.eac3Blocks }
  else eac3Close s

/-- R170, in the order of its tests; FR_NSAMPLES is ignored. -/
def processEac3 (f : Frame) (s : State) : Micro :=
  match a52Reply s.params f.data with
  | none => .raise .malformedFrame s
  | some h =>
    if f.len < h.frameSize.toNat then .raise .malformedFrame s
    else
      (eac3Open f s).andThen fun s =>
      if s.cap.toNat < s.offset.toNat + h.frameSize.toNat then .raise .malformedFrame s
      else
        (writeBytes (payload f h.frameSize.toNat) true s).andThen fun s =>
        eac3Count h s

/-- PROCESS.EAC3 (R170). -/
def execProcessEac3 (f : Frame) (s : State) : Host.Outcome State Fault Refusal :=
  finishCommand (processEac3 f s)

end Sys2Proof.Machine
end

