-- ==== Sys2Proof/Machine/TrueHd.lean ====
section
/-! DEFINITION. PROCESS.TRUEHD, the MAT framing of MLP and TrueHD (spec/44_truehd.md R190 to R197). -/

namespace Sys2Proof.Machine

/-- A marker, byte for byte in either output format (R65, R192). -/
def writeMarker (marker : List Byte) (s : State) : Micro := writeBytes marker s.cfgOutBe s

/-- The super-frame in progress, or a new one (R190). -/
def trueHdOpen (f : Frame) (s : State) : Micro :=
  if s.burstActive = true then .done s
  else allocBurst (BitVec.ofNat 16 trueHdCapacity) f.pts f.dts (BitVec.ofNat 32 trueHdNSamples) s

/-- The marker before the payload of index 0 or 12 (R190, R191). -/
def slotMarker (s : State) : Micro :=
  if s.trueHdIdx.val = 0 then writeMarker s.params.matStart.toList s
  else if s.trueHdIdx.val = 12 then writeMarker s.params.matMid.toList s
  else .done s

/-- What follows the padding: the end of the super-frame at index 23, the next index before it (R190). -/
def slotEnd (s : State) : Micro :=
  if s.trueHdIdx.val = 23 then
    (writeMarker s.params.matEnd.toList s).andThen fun s =>
    (finalizeBurst dtTrueHd multBytes { s with trueHdIdx := 0 }).andThen fun s =>
    .done (respond .complete s)
  else .done (respond .pending { s with trueHdIdx := s.trueHdIdx + 1 })

/-- The payload and its padding, after the test of R190. -/
def slotBody (f : Frame) (s : State) : Micro :=
  if slotRejects f.len s.trueHdIdx s.cap s.offset = true then .raise .malformedFrame s
  else
    (writeBytes (payload f f.len) true s).andThen fun t =>
    (padZeros (slotPad f.len s.trueHdIdx).toNat t).andThen fun t =>
    slotEnd t

/-- R190, in the order of its tests; FR_NSAMPLES is ignored and the parser is not asked. -/
def processTrueHd (f : Frame) (s : State) : Micro :=
  (trueHdOpen f s).andThen fun s =>
  (slotMarker s).andThen fun s =>
  slotBody f s

/-- PROCESS.TRUEHD (R190). -/
def execProcessTrueHd (f : Frame) (s : State) : Host.Outcome State Fault Refusal :=
  finishCommand (processTrueHd f s)

end Sys2Proof.Machine
end

