-- ==== Sys2Proof/Machine/Session.lean ====
section
/-! DEFINITION. The Session Controller: SETUP, PROCESS and FLUSH with their acceptance tests (spec/45_session.md R210 to
R216). -/

namespace Sys2Proof.Machine

/-- R210: flush, then configure the session or leave it unconfigured. -/
def setupSession (codec fmt : Byte) (s : State) : State :=
  match codecOfId codec, outBeOfId fmt with
  | some c, some be =>
    respond .done { flushState s with cfgCodec := c, cfgOutBe := be, configured := true }
  | _, _ => respond (.error .unsupportedConfiguration) { flushState s with configured := false }

/-- SETUP (R210), refused with no state change under FAULT (R215, R216). -/
def execSetup (codec fmt : Byte) (s : State) : Host.Outcome State Fault Refusal :=
  if s.fault = true then .next (respond (.error .writerFault) s)
  else .next (setupSession codec fmt s)

/-- The dispatch of R211, by CFG_CODEC alone; MLP and TRUEHD run one operation (R195). -/
def dispatchProcess (f : Frame) (s : State) : Host.Outcome State Fault Refusal :=
  match s.cfgCodec with
  | .ac3 => execProcessAc3 f s
  | .eac3 => execProcessEac3 f s
  | .dts => execProcessDts f s
  | .mlp => execProcessTrueHd f s
  | .truehd => execProcessTrueHd f s

/-- PROCESS (R211): under FAULT it answers WriterFault (R215), then unconfigured UnsupportedConfiguration (R214), both
with no state change (R216). -/
def execProcess (f : Frame) (s : State) : Host.Outcome State Fault Refusal :=
  if s.fault = true then .next (respond (.error .writerFault) s)
  else if s.configured = false then .next (respond (.error .unsupportedConfiguration) s)
  else dispatchProcess f s

/-- FLUSH (R212): always accepted, also under FAULT (R215, R216). -/
def execFlush (s : State) : Host.Outcome State Fault Refusal :=
  .next (respond .done (flushState s))

end Sys2Proof.Machine
end

