-- ==== Sys2Proof/Machine/Writer.lean ====
section
/-! DEFINITION. The six micro-operations as instructions of the writer port (spec/30_encoding.md R100,
spec/40_writer.md R131 to R136). -/

namespace Sys2Proof.Machine

/-- ALLOC (R131: `cap ≥ 8`; a smaller one is refused with no state change, log 3). -/
def execAlloc (cap : Half) (pts dts : Timestamp) (ns : Word) (s : State) : Host.Outcome State Fault Refusal :=
  if cap.toNat < headerSize then .next (rejectMicro s) else finishMicro (allocBurst cap pts dts ns s)

/-- WRITE (R132). -/
def execWrite (data : List Byte) (srcBe : Bool) (s : State) : Host.Outcome State Fault Refusal :=
  finishMicro (writeBytes data srcBe s)

/-- PAD (R133). -/
def execPad (size : Word) (s : State) : Host.Outcome State Fault Refusal :=
  finishMicro (padZeros size.toNat s)

/-- FINALIZE (R134: `mult` values other than 1 and 8 are refused, U11). -/
def execFinalize (dt : Half) (mult : BitVec 4) (s : State) : Host.Outcome State Fault Refusal :=
  if mult ≠ multBytes ∧ mult ≠ multBits then .next (rejectMicro s) else finishMicro (finalizeBurst dt mult s)

/-- REWIND (R135). -/
def execRewind (s : State) : Host.Outcome State Fault Refusal :=
  finishMicro (rewindBurst s)

/-- DISCARD (R136): never fails. -/
def execDiscard (s : State) : Host.Outcome State Fault Refusal :=
  finishMicro (.done (discardBurst s))

end Sys2Proof.Machine
end

