-- ==== Sys2Proof/Machine/Dispatch.lean ====
section
/-! DEFINITION. One arm per constructor of Instr: the meaning of every row of spec/opcode_table.json. -/

namespace Sys2Proof.Machine

def exec (i : Instr) (s : State) : Host.Outcome State Fault Refusal :=
  match i with
  | .setup codec fmt => Sys2Proof.Machine.execSetup codec fmt s
  | .process f => Sys2Proof.Machine.execProcess f s
  | .processAc3 f => Sys2Proof.Machine.execProcessAc3 f s
  | .processEac3 f => Sys2Proof.Machine.execProcessEac3 f s
  | .processDts f => Sys2Proof.Machine.execProcessDts f s
  | .processTrueHd f => Sys2Proof.Machine.execProcessTrueHd f s
  | .flush => Sys2Proof.Machine.execFlush s
  | .alloc cap pts dts ns => Sys2Proof.Machine.execAlloc cap pts dts ns s
  | .write data srcBe => Sys2Proof.Machine.execWrite data srcBe s
  | .pad size => Sys2Proof.Machine.execPad size s
  | .finalize dt mult => Sys2Proof.Machine.execFinalize dt mult s
  | .rewind => Sys2Proof.Machine.execRewind s
  | .discard => Sys2Proof.Machine.execDiscard s

end Sys2Proof.Machine
end

