-- ==== Sys2Proof/WellFormed.lean ====
section
/-! DEFINITION. Which instructions are well formed: the operand domains of spec/30_encoding.md R93, R100 and of
spec/40_writer.md R131, R132, R134. -/

namespace Sys2Proof

/-- FR_LEN is a 32-bit value (R21, R93). -/
abbrev Frame.wf (f : Frame) : Prop := f.len < 2 ^ 32

/-- The operand domain of each instruction. Every ARG0 and ARG1 decodes as SETUP (R92), so SETUP has no check. -/
def Instr.wf : Instr → Bool
  | .setup _ _ => true
  | .process f => decide f.wf
  | .processAc3 f => decide f.wf
  | .processEac3 f => decide f.wf
  | .processDts f => decide f.wf
  | .processTrueHd f => decide f.wf
  | .flush => true
  | .alloc cap _ _ _ => decide (8 ≤ cap.toNat)
  | .write data _ => decide (data.length < 2 ^ 32)
  | .pad _ => true
  | .finalize _ mult => mult == 1 || mult == 8
  | .rewind => true
  | .discard => true

end Sys2Proof
end

