-- ==== Sys2Proof/Decode.lean ====
section
/-! DEFINITION. Decoding of command words and micro-operation words, total and rejecting by name, and the encoder
(spec/30_encoding.md R90 to R100). -/

namespace Sys2Proof

/-- Why a word or its operands decode to no instruction. -/
inductive DecodeError where
  /-- OPC is not 0x01, 0x02 or 0x03 (R91, R97). -/
  | illegalOpc
  /-- RSV ≠ 0 in a command word (R97). -/
  | reservedBits
  /-- ARG0 or ARG1 ≠ 0 on PROCESS or FLUSH (R97). -/
  | unusedArgument
  /-- FR_LEN is not the number of FR_DATA bytes: no PROCESS command carries such a descriptor (R93, log 11). -/
  | descriptorLength
  /-- WOP[7:3] ≠ 0 (R100). -/
  | wopReservedBits
  /-- Micro-operation code 6 or 7 (R100). -/
  | wopUnusedCode
  /-- `n` is not the number of WRITE's data bytes (R132: "a byte string of length `n`", log 11). -/
  | writeLength
deriving DecidableEq, Repr

/-- OPC, bits 31:24 of a command word (R90). -/
def cmdOpc (w : Word) : Byte := w.extractLsb' 24 8

/-- RSV, bits 23:16 (R90). -/
def cmdRsv (w : Word) : Byte := w.extractLsb' 16 8

/-- ARG1, bits 15:8 (R90). -/
def cmdArg1 (w : Word) : Byte := w.extractLsb' 8 8

/-- ARG0, bits 7:0 (R90). -/
def cmdArg0 (w : Word) : Byte := w.extractLsb' 0 8

/-- Whether R97 leaves the unused operand fields of PROCESS and FLUSH legal. -/
def cmdArgsZero (w : Word) : Bool := cmdArg1 w == 0 && cmdArg0 w == 0

/-- The frame a descriptor stands for (R93). -/
def frameOf (d : Descriptor) : Except DecodeError Frame :=
  if d.len.toNat = d.data.length then
    .ok { nsamples := d.nsamples, pts := d.pts, dts := d.dts, data := d.data }
  else .error .descriptorLength

/-- A command word with its descriptor wires (R90 to R97). -/
def decodeCmd (w : Word) (d : Descriptor) : Except DecodeError Instr :=
  if cmdOpc w ≠ 0x01 ∧ cmdOpc w ≠ 0x02 ∧ cmdOpc w ≠ 0x03 then .error .illegalOpc
  else if cmdRsv w ≠ 0 then .error .reservedBits
  else if cmdOpc w = 0x01 then .ok (.setup (cmdArg0 w) (cmdArg1 w))
  else if cmdArgsZero w = false then .error .unusedArgument
  else if cmdOpc w = 0x02 then (frameOf d).map .process
  else .ok .flush

/-- WOP[7:3], reserved (R100). -/
def wopReserved (w : Byte) : BitVec 5 := w.extractLsb' 3 5

/-- WOP[2:0], the micro-operation code (R100). -/
def wopCode (w : Byte) : BitVec 3 := w.extractLsb' 0 3

/-- A micro-operation word with the operands beside it (R100). -/
def decodeWop (w : Byte) (o : WopOperands) : Except DecodeError Instr :=
  if wopReserved w ≠ 0 then .error .wopReservedBits
  else if wopCode w = 0 then .ok (.alloc o.cap o.pts o.dts o.ns)
  else if wopCode w = 1 then
    if o.n.toNat = o.data.length then .ok (.write o.data o.srcBe) else .error .writeLength
  else if wopCode w = 2 then .ok (.pad o.size)
  else if wopCode w = 3 then .ok (.finalize o.dt o.mult)
  else if wopCode w = 4 then .ok .rewind
  else if wopCode w = 5 then .ok .discard
  else .error .wopUnusedCode

/-- What a transaction on either port decodes to. -/
def decode : Encoded → Except DecodeError Instr
  | .cmd w d => decodeCmd w d
  | .wop w o => decodeWop w o

/-- The operation that the PROCESS word runs when CFG_CODEC holds `c` (R99, R211): the table's `selector`. Every
other instruction is what it decodes to. -/
def selectProcess (c : Codec) : Instr → Instr
  | .process f =>
    match c with
    | .ac3 => .processAc3 f
    | .eac3 => .processEac3 f
    | .dts => .processDts f
    | .mlp => .processTrueHd f
    | .truehd => .processTrueHd f
  | i => i

/-- The command whose word an instruction shares: the four PROCESS.* rows have PROCESS's match and mask (R99). -/
def Instr.hostCommand : Instr → Instr
  | .processAc3 f => .process f
  | .processEac3 f => .process f
  | .processDts f => .process f
  | .processTrueHd f => .process f
  | i => i

/-- A command word from its four bytes (R90). -/
def cmdWord (opc arg1 arg0 : Byte) : Word := opc ++ (0 : Byte) ++ arg1 ++ arg0

/-- The PROCESS word with its descriptor (R93). -/
def encodeProcess (f : Frame) : Encoded :=
  .cmd (cmdWord 0x02 0 0)
    { len := BitVec.ofNat 32 f.len, nsamples := f.nsamples, pts := f.pts, dts := f.dts, data := f.data }

/-- A micro-operation word from its code (R100). -/
def wopWord (code : BitVec 3) : Byte := (0 : BitVec 5) ++ code

/-- The words and operand wires of an instruction (R91 to R93, R96, R99, R100). -/
def encode : Instr → Encoded
  | .setup codec fmt => .cmd (cmdWord 0x01 fmt codec) Descriptor.none
  | .process f => encodeProcess f
  | .processAc3 f => encodeProcess f
  | .processEac3 f => encodeProcess f
  | .processDts f => encodeProcess f
  | .processTrueHd f => encodeProcess f
  | .flush => .cmd (cmdWord 0x03 0 0) Descriptor.none
  | .alloc cap pts dts ns =>
    .wop (wopWord 0) { WopOperands.zero with cap := cap, pts := pts, dts := dts, ns := ns }
  | .write data srcBe =>
    .wop (wopWord 1) { WopOperands.zero with data := data, n := BitVec.ofNat 32 data.length, srcBe := srcBe }
  | .pad size => .wop (wopWord 2) { WopOperands.zero with size := size }
  | .finalize dt mult => .wop (wopWord 3) { WopOperands.zero with dt := dt, mult := mult }
  | .rewind => .wop (wopWord 4) WopOperands.zero
  | .discard => .wop (wopWord 5) WopOperands.zero

/-- The transaction an opcode-table word stands for: a 32-bit command word or an 8-bit micro-operation word, with
every operand wire zero. -/
def tableTransaction (nbits w : Nat) : Option Encoded :=
  if nbits = 32 then some (.cmd (BitVec.ofNat 32 w) Descriptor.none)
  else if nbits = 8 then some (.wop (BitVec.ofNat 8 w) WopOperands.zero)
  else none

/-- The instruction the decoder reads from an opcode-table word, `none` where it refuses. -/
def decodeTableWord (nbits w : Nat) : Option Instr :=
  match tableTransaction nbits w with
  | none => none
  | some e =>
    match decode e with
    | .ok i => some i
    | .error _ => none

end Sys2Proof
end

