-- ==== Sys2Proof/Machine/Fetch.lean ====
section
/-! DEFINITION. Taking a transaction from the ports (spec/45_session.md R216): there is no program counter and no stored
program (spec/10_state.md R22), so the next instruction is the oldest transaction the environment has placed. -/

namespace Sys2Proof.Machine

/-- Taking a request: it leaves the input list, BUF_AVAIL has its level, and the output ports carry nothing until the
request is answered (R44, R98; log 1, log 4, log 18). -/
def accept (bufAvail : Bool) (rest : List Input) (s : State) : State :=
  { s with input := rest, bufAvail := bufAvail, rsp := none, out := none, wres := none }

/-- The answer to a request that decodes to no instruction: IllegalCommand with no state change for a command word
(R97), a refusal with no state change for a micro-operation word (R100, U11). -/
def answerUndecoded (e : DecodeError) (s : State) : Host.Outcome State Fault Refusal :=
  match e with
  | .illegalOpc => .next (respond (.error .illegalCommand) s)
  | .reservedBits => .next (respond (.error .illegalCommand) s)
  | .unusedArgument => .next (respond (.error .illegalCommand) s)
  | .wopReservedBits => .next (rejectMicro s)
  | .wopUnusedCode => .next (rejectMicro s)
  | .descriptorLength => .refused .inconsistentLength
  | .writeLength => .refused .inconsistentLength

/-- The `rst` input (R260, R261): every element of the session as after reset, no response and no record; what belongs
to the environment (the parameters, the transactions still to come, the level of BUF_AVAIL) stays (log 13). -/
def hardReset (rest : List Input) (s : State) : State :=
  { State.reset with params := s.params, input := rest, bufAvail := s.bufAvail, draws := s.draws }

/-- A transaction of the opcode table placed so that it is the next one taken (log 16). -/
def placeTransaction (e : Option Encoded) (s : State) : State :=
  match e with
  | none => s
  | some e => { s with input := .req e s.bufAvail :: s.input }

end Sys2Proof.Machine
end

