-- ==== Sys2Proof/Machine/Step.lean ====
section
/-! DEFINITION. One step: one transaction, from acceptance to response (spec/00_scope.md R11). -/

namespace Sys2Proof.Machine

/-- One step (R11, R216). With nothing placed the block is idle and keeps all of its state (R245). -/
def step (s : State) : Host.Outcome State Fault Refusal :=
  match s.input with
  | [] => .next s
  | .rst :: rest => .next (hardReset rest s)
  | .req e avail :: rest =>
    match decode e with
    | .ok i => exec i (accept avail rest s)
    | .error err => answerUndecoded err (accept avail rest s)

/-- `s` with the instruction of an opcode-table word as its next transaction (log 16). -/
def State.withFetchWord (s : State) (nbits w : Nat) : State := placeTransaction (tableTransaction nbits w) s

end Sys2Proof.Machine
end

