-- ==== Sys2Proof/Safety.lean ====
section
/-! DEFINITION. What counts as a legal state and a safe step, and the wire format in terms of which claims speak of bursts
(spec/10_state.md R35, spec/20_memory.md R62, R64, R77, spec/44_truehd.md R193). -/

namespace Sys2Proof.Machine

/-- Whether a transaction is one the host can make: a command or the `rst` input. The writer port is internal
(R100). -/
def hostInput : Input → Bool
  | .rst => true
  | .req (.cmd _ _) _ => true
  | .req (.wop _ _) _ => false

/-- Whether the next transaction, if there is one, is the host's. -/
def hostNext (s : State) : Bool :=
  match s.input with
  | [] => true
  | i :: _ => hostInput i

/-- W(a) of R77: the 16-bit word a downstream reader forms from bytes `a` and `a+1` in the destination order. -/
def wordAt (be : Bool) (data : List Byte) (a : Nat) : Nat :=
  if be then (data.getD a 0).toNat * 256 + (data.getD (a + 1) 0).toNat
  else (data.getD (a + 1) 0).toNat * 256 + (data.getD a 0).toNat

/-- Byte `i` of what a WRITE of `data` stores, by address: input byte `i` or `i XOR 1` in the even part, then the
promoted word of an odd last byte (R62, R64, R132). -/
def imageByte (srcBe be : Bool) (data : List Byte) (i : Nat) : Byte :=
  if i < data.length - data.length % 2 then data.getD (if srcBe = be then i else i ^^^ 1) 0
  else if (i % 2 == 0) = be then data.getD (data.length - 1) 0
  else 0

/-- How many bytes a WRITE of `n` bytes occupies: `n`, or `n + 1` when `n` is odd (R23, R64). -/
def imageSize (n : Nat) : Nat := n + n % 2

/-- The eight bytes of the preamble for a data-type code and a length field: `F8 72 4E 1F Dh Dl Lh Ll` in SPDIFB and
`72 F8 1F 4E Dl Dh Ll Lh` in SPDIFL (R105). -/
def preambleBytes (be : Bool) (dt len : Nat) : List Byte :=
  if be then
    [0xF8, 0x72, 0x4E, 0x1F, BitVec.ofNat 8 (dt / 256), BitVec.ofNat 8 (dt % 256), BitVec.ofNat 8 (len / 256),
      BitVec.ofNat 8 (len % 256)]
  else
    [0x72, 0xF8, 0x1F, 0x4E, BitVec.ofNat 8 (dt % 256), BitVec.ofNat 8 (dt / 256), BitVec.ofNat 8 (len % 256),
      BitVec.ofNat 8 (len / 256)]

/-- What the slot of index `i` gives up, by the document's formulas: 20 + 8, 4, 12 − 4 and 24 (R191). -/
def matReserve (i : Nat) : Nat :=
  if i = 0 then 20 + 8 else if i = 11 then 4 else if i = 12 then 12 - 4 else if i = 23 then 24 else 0

/-- The marker written before the payload of index `i` (R190). -/
def matMarker (p : Params) (i : Nat) : List Byte :=
  if i = 0 then p.matStart.toList else if i = 12 then p.matMid.toList else []

/-- OFFSET before the command of index `i` when all frames so far had even length (R193). -/
def slotStart (i : Nat) : Nat := if i = 0 then 8 else if i = 12 then 30716 else 2560 * i

/-- The invariant of the whole machine, the writer port included: the parameters are legal (R6), BUF is in its
canonical form, and the write pointer of a burst in progress has not passed CAP (R23). -/
abbrev MachineInv (s : State) : Prop :=
  s.params.wf ∧ s.buf.wf ∧ (s.burstActive = true → 8 ≤ s.cap.toNat ∧ s.offset.toNat ≤ s.cap.toNat)

/-- Every timestamp the block holds or emits has TS_WIDTH bits (R20, R32, R39). -/
abbrev TimestampsFit (s : State) : Prop :=
  s.burstPts < 2 ^ s.params.tsWidth ∧ s.burstDts < 2 ^ s.params.tsWidth ∧
  ∀ b, s.out = some b → b.pts < 2 ^ s.params.tsWidth ∧ b.dts < 2 ^ s.params.tsWidth

/-- R35 (a): a burst in progress has 8 ≤ OFFSET ≤ CAP; every byte from 8 to OFFSET was written (R141), and the session
is configured. -/
abbrev BurstInv (s : State) : Prop :=
  s.burstActive = true →
    s.configured = true ∧ 8 ≤ s.offset.toNat ∧ s.offset.toNat ≤ s.cap.toNat ∧
    ∀ a < s.offset.toNat, 8 ≤ a → (s.buf.read a).isSome = true

/-- R35 (c): with no burst in progress both counters are 0. -/
abbrev CountersInv (s : State) : Prop :=
  s.burstActive = false → s.eac3Blocks = 0 ∧ s.trueHdIdx = 0

/-- R35 (d): with CFG_CODEC = AC3 or DTS no burst is in progress. -/
abbrev OneShotInv (s : State) : Prop :=
  s.cfgCodec = .ac3 ∨ s.cfgCodec = .dts → s.burstActive = false

/-- An E-AC3 aggregate in progress (R170, R172, R174): the other counter is 0, EAC3_BLOCKS is not 6, CAP is
EAC3_CAPACITY and OFFSET is even. -/
abbrev Eac3Inv (s : State) : Prop :=
  s.burstActive = true → s.cfgCodec = .eac3 →
    s.trueHdIdx = 0 ∧ s.eac3Blocks ≠ 6 ∧ s.cap = s.params.eac3Capacity ∧ s.offset.toNat % 2 = 0

/-- A MAT super-frame in progress (R190, R193, R194): the other counter is 0, CAP is 61440, the index is 1 to 23 and
OFFSET is the slot's start and at most one byte more per frame so far. -/
abbrev TrueHdInv (s : State) : Prop :=
  s.burstActive = true → s.cfgCodec = .mlp ∨ s.cfgCodec = .truehd →
    s.eac3Blocks = 0 ∧ s.cap = 61440 ∧ 0 < s.trueHdIdx.val ∧
    slotStart s.trueHdIdx.val ≤ s.offset.toNat ∧ s.offset.toNat ≤ slotStart s.trueHdIdx.val + s.trueHdIdx.val

/-- What holds at every command boundary of a session driven by its host; not promised while FAULT = 1 (R35). -/
abbrev SessionInv (s : State) : Prop :=
  s.fault = false → BurstInv s ∧ CountersInv s ∧ OneShotInv s ∧ Eac3Inv s ∧ TrueHdInv s

/-- A state in which the host may be anywhere between two commands. -/
abbrev Legal (s : State) : Prop := MachineInv s ∧ SessionInv s

/-- Instruction `i` runs operation `op` in `s`: it is `op`, or it is the PROCESS command accepted and dispatched to
`op` (R99, R211, R216). -/
abbrev Runs (i op : Instr) (s : State) : Prop :=
  i = op ∨ (i = op.hostCommand ∧ s.fault = false ∧ s.configured = true ∧ selectProcess s.cfgCodec i = op)

/-- R160's tests on a frame: it is accepted and `size` bytes of it are written. -/
abbrev Ac3Accepts (p : Params) (f : Frame) (size : Nat) : Prop :=
  ((f.nsamples = 1536 ∧ 6 ≤ f.len ∧ f.len ≤ 6144 ∧ size = f.len) ∨
    ((f.nsamples ≠ 1536 ∨ f.len < 6 ∨ 6144 < f.len) ∧
      ∃ h, a52Reply p f.data = some h ∧ h.isEnhanced = false ∧ h.frameSize.toNat ≤ f.len ∧
        size = h.frameSize.toNat)) ∧
  6 ≤ f.len ∧ size + 8 ≤ 6144

/-- R180's tests on a frame: it is accepted with `size` bytes and sample count `ns`. -/
abbrev DtsAccepts (p : Params) (f : Frame) (size ns : Nat) : Prop :=
  ((f.nsamples ≠ 0 ∧ size = f.len ∧ ns = f.nsamples.toNat) ∨
    (f.nsamples = 0 ∧ ∃ h, dtsReply p f.data = some h ∧ h.frameSize.toNat ≤ f.len ∧ size = h.frameSize.toNat ∧
      ns = h.sampleCount.toNat)) ∧
  (ns = 512 ∨ ns = 1024 ∨ ns = 2048) ∧ (size = ns * 4 ∨ size + 8 ≤ ns * 4)

/-- The state in which a frame of an aggregate is written: the burst in progress, or the one ALLOC opens for it
(R131, R170, R190). -/
def opened (cap : Half) (ns : Word) (f : Frame) (s : State) : State :=
  if s.burstActive then s
  else
    { s with
      cap := cap
      offset := 8
      burstPts := tsBits s.params f.pts
      burstDts := tsBits s.params f.dts
      burstNSamples := ns
      buf := s.buf.erase 0 cap.toNat
      burstActive := true }

/-- EAC3_BLOCKS after a frame of the accumulation branch: only sub-stream 0 adds, mod 2^32 (R170). -/
def blocksAfter (h : HeaderReply) (blocks : Word) : Word :=
  if h.substreamId = 0 then BitVec.ofNat 32 (blocks.toNat + h.blocksPerSyncFrame.toNat) else blocks

/-- R171's three conditions. -/
abbrev EntersBranch (h : HeaderReply) : Prop :=
  h.isEnhanced = true ∧ (h.streamType = .independent ∨ h.streamType = .ac3Convert) ∧ h.blocksPerSyncFrame.toNat ≠ 6

/-- `t` is `s` after a flush (R212, R233): no burst, nothing written, both counters 0; CAP, OFFSET and BURST_* hold
whatever values, and one more draw of free values was made. -/
abbrev FlushedFrom (s t : State) : Prop :=
  ∃ cap offset pts dts ns, t =
    { s with
      burstActive := false
      buf := []
      cap := cap
      offset := offset
      burstPts := pts
      burstDts := dts
      burstNSamples := ns
      draws := s.draws + 1
      eac3Blocks := 0
      trueHdIdx := 0 }

/-- The elements of two states that no rule calls unspecified or meaningless there agree: CFG_* while configured,
the writer's registers and BUF[0 .. CAP-1] while a burst is in progress, and everything else (R20, R260, U8). -/
abbrev SameMeaning (s t : State) : Prop :=
  s.params = t.params ∧ s.input = t.input ∧ s.bufAvail = t.bufAvail ∧ s.rsp = t.rsp ∧ s.out = t.out ∧
  s.configured = t.configured ∧ s.fault = t.fault ∧ s.burstActive = t.burstActive ∧
  s.eac3Blocks = t.eac3Blocks ∧ s.trueHdIdx = t.trueHdIdx ∧
  (s.configured = true → s.cfgCodec = t.cfgCodec ∧ s.cfgOutBe = t.cfgOutBe) ∧
  (s.burstActive = true →
    s.cap = t.cap ∧ s.offset = t.offset ∧ s.burstPts = t.burstPts ∧ s.burstDts = t.burstDts ∧
    s.burstNSamples = t.burstNSamples ∧ ∀ a < s.cap.toNat, s.buf.read a = t.buf.read a)

/-- The state after `n` steps, if the machine answers each of them. -/
def stepN : Nat → State → Option State
  | 0, s => some s
  | n + 1, s =>
    match step s with
    | .next t => stepN n t
    | .fault _ => none
    | .refused _ => none

/-- PROCESS of a frame as a transaction, with a buffer available. -/
def processInput (f : Frame) : Input := .req (encode (.process f)) true

/-- Where the payload of index `i` starts when all frames have even length: after the marker of its slot (R193). -/
def payloadStart (i : Nat) : Nat := if i = 0 then 28 else if i = 12 then 30728 else 2560 * i

end Sys2Proof.Machine
end

