-- ==== Sys2Proof/Certificates/Slice0/Obligations.lean ====
section
/-! DEFINITION. The statements about the model, from the numbered rules of spec/. A timestamp is read as its TS_WIDTH
wires carry it: `tsBits` is the identity on a value of that width, and what it makes of a wider number is the model's
choice (log 7). -/

open Sys2Proof Sys2Proof.Machine

/-! ### Encodings -/

/-- R92, R93, R96, R99, R100: every well-formed instruction's words decode to it; the four PROCESS.* rows share the word
of PROCESS (`Instr.hostCommand`). -/
def Obligations.DecodeOfEncodeIsTheInstruction : Prop :=
  ∀ i : Instr, i.wf = true → decode (encode i) = .ok i.hostCommand

/-- R90, R97, R100: a word that decodes is the one word of its instruction, on either port, so no reserved or unused
bit is ignored. -/
def Obligations.EachWordIsTheWordOfItsInstruction : Prop :=
  (∀ w d i, decodeCmd w d = .ok i → ∃ d', encode i = .cmd w d') ∧
  (∀ w o i, decodeWop w o = .ok i → ∃ o', encode i = .wop w o')

/-- R97: exactly the illegal words are illegal, whatever the state, and an illegal command changes nothing but the
response. That the transaction leaves the input list, BUF_AVAIL takes its level and the output ports are emptied is the
model's choice (logs 1, 4, 18). -/
def Obligations.IllegalCommandChangesNothing : Prop :=
  ∀ (s : State) (w : Word) (d : Descriptor) (avail : Bool) (rest : List Input),
    s.input = .req (.cmd w d) avail :: rest →
    ((¬ (w.toNat / 2 ^ 24 = 1 ∨ w.toNat / 2 ^ 24 = 2 ∨ w.toNat / 2 ^ 24 = 3) ∨ w.toNat / 2 ^ 16 % 256 ≠ 0 ∨
        ((w.toNat / 2 ^ 24 = 2 ∨ w.toNat / 2 ^ 24 = 3) ∧ w.toNat % 2 ^ 16 ≠ 0)) →
      step s = .next
        { s with
          input := rest, bufAvail := avail, rsp := some (.error .illegalCommand), out := none, wres := none }) ∧
    (¬ (¬ (w.toNat / 2 ^ 24 = 1 ∨ w.toNat / 2 ^ 24 = 2 ∨ w.toNat / 2 ^ 24 = 3) ∨ w.toNat / 2 ^ 16 % 256 ≠ 0 ∨
        ((w.toNat / 2 ^ 24 = 2 ∨ w.toNat / 2 ^ 24 = 3) ∧ w.toNat % 2 ^ 16 ≠ 0)) →
      d.len.toNat = d.data.length → ∃ i, decodeCmd w d = .ok i)

/-- R92, R93, R96, R97, R100: some words of each family, written out from their encodings. -/
def Obligations.WordsOfTheSpecDecode : Prop :=
  decodeTableWord 32 0x01000104 = some (.setup 4 1) ∧
  decodeTableWord 32 0x0100FFFF = some (.setup 255 255) ∧
  decodeTableWord 32 0x02000000 = some (.process ⟨0, 0, 0, []⟩) ∧
  decodeTableWord 32 0x03000000 = some .flush ∧
  decodeTableWord 32 0x01010000 = none ∧
  decodeTableWord 32 0x02000001 = none ∧
  decodeTableWord 32 0x03000100 = none ∧
  decodeTableWord 8 0x03 = some (.finalize 0 0) ∧
  decodeTableWord 8 0x05 = some .discard ∧
  decodeTableWord 8 0x06 = none ∧
  decodeTableWord 8 0x0D = none

/-! ### Steps -/

/-- R11, R216: a step takes the oldest transaction and runs the instruction it decodes to, on the state with that
transaction gone, BUF_AVAIL at its level and the output ports empty. -/
def Obligations.StepRunsTheDecodedInstruction : Prop :=
  ∀ (s : State) (e : Encoded) (avail : Bool) (rest : List Input) (i : Instr),
    s.input = .req e avail :: rest → decode e = .ok i →
    step s = exec i { s with input := rest, bufAvail := avail, rsp := none, out := none, wres := none }

/-- R245: with no transaction placed the block is idle and keeps all of its state. -/
def Obligations.IdleStepKeepsTheState : Prop :=
  ∀ s : State, s.input = [] → step s = .next s

/-- R260, R261: the `rst` input, from any state; R262: the parameters stay. That the later transactions are still to
come is the model's (logs 1, 13). -/
def Obligations.ResetPinEntersTheResetState : Prop :=
  ∀ (s : State) (rest : List Input), s.input = .rst :: rest →
    ∃ t, step s = .next t ∧ t.configured = false ∧ t.fault = false ∧ t.burstActive = false ∧ t.eac3Blocks = 0 ∧
      t.trueHdIdx = 0 ∧ (∀ a, t.buf.read a = none) ∧ t.rsp = none ∧ t.out = none ∧
      sessionState t = .unconfigured ∧ t.input = rest ∧ t.params = s.params

/-- R260: the values the spec gives at reset. -/
def Obligations.StateAtReset : Prop :=
  State.reset.configured = false ∧ State.reset.fault = false ∧ State.reset.burstActive = false ∧
  State.reset.eac3Blocks = 0 ∧ State.reset.trueHdIdx = 0 ∧ (∀ a, State.reset.buf.read a = none) ∧
  State.reset.rsp = none ∧ State.reset.out = none ∧ sessionState State.reset = .unconfigured

/-- The reset state meets every invariant (its parameters are R6's defaults, PRESUMED, log 6). -/
def Obligations.ResetStateIsLegal : Prop := Legal State.reset ∧ TimestampsFit State.reset

/-- R98, R39, R270: every command taken gets exactly one response, the burst record comes with COMPLETE and only with it,
DONE is never PROCESS's and COMPLETE and PENDING are PROCESS's alone. -/
def Obligations.EveryCommandGetsOneResponse : Prop :=
  ∀ (s t : State) (w : Word) (d : Descriptor) (avail : Bool) (rest : List Input),
    s.input = .req (.cmd w d) avail :: rest → step s = .next t →
    t.rsp ≠ none ∧ t.input = rest ∧ (t.out.isSome = true ↔ t.rsp = some .complete) ∧
    (t.rsp = some .done → ∀ f, decodeCmd w d ≠ .ok (.process f)) ∧
    (t.rsp = some .complete ∨ t.rsp = some .pending → ∃ f, decodeCmd w d = .ok (.process f))

/-- R262: no step changes the parameters. R28: no step but the `rst` input clears FAULT. -/
def Obligations.FaultIsStickyAndParametersConstant : Prop :=
  ∀ s t : State, step s = .next t →
    t.params = s.params ∧ (s.fault = true → s.input.head? ≠ some .rst → t.fault = true)

/-- R25, R26, R27: only SETUP and reset write CONFIGURED, CFG_CODEC and CFG_OUT_BE. -/
def Obligations.OnlySetupWritesTheConfiguration : Prop :=
  ∀ (s t : State) (i : Instr), exec i s = .next t → (∀ codec fmt, i ≠ .setup codec fmt) →
    t.configured = s.configured ∧ t.cfgCodec = s.cfgCodec ∧ t.cfgOutBe = s.cfgOutBe

/-- R241: the session state after each host command. -/
def Obligations.SessionStatesMoveByTheTable : Prop :=
  ∀ (s t : State) (codec fmt : Byte) (f : Frame),
    (exec (.setup codec fmt) s = .next t →
      sessionState t =
        if sessionState s = .faulted then .faulted
        else if codec.toNat ≤ 4 ∧ fmt.toNat ≤ 1 then .ready else .unconfigured) ∧
    (exec (.process f) s = .next t →
      sessionState t =
        if sessionState s = .ready ∧ t.rsp = some (.error .writerFault) then .faulted else sessionState s) ∧
    (exec .flush s = .next t → sessionState t = sessionState s)

/-! ### Invariants -/

/-- R6, R7, R23, R36: every step, also one of the writer port, keeps the parameters legal, BUF canonical and the write
pointer within CAP. -/
def Obligations.EveryStepKeepsTheMachineInvariant : Prop :=
  ∀ s t : State, MachineInv s → step s = .next t → MachineInv t

/-- R20, R32, R39: every step, also one of the writer port, keeps every timestamp held or emitted within TS_WIDTH
bits. (How a wider number on the ports is read is the model's choice, log 7.) -/
def Obligations.EveryStepKeepsTimestampsInTheirWidth : Prop :=
  ∀ s t : State, TimestampsFit s → step s = .next t → TimestampsFit t

/-- R35, R172, R193, R194: what holds at a command boundary holds at the next one, for a session driven by its host. -/
def Obligations.HostStepKeepsTheSessionLegal : Prop :=
  ∀ s t : State, Legal s → hostNext s = true → step s = .next t → Legal t

/-- R141, R272: from a legal state no transaction of the host stops the machine: it always answers. (A descriptor whose
FR_LEN is not its number of bytes is no command, R93.) -/
def Obligations.HostStepAlwaysAnswers : Prop :=
  ∀ s : State, Legal s → hostNext s = true →
    (∀ w d avail rest, s.input = .req (.cmd w d) avail :: rest → d.len.toNat = d.data.length) →
    ∃ t, step s = .next t

/-- R20, R260, U8: two states that agree on every meaningful element answer every host transaction alike and agree on
every meaningful element afterwards; unspecified registers and the free values of a flush never matter. -/
def Obligations.UnspecifiedElementsNeverMatter : Prop :=
  ∀ s t s' : State, Legal s → Legal t → SameMeaning s t → hostNext s = true → step s = .next s' →
    ∃ t', step t = .next t' ∧ SameMeaning s' t'

/-- R142: timestamps never influence the bytes of a burst: with other timestamps in the frame and in the burst in
progress, PROCESS answers the same and the states and records differ in timestamps only. -/
def Obligations.TimestampsNeverInfluenceTheBurst : Prop :=
  ∀ (s t : State) (f : Frame) (fp fd bp bd : Timestamp), exec (.process f) s = .next t →
    ∃ p d out, exec (.process { f with pts := fp, dts := fd }) { s with burstPts := bp, burstDts := bd } =
        .next { t with burstPts := p, burstDts := d, out := out } ∧
      out.map (fun b => (b.len, b.data, b.nsamples)) = t.out.map (fun b => (b.len, b.data, b.nsamples))

/-! ### The session -/

/-- R210: SETUP flushes, then configures the session for a supported pair and leaves it unconfigured for any other.
The counter of free values that a flush advances (`FlushedFrom`) is the model's choice (log 9). -/
def Obligations.SetupConfiguresOrRejects : Prop :=
  ∀ (s : State) (codec fmt : Byte), s.fault = false →
    ∃ u, FlushedFrom s u ∧
      (codec.toNat ≤ 4 ∧ fmt.toNat ≤ 1 →
        ∃ c, (codecBits c).toNat = codec.toNat ∧
          exec (.setup codec fmt) s =
            .next { u with cfgCodec := c, cfgOutBe := (fmt == 1), configured := true, rsp := some .done }) ∧
      (¬ (codec.toNat ≤ 4 ∧ fmt.toNat ≤ 1) →
        exec (.setup codec fmt) s =
          .next { u with configured := false, rsp := some (.error .unsupportedConfiguration) })

/-- R212, P6: FLUSH always answers DONE; it drops the burst and zeroes both counters and changes neither the configuration
nor FAULT; and FLUSH twice is FLUSH once. The counter of free values it advances is the model's choice (log 9). -/
def Obligations.FlushDropsBurstAndCounters : Prop :=
  ∀ s : State, ∃ u v, FlushedFrom s u ∧ exec .flush s = .next { u with rsp := some .done } ∧
    exec .flush { u with rsp := some .done } = .next v ∧ SameMeaning { u with rsp := some .done } v

/-- R215: under FAULT, PROCESS and SETUP answer WriterFault and change no state, and FLUSH is performed and keeps
FAULT. -/
def Obligations.FaultRefusesProcessAndSetup : Prop :=
  ∀ (s : State) (codec fmt : Byte) (f : Frame), s.fault = true →
    exec (.setup codec fmt) s = .next { s with rsp := some (.error .writerFault) } ∧
    exec (.process f) s = .next { s with rsp := some (.error .writerFault) } ∧
    ∃ u, FlushedFrom s u ∧ u.fault = true ∧ exec .flush s = .next { u with rsp := some .done }

/-- R214: PROCESS before a successful SETUP. -/
def Obligations.UnconfiguredProcessIsRefused : Prop :=
  ∀ (s : State) (f : Frame), s.fault = false → s.configured = false →
    exec (.process f) s = .next { s with rsp := some (.error .unsupportedConfiguration) }

/-- R211, R99, R195: PROCESS runs the operation of CFG_CODEC, and MLP and TRUEHD run the same one. -/
def Obligations.ProcessRunsTheOperationOfTheCodec : Prop :=
  ∀ (s : State) (f : Frame), s.fault = false → s.configured = true →
    (s.cfgCodec = .ac3 → exec (.process f) s = exec (.processAc3 f) s) ∧
    (s.cfgCodec = .eac3 → exec (.process f) s = exec (.processEac3 f) s) ∧
    (s.cfgCodec = .dts → exec (.process f) s = exec (.processDts f) s) ∧
    (s.cfgCodec = .mlp ∨ s.cfgCodec = .truehd → exec (.process f) s = exec (.processTrueHd f) s)

/-- R233: an AllocationFailure or MalformedFrame inside any of the four operations leaves exactly what a flush leaves,
and no other kind but WriterFault is raised there. -/
def Obligations.ErrorFlushesTheSession : Prop :=
  ∀ (s t : State) (f : Frame) (op i : Instr) (k : ErrorKind),
    op = .processAc3 f ∨ op = .processEac3 f ∨ op = .processDts f ∨ op = .processTrueHd f →
    Runs i op s → exec i s = .next t → t.rsp = some (.error k) → k ≠ .writerFault →
    (k = .allocationFailure ∨ k = .malformedFrame) ∧
      ∃ u, FlushedFrom s u ∧ t = { u with rsp := some (.error k) }

/-- R163, R174, R184, R194: from a legal state AC3, E-AC3 and DTS never raise WriterFault, and TrueHD only at index 23
when the end marker has no room. -/
def Obligations.WriterFaultOnlyForOddTrueHdFrames : Prop :=
  ∀ (s t : State) (f : Frame), Legal s → s.fault = false → s.configured = true → exec (.process f) s = .next t →
    t.rsp = some (.error .writerFault) →
    (s.cfgCodec = .mlp ∨ s.cfgCodec = .truehd) ∧ s.trueHdIdx = 23 ∧
      61440 < s.offset.toNat + imageSize f.len + (2536 - f.len) + 16

/-! ### AC3 -/

/-- R160, R162, R164: an accepted frame becomes one 6144-byte burst (timestamps through `tsBits`, log 7). -/
def Obligations.Ac3FrameBecomesOneBurst : Prop :=
  ∀ (s : State) (f : Frame) (size : Nat) (i : Instr), Runs i (.processAc3 f) s →
    s.buf.wf → s.burstActive = false → s.bufAvail = true → Ac3Accepts s.params f size →
    ∃ m b, exec i s = .next
        { s with
          cap := 6144, offset := 6144, burstPts := tsBits s.params f.pts, burstDts := tsBits s.params f.dts
          burstNSamples := 1536, buf := m, out := some b, rsp := some .complete } ∧
      b.len = 6144 ∧ b.data.length = 6144 ∧ b.nsamples = 1536 ∧ b.pts = tsBits s.params f.pts ∧
      b.dts = tsBits s.params f.dts ∧
      b.data.take 8 =
        preambleBytes s.cfgOutBe (1 + 256 * ((f.data.getD 5 0).toNat % 8)) (imageSize size * 8) ∧
      (∀ j < imageSize size, b.data[8 + j]? = some (imageByte true s.cfgOutBe (f.data.take size) j)) ∧
      (∀ j < 6144, 8 + imageSize size ≤ j → b.data[j]? = some 0)

/-- R160, R231, R232: a frame that no size accepts is MalformedFrame, whatever BUF_AVAIL is; an accepted one with no
buffer is AllocationFailure; both leave the session flushed. -/
def Obligations.Ac3RejectsFrames : Prop :=
  ∀ (s : State) (f : Frame) (i : Instr), Runs i (.processAc3 f) s →
    ((∀ size, ¬ Ac3Accepts s.params f size) →
      ∃ u, FlushedFrom s u ∧ exec i s = .next { u with rsp := some (.error .malformedFrame) }) ∧
    (∀ size, Ac3Accepts s.params f size → s.bufAvail = false →
      ∃ u, FlushedFrom s u ∧ exec i s = .next { u with rsp := some (.error .allocationFailure) })

/-! ### Enhanced AC3 -/

/-- R170, R171: a frame of the accumulation branch that does not bring the count to 6 is appended, and the burst and
the counter are retained. -/
def Obligations.Eac3FrameIsAppended : Prop :=
  ∀ (s o : State) (f : Frame) (h : HeaderReply) (i : Instr), Runs i (.processEac3 f) s →
    Legal s → s.fault = false → s.cfgCodec = .eac3 → (s.burstActive = true ∨ s.bufAvail = true) →
    o = opened s.params.eac3Capacity s.params.eac3NSamples f s →
    a52Reply s.params f.data = some h → h.frameSize.toNat ≤ f.len →
    o.offset.toNat + h.frameSize.toNat ≤ o.cap.toNat →
    EntersBranch h → blocksAfter h s.eac3Blocks ≠ 6 →
    ∃ m, exec i s = .next
        { o with
          buf := m, offset := BitVec.ofNat 16 (o.offset.toNat + imageSize h.frameSize.toNat)
          eac3Blocks := blocksAfter h s.eac3Blocks, rsp := some .pending } ∧
      ∀ a, m.read a =
        if o.offset.toNat ≤ a ∧ a < o.offset.toNat + imageSize h.frameSize.toNat then
          some (imageByte true s.cfgOutBe (f.data.take h.frameSize.toNat) (a - o.offset.toNat))
        else o.buf.read a

/-- R170, R171, R175: any other frame, and the one that brings the count to exactly 6, closes the burst: everything
accumulated, then this frame, then zeros, length in bytes, and the counter back to 0. -/
def Obligations.Eac3FrameClosesTheBurst : Prop :=
  ∀ (s o : State) (f : Frame) (h : HeaderReply) (i : Instr), Runs i (.processEac3 f) s →
    Legal s → s.fault = false → s.cfgCodec = .eac3 → (s.burstActive = true ∨ s.bufAvail = true) →
    o = opened s.params.eac3Capacity s.params.eac3NSamples f s →
    a52Reply s.params f.data = some h → h.frameSize.toNat ≤ f.len →
    o.offset.toNat + h.frameSize.toNat ≤ o.cap.toNat →
    ¬ EntersBranch h ∨ blocksAfter h s.eac3Blocks = 6 →
    ∃ m b, exec i s = .next
        { o with
          buf := m, offset := o.cap, burstActive := false, eac3Blocks := 0, out := some b
          rsp := some .complete } ∧
      b.len = o.cap ∧ b.data.length = o.cap.toNat ∧ b.nsamples = o.burstNSamples ∧ b.pts = o.burstPts ∧
      b.dts = o.burstDts ∧
      b.data.take 8 =
        preambleBytes s.cfgOutBe 0x15 (o.offset.toNat - 8 + imageSize h.frameSize.toNat) ∧
      (∀ a < o.offset.toNat, 8 ≤ a → b.data[a]? = o.buf.read a) ∧
      (∀ j < imageSize h.frameSize.toNat,
        b.data[o.offset.toNat + j]? =
          some (imageByte true s.cfgOutBe (f.data.take h.frameSize.toNat) j)) ∧
      (∀ a < o.cap.toNat, o.offset.toNat + imageSize h.frameSize.toNat ≤ a → b.data[a]? = some 0)

/-- R175: frames of sub-stream 0 that enter the accumulation branch, whose block counts reach 6 exactly with the last of
them and which all fit, sent to a session with no burst in progress: PENDING for each but the last, then one burst of
data type 0x15 that holds every frame in order. -/
def Obligations.Eac3AggregateEmitsOneBurst : Prop :=
  ∀ (s : State) (frames : List Frame) (replies : List HeaderReply) (rest : List Input),
    Legal s → s.fault = false → s.configured = true → s.cfgCodec = .eac3 → s.burstActive = false →
    s.input = frames.map processInput ++ rest →
    frames.map (fun f => a52Reply s.params f.data) = replies.map some →
    (∀ f ∈ frames, f.wf) → (∀ q ∈ frames.zip replies, q.2.frameSize.toNat ≤ q.1.len) →
    (∀ h ∈ replies, EntersBranch h ∧ h.substreamId = 0) →
    8 + (replies.map fun h => imageSize h.frameSize.toNat).sum ≤ s.params.eac3Capacity.toNat →
    (∀ k < frames.length, ((replies.take k).map fun h => h.blocksPerSyncFrame.toNat).sum ≠ 6) →
    (replies.map fun h => h.blocksPerSyncFrame.toNat).sum = 6 →
    (∀ k, k + 1 < frames.length → ∃ t, stepN (k + 1) s = some t ∧ t.rsp = some .pending ∧ t.out = none) ∧
    ∃ t b, stepN frames.length s = some t ∧ t.rsp = some .complete ∧ t.out = some b ∧ t.input = rest ∧
      t.burstActive = false ∧ t.eac3Blocks = 0 ∧
      b.len = s.params.eac3Capacity ∧ b.data.length = s.params.eac3Capacity.toNat ∧
      b.nsamples = s.params.eac3NSamples ∧
      (∀ f, frames.head? = some f → b.pts = tsBits s.params f.pts ∧ b.dts = tsBits s.params f.dts) ∧
      b.data.take 8 =
        preambleBytes s.cfgOutBe 0x15 (replies.map fun h => imageSize h.frameSize.toNat).sum ∧
      ∀ i f h, frames[i]? = some f → replies[i]? = some h → ∀ j < imageSize h.frameSize.toNat,
        b.data[8 + ((replies.take i).map fun h => imageSize h.frameSize.toNat).sum + j]? =
          some (imageByte true s.cfgOutBe (f.data.take h.frameSize.toNat) j)

/-- R170, R231, R232: the rejections of PROCESS.EAC3, in the order of its tests. -/
def Obligations.Eac3RejectsFrames : Prop :=
  ∀ (s : State) (f : Frame) (i : Instr), Runs i (.processEac3 f) s →
    ((∀ h, a52Reply s.params f.data = some h → f.len < h.frameSize.toNat) →
      ∃ u, FlushedFrom s u ∧ exec i s = .next { u with rsp := some (.error .malformedFrame) }) ∧
    (∀ h, a52Reply s.params f.data = some h → h.frameSize.toNat ≤ f.len →
      (s.burstActive = false → s.bufAvail = false →
        ∃ u, FlushedFrom s u ∧ exec i s = .next { u with rsp := some (.error .allocationFailure) }) ∧
      (s.burstActive = true ∨ s.bufAvail = true →
        (opened s.params.eac3Capacity s.params.eac3NSamples f s).cap.toNat <
          (opened s.params.eac3Capacity s.params.eac3NSamples f s).offset.toNat + h.frameSize.toNat →
        ∃ u, FlushedFrom s u ∧ exec i s = .next { u with rsp := some (.error .malformedFrame) }))

/-! ### DTS -/

/-- R180, R181, R183: an accepted frame that leaves room for the preamble (timestamps through `tsBits`, log 7). -/
def Obligations.DtsFrameBecomesOneBurst : Prop :=
  ∀ (s : State) (f : Frame) (size ns : Nat) (srcBe : Bool) (i : Instr), Runs i (.processDts f) s →
    s.buf.wf → s.burstActive = false → s.bufAvail = true → DtsAccepts s.params f size ns → size ≠ ns * 4 →
    (srcBe = true ↔ f.data.head? = some s.params.dtsMagic.1 ∨ f.data.head? = some s.params.dtsMagic.2) →
    ∃ m b, exec i s = .next
        { s with
          cap := BitVec.ofNat 16 (ns * 4), offset := BitVec.ofNat 16 (ns * 4), burstPts := tsBits s.params f.pts
          burstDts := tsBits s.params f.dts, burstNSamples := BitVec.ofNat 32 ns, buf := m, out := some b
          rsp := some .complete } ∧
      b.len.toNat = ns * 4 ∧ b.data.length = ns * 4 ∧ b.nsamples.toNat = ns ∧
      b.pts = tsBits s.params f.pts ∧ b.dts = tsBits s.params f.dts ∧
      b.data.take 8 =
        preambleBytes s.cfgOutBe (if ns = 512 then 0x0B else if ns = 1024 then 0x0C else 0x0D)
          (imageSize size * 8) ∧
      (∀ j < imageSize size, b.data[8 + j]? = some (imageByte srcBe s.cfgOutBe (f.data.take size) j)) ∧
      (∀ j < ns * 4, 8 + imageSize size ≤ j → b.data[j]? = some 0)

/-- R182, R185: a frame that fills the capacity exactly is emitted bare, with no preamble (timestamps through `tsBits`,
log 7). -/
def Obligations.DtsFullFrameIsEmittedBare : Prop :=
  ∀ (s : State) (f : Frame) (ns : Nat) (srcBe : Bool) (i : Instr), Runs i (.processDts f) s →
    s.buf.wf → s.burstActive = false → s.bufAvail = true → DtsAccepts s.params f (ns * 4) ns →
    (srcBe = true ↔ f.data.head? = some s.params.dtsMagic.1 ∨ f.data.head? = some s.params.dtsMagic.2) →
    ∃ m b, exec i s = .next
        { s with
          cap := BitVec.ofNat 16 (ns * 4), offset := BitVec.ofNat 16 (ns * 4), burstPts := tsBits s.params f.pts
          burstDts := tsBits s.params f.dts, burstNSamples := BitVec.ofNat 32 ns, buf := m, out := some b
          rsp := some .complete } ∧
      b.len.toNat = ns * 4 ∧ b.data.length = ns * 4 ∧ b.nsamples.toNat = ns ∧
      b.pts = tsBits s.params f.pts ∧ b.dts = tsBits s.params f.dts ∧
      (∀ j < ns * 4, b.data[j]? = some (imageByte srcBe s.cfgOutBe (f.data.take (ns * 4)) j))

/-- R180, R181, R231: the rejections of PROCESS.DTS. -/
def Obligations.DtsRejectsFrames : Prop :=
  ∀ (s : State) (f : Frame) (i : Instr), Runs i (.processDts f) s →
    ((∀ size ns, ¬ DtsAccepts s.params f size ns) →
      ∃ u, FlushedFrom s u ∧ exec i s = .next { u with rsp := some (.error .malformedFrame) }) ∧
    (∀ size ns, DtsAccepts s.params f size ns → s.bufAvail = false →
      ∃ u, FlushedFrom s u ∧ exec i s = .next { u with rsp := some (.error .allocationFailure) })

/-! ### TrueHD and MLP -/

/-- R190, R191, R192: the frame of an index below 23: marker byte for byte, payload, zeros, the next index, PENDING. -/
def Obligations.TrueHdFrameFillsItsSlot : Prop :=
  ∀ (s o : State) (f : Frame) (n : Nat) (marker : List Byte) (i : Instr), Runs i (.processTrueHd f) s →
    Legal s → s.fault = false → s.cfgCodec = .mlp ∨ s.cfgCodec = .truehd →
    (s.burstActive = true ∨ s.bufAvail = true) → o = opened 61440 3840 f s → n = s.trueHdIdx.val → n ≠ 23 →
    marker = matMarker s.params n → f.len + matReserve n ≤ 2560 →
    ∃ m, exec i s = .next
        { o with
          buf := m
          offset := BitVec.ofNat 16
            (o.offset.toNat + marker.length + imageSize f.len + (2560 - f.len - matReserve n))
          trueHdIdx := s.trueHdIdx + 1, rsp := some .pending } ∧
      (∀ j < marker.length, m.read (o.offset.toNat + j) = marker[j]?) ∧
      (∀ j < imageSize f.len,
        m.read (o.offset.toNat + marker.length + j) = some (imageByte true s.cfgOutBe f.data j)) ∧
      (∀ j < 2560 - f.len - matReserve n,
        m.read (o.offset.toNat + marker.length + imageSize f.len + j) = some 0) ∧
      (∀ a, a < o.offset.toNat ∨
          o.offset.toNat + marker.length + imageSize f.len + (2560 - f.len - matReserve n) ≤ a →
        m.read a = o.buf.read a)

/-- R190, R192: the frame of index 23 closes the super-frame: payload, zeros, the end marker byte for byte, trailing
zeros, data type 0x16, length in bytes, index 0. -/
def Obligations.TrueHdLastFrameCompletesTheBurst : Prop :=
  ∀ (s : State) (f : Frame) (last : Nat) (i : Instr), Runs i (.processTrueHd f) s →
    Legal s → s.fault = false → s.cfgCodec = .mlp ∨ s.cfgCodec = .truehd → s.trueHdIdx = 23 →
    f.len ≤ 2536 → last = s.offset.toNat + imageSize f.len + (2536 - f.len) → last + 16 ≤ 61440 →
    ∃ m b, exec i s = .next
        { s with
          buf := m, offset := 61440, burstActive := false, trueHdIdx := 0, out := some b
          rsp := some .complete } ∧
      b.len = 61440 ∧ b.data.length = 61440 ∧ b.nsamples = s.burstNSamples ∧ b.pts = s.burstPts ∧
      b.dts = s.burstDts ∧ b.data.take 8 = preambleBytes s.cfgOutBe 0x16 (last + 16 - 8) ∧
      (∀ a < s.offset.toNat, 8 ≤ a → b.data[a]? = s.buf.read a) ∧
      (∀ j < imageSize f.len, b.data[s.offset.toNat + j]? = some (imageByte true s.cfgOutBe f.data j)) ∧
      (∀ j < 2536 - f.len, b.data[s.offset.toNat + imageSize f.len + j]? = some 0) ∧
      (∀ j < 16, b.data[last + j]? = s.params.matEnd.toList[j]?) ∧
      (∀ j < 61440, last + 16 ≤ j → b.data[j]? = some 0)

/-- R194, R235: when the end marker has no room (more than eight odd frames) the command answers WriterFault: FAULT is
set, the payload and its padding are written, every other byte, the burst and the index stay. -/
def Obligations.TrueHdEndMarkerWithoutRoomFaults : Prop :=
  ∀ (s : State) (f : Frame) (last : Nat) (i : Instr), Runs i (.processTrueHd f) s →
    Legal s → s.fault = false → s.cfgCodec = .mlp ∨ s.cfgCodec = .truehd → s.trueHdIdx = 23 →
    f.len ≤ 2536 → last = s.offset.toNat + imageSize f.len + (2536 - f.len) → 61440 < last + 16 →
    ∃ m, exec i s = .next
      { s with
        buf := m, offset := BitVec.ofNat 16 last, fault := true, rsp := some (.error .writerFault) } ∧
      ∀ a, m.read a =
        if s.offset.toNat ≤ a ∧ a < s.offset.toNat + imageSize f.len then
          some (imageByte true s.cfgOutBe f.data (a - s.offset.toNat))
        else if s.offset.toNat + imageSize f.len ≤ a ∧ a < last then some 0
        else s.buf.read a

/-- R190, R191, R231: the rejections of PROCESS.TRUEHD: no buffer for a new super-frame, and negative padding. -/
def Obligations.TrueHdRejectsFrames : Prop :=
  ∀ (s : State) (f : Frame) (i : Instr), Runs i (.processTrueHd f) s →
    Legal s → s.fault = false → s.cfgCodec = .mlp ∨ s.cfgCodec = .truehd →
    (s.burstActive = false → s.bufAvail = false →
      ∃ u, FlushedFrom s u ∧ exec i s = .next { u with rsp := some (.error .allocationFailure) }) ∧
    (s.burstActive = true ∨ s.bufAvail = true → 2560 < f.len + matReserve s.trueHdIdx.val →
      ∃ u, FlushedFrom s u ∧ exec i s = .next { u with rsp := some (.error .malformedFrame) })

/-- R193: with even frames OFFSET follows the 2560-byte cadence, slot after slot; the command of index 0 puts the start
marker at 8, that of index 12 the middle marker at 30716, and that of index 23 the end marker at 61416. -/
def Obligations.TrueHdEvenFramesKeepTheCadence : Prop :=
  ∀ (s t : State) (f : Frame), Legal s → s.fault = false → s.configured = true →
    s.cfgCodec = .mlp ∨ s.cfgCodec = .truehd → (s.burstActive = true → s.offset.toNat = slotStart s.trueHdIdx.val) →
    f.len % 2 = 0 → exec (.process f) s = .next t →
    (t.rsp = some .pending →
      t.offset.toNat = slotStart t.trueHdIdx.val ∧ t.trueHdIdx.val = s.trueHdIdx.val + 1 ∧
      (s.trueHdIdx.val = 0 → ∀ j < 20, t.buf.read (8 + j) = s.params.matStart.toList[j]?) ∧
      (s.trueHdIdx.val = 12 → ∀ j < 12, t.buf.read (30716 + j) = s.params.matMid.toList[j]?)) ∧
    (s.trueHdIdx.val = 23 → f.len ≤ 2536 → t.rsp = some .complete ∧
      ∃ b, t.out = some b ∧ b.data.take 8 = preambleBytes s.cfgOutBe 0x16 61424 ∧
        (∀ j < 16, b.data[61416 + j]? = s.params.matEnd.toList[j]?) ∧
        (∀ j < 8, b.data[61432 + j]? = some 0))

/-- R197, with the bound S ≤ 2532, S even: 24 frames of one size, sent to a session with no burst in progress: 23 times
PENDING, then one burst of 61440 bytes with the start marker at 8, the middle marker at 2560·12 − 4, the end marker at
2560·24 − 24 and every payload in its slot. -/
def Obligations.TrueHdSuperFrameHasItsMarkersAndPayloads : Prop :=
  ∀ (s : State) (frames : List Frame) (size : Nat) (rest : List Input),
    Legal s → s.fault = false → s.configured = true → s.cfgCodec = .mlp ∨ s.cfgCodec = .truehd →
    s.burstActive = false → frames.length = 24 → (∀ f ∈ frames, f.len = size) → size % 2 = 0 → size ≤ 2532 →
    s.input = frames.map processInput ++ rest →
    (∀ k < 23, ∃ t, stepN (k + 1) s = some t ∧ t.rsp = some .pending ∧ t.out = none) ∧
    ∃ t b, stepN 24 s = some t ∧ t.rsp = some .complete ∧ t.out = some b ∧ t.input = rest ∧
      t.burstActive = false ∧ t.trueHdIdx = 0 ∧
      b.len = 61440 ∧ b.data.length = 61440 ∧ b.nsamples = 3840 ∧
      (∀ f, frames.head? = some f → b.pts = tsBits s.params f.pts ∧ b.dts = tsBits s.params f.dts) ∧
      b.data.take 8 = preambleBytes s.cfgOutBe 0x16 61424 ∧
      (∀ j < 20, b.data[8 + j]? = s.params.matStart.toList[j]?) ∧
      (∀ j < 12, b.data[2560 * 12 - 4 + j]? = s.params.matMid.toList[j]?) ∧
      (∀ j < 16, b.data[2560 * 24 - 24 + j]? = s.params.matEnd.toList[j]?) ∧
      ∀ i f, frames[i]? = some f → ∀ j < size,
        b.data[payloadStart i + j]? = some (imageByte true s.cfgOutBe f.data j)

/-! ### The writer port -/

/-- R131: ALLOC with `cap ≥ 8` (`tsBits` is the identity on a value of TS_WIDTH bits, log 7). -/
def Obligations.AllocReservesTheBuffer : Prop :=
  ∀ (s : State) (cap : Half) (pts dts : Timestamp) (ns : Word), 8 ≤ cap.toNat →
    (s.burstActive = false → s.bufAvail = true →
      ∃ m, exec (.alloc cap pts dts ns) s = .next
          { s with
            cap := cap, offset := 8, burstPts := tsBits s.params pts, burstDts := tsBits s.params dts
            burstNSamples := ns, buf := m, burstActive := true, wres := some .performed } ∧
        ∀ a, m.read a = if a < cap.toNat then none else s.buf.read a) ∧
    (s.burstActive = true ∨ s.bufAvail = false →
      exec (.alloc cap pts dts ns) s = .next { s with wres := some (.raised .allocationFailure) })

/-- R132, R62, R64: WRITE with room for the promoted word. -/
def Obligations.WriteStoresTheImage : Prop :=
  ∀ (s : State) (data : List Byte) (srcBe : Bool), s.burstActive = true →
    s.offset.toNat + imageSize data.length ≤ s.cap.toNat →
    ∃ m, exec (.write data srcBe) s = .next
        { s with
          buf := m, offset := BitVec.ofNat 16 (s.offset.toNat + imageSize data.length)
          wres := some .performed } ∧
      ∀ a, m.read a =
        if s.offset.toNat ≤ a ∧ a < s.offset.toNat + imageSize data.length then
          some (imageByte srcBe s.cfgOutBe data (a - s.offset.toNat))
        else s.buf.read a

/-- R133: PAD with room. -/
def Obligations.PadStoresZeros : Prop :=
  ∀ (s : State) (size : Word), s.burstActive = true → s.offset.toNat + size.toNat ≤ s.cap.toNat →
    ∃ m, exec (.pad size) s = .next
        { s with
          buf := m, offset := BitVec.ofNat 16 (s.offset.toNat + size.toNat), wres := some .performed } ∧
      ∀ a, m.read a =
        if s.offset.toNat ≤ a ∧ a < s.offset.toNat + size.toNat then some 0 else s.buf.read a

/-- R134, R107, R111, R138, R139: FINALIZE of a burst whose bytes below OFFSET were all written (those of the preamble
excepted when one is stamped). The length field is taken mod 2^16 also below OFFSET 8. -/
def Obligations.FinalizeEmitsTheBurst : Prop :=
  ∀ (s : State) (dt : Half) (mult : BitVec 4), MachineInv s → s.burstActive = true → mult = 1 ∨ mult = 8 →
    (∀ a < s.offset.toNat, dt = 0 ∨ 8 ≤ a → (s.buf.read a).isSome = true) →
    ∃ m b, exec (.finalize dt mult) s = .next
        { s with
          buf := m, offset := s.cap, burstActive := false, out := some b, wres := some .performed } ∧
      b.len = s.cap ∧ b.data.length = s.cap.toNat ∧ b.nsamples = s.burstNSamples ∧ b.pts = s.burstPts ∧
      b.dts = s.burstDts ∧
      (∀ a < s.cap.toNat, b.data[a]? = m.read a) ∧
      ∀ a, m.read a =
        if s.offset.toNat ≤ a ∧ a < s.cap.toNat then some 0
        else if dt ≠ 0 ∧ a < 8 then
          (preambleBytes s.cfgOutBe dt.toNat ((s.offset.toNat + 65528) * mult.toNat % 65536))[a]?
        else s.buf.read a

/-- R36, R141, U7: FINALIZE never emits a byte that was never written: it stops with the fault of that name. -/
def Obligations.FinalizeStopsOnAnUnwrittenByte : Prop :=
  ∀ (s : State) (dt : Half) (mult : BitVec 4) (a : Nat), MachineInv s → s.burstActive = true →
    mult = 1 ∨ mult = 8 → a < s.offset.toNat → dt = 0 ∨ 8 ≤ a → s.buf.read a = none →
    exec (.finalize dt mult) s = .fault .unwrittenByte

/-- R135: REWIND. -/
def Obligations.RewindSetsOffsetToZero : Prop :=
  ∀ s : State, s.burstActive = true →
    exec .rewind s = .next { s with offset := 0, wres := some .performed }

/-- R136: DISCARD, with or without a burst in progress, never fails and emits nothing; CAP, OFFSET and BURST_* hold
whatever values. -/
def Obligations.DiscardDropsTheBurst : Prop :=
  ∀ s : State, ∃ cap offset pts dts ns m, exec .discard s = .next
      { s with
        burstActive := false, buf := m, cap := cap, offset := offset, burstPts := pts, burstDts := dts
        burstNSamples := ns, draws := s.draws + 1, wres := some .performed } ∧
    ∀ a, m.read a = none

/-- R140, R235: every writer contract violation sets FAULT and changes nothing else. -/
def Obligations.ContractViolationSetsFaultOnly : Prop :=
  ∀ (s : State) (i : Instr),
    (s.burstActive = false ∧
        ((∃ data srcBe, i = .write data srcBe) ∨ (∃ size, i = .pad size) ∨ i = .rewind ∨
          ∃ dt mult, i = .finalize dt mult ∧ (mult = 1 ∨ mult = 8))) ∨
      (∃ data srcBe, i = .write data srcBe ∧ s.cap.toNat < s.offset.toNat + imageSize data.length) ∨
      (∃ size, i = .pad size ∧ s.cap.toNat < s.offset.toNat + size.toNat) →
    exec i s = .next { s with fault := true, wres := some (.raised .writerFault) }

/-- R100, R134, U11: micro-operation words with code 6 or 7 or a reserved bit, and FINALIZE with a multiplier other than
1 and 8, are refused with no state change. -/
def Obligations.UnusedMicroOperationsAreRefused : Prop :=
  (∀ (s : State) (w : Byte) (o : WopOperands) (avail : Bool) (rest : List Input),
    s.input = .req (.wop w o) avail :: rest → 6 ≤ w.toNat →
    step s = .next
      { s with input := rest, bufAvail := avail, rsp := none, out := none, wres := some .rejected }) ∧
  (∀ (s : State) (dt : Half) (mult : BitVec 4), mult ≠ 1 → mult ≠ 8 →
    exec (.finalize dt mult) s = .next { s with wres := some .rejected })

/-! ### The wire format -/

/-- R137, R60: a 16-bit store at `a` is read back in the destination order, and no other byte changes. -/
def Obligations.Set16StoresOneWord : Prop :=
  ∀ (be : Bool) (m : Memory) (a : Nat) (v : Half),
    (∃ x y, (Memory.set16 be m a v).read a = some x ∧ (Memory.set16 be m a v).read (a + 1) = some y ∧
      (if be then x.toNat * 256 + y.toNat else y.toNat * 256 + x.toNat) = v.toNat) ∧
    ∀ b, b ≠ a → b ≠ a + 1 → (Memory.set16 be m a v).read b = m.read b

/-- R77, R62, R64: a big-endian source gives the same word sequence in both output formats: W(2k) is the source's word,
and a trailing odd byte is the high byte of the last word. -/
def Obligations.WordSequenceIsTheSameInBothFormats : Prop :=
  ∀ (be : Bool) (data : List Byte) (k : Nat),
    (2 * k + 1 < data.length →
      wordAt be (wireBytes (true != be) be data) (2 * k) =
        (data.getD (2 * k) 0).toNat * 256 + (data.getD (2 * k + 1) 0).toNat) ∧
    (2 * k + 1 = data.length →
      wordAt be (wireBytes (true != be) be data) (2 * k) = (data.getD (2 * k) 0).toNat * 256)
end

