-- ==== Sys2Proof/Laws/Decode.lean ====
section
/-! SUPPORT. The fields of an encoded word, and the word from its fields (spec/30_encoding.md R90, R100). -/

namespace Sys2Proof

theorem cmdWord_toNat (opc arg1 arg0 : Byte) :
    (cmdWord opc arg1 arg0).toNat = opc.toNat * 2 ^ 24 + arg1.toNat * 2 ^ 8 + arg0.toNat := by
  have h : ∀ (n m : Nat) (x : BitVec n) (y : BitVec m), (x ++ y).toNat = x.toNat * 2 ^ m + y.toNat := fun n m x y => by
    rw [BitVec.toNat_append, Nat.shiftLeft_eq, mul_comm, Nat.two_pow_add_eq_or_of_lt y.isLt]
  have z : (0 : Byte).toNat = 0 := rfl
  rw [cmdWord, h, h, h, z]
  omega

theorem cmdOpc_toNat (w : Word) : (cmdOpc w).toNat = w.toNat / 2 ^ 24 := by
  rw [cmdOpc, BitVec.extractLsb'_toNat, Nat.shiftRight_eq_div_pow]
  omega

theorem cmdRsv_toNat (w : Word) : (cmdRsv w).toNat = w.toNat / 2 ^ 16 % 256 := by
  rw [cmdRsv, BitVec.extractLsb'_toNat, Nat.shiftRight_eq_div_pow]

theorem cmdArg1_toNat (w : Word) : (cmdArg1 w).toNat = w.toNat / 2 ^ 8 % 256 := by
  rw [cmdArg1, BitVec.extractLsb'_toNat, Nat.shiftRight_eq_div_pow]

theorem cmdArg0_toNat (w : Word) : (cmdArg0 w).toNat = w.toNat % 256 := by
  rw [cmdArg0, BitVec.extractLsb'_toNat, Nat.shiftRight_eq_div_pow]
  simp

@[simp] theorem cmdOpc_cmdWord (opc arg1 arg0 : Byte) : cmdOpc (cmdWord opc arg1 arg0) = opc := by
  apply BitVec.eq_of_toNat_eq
  rw [cmdOpc_toNat, cmdWord_toNat]
  omega

@[simp] theorem cmdRsv_cmdWord (opc arg1 arg0 : Byte) : cmdRsv (cmdWord opc arg1 arg0) = 0 := by
  apply BitVec.eq_of_toNat_eq
  have z : (0 : Byte).toNat = 0 := rfl
  rw [cmdRsv_toNat, cmdWord_toNat, z]
  omega

@[simp] theorem cmdArg1_cmdWord (opc arg1 arg0 : Byte) : cmdArg1 (cmdWord opc arg1 arg0) = arg1 := by
  apply BitVec.eq_of_toNat_eq
  rw [cmdArg1_toNat, cmdWord_toNat]
  omega

@[simp] theorem cmdArg0_cmdWord (opc arg1 arg0 : Byte) : cmdArg0 (cmdWord opc arg1 arg0) = arg0 := by
  apply BitVec.eq_of_toNat_eq
  rw [cmdArg0_toNat, cmdWord_toNat]
  omega

/-- A word with RSV = 0 is the word of its three other fields. -/
theorem cmdWord_fields {w : Word} (h : cmdRsv w = 0) : cmdWord (cmdOpc w) (cmdArg1 w) (cmdArg0 w) = w := by
  apply BitVec.eq_of_toNat_eq
  have z : (0 : Byte).toNat = 0 := rfl
  have h' := congrArg BitVec.toNat h
  rw [cmdRsv_toNat, z] at h'
  rw [cmdWord_toNat, cmdOpc_toNat, cmdArg1_toNat, cmdArg0_toNat]
  omega

@[simp] theorem wopCode_wopWord (c : BitVec 3) : wopCode (wopWord c) = c := by
  revert c
  decide

@[simp] theorem wopReserved_wopWord (c : BitVec 3) : wopReserved (wopWord c) = 0 := by
  revert c
  decide

/-- A micro-operation word with its reserved bits 0 is the word of its code. -/
theorem wopWord_code {w : Byte} (h : wopReserved w = 0) : wopWord (wopCode w) = w := by
  revert w
  decide

end Sys2Proof
end

