-- ==== Sys2Proof/Laws/Memory.lean ====
section
/-! SUPPORT. The laws of the burst buffer: what a read sees after each operation, and that every operation keeps the
canonical form. -/

namespace Sys2Proof.Machine

@[simp] theorem Memory.read_nil (a : Nat) : Memory.read [] a = none := rfl

theorem Memory.read_append (m n : Memory) (a : Nat) :
    Memory.read (m ++ n) a = (m.read a).or (n.read a) := by
  induction m with
  | nil => simp
  | cons c m ih =>
    obtain ⟨k, b⟩ := c
    by_cases h : k = a
    · simp [Memory.read, h]
    · simpa [Memory.read, h] using ih

theorem Memory.read_filter (p : Nat → Bool) (m : Memory) (a : Nat) :
    Memory.read (m.filter (fun c => p c.1)) a = if p a then m.read a else none := by
  induction m with
  | nil => simp
  | cons c m ih =>
    obtain ⟨k, b⟩ := c
    by_cases hk : k = a
    · subst hk
      by_cases hp : p k
      · simp [hp, Memory.read]
      · simpa [List.filter_cons, hp] using ih
    · by_cases hp : p k
      · simpa [List.filter_cons, hp, Memory.read, hk] using ih
      · simpa [List.filter_cons, hp, Memory.read, hk] using ih

@[simp] theorem cellsAt_length (a : Nat) (bs : List Byte) : (cellsAt a bs).length = bs.length := by
  induction bs generalizing a with
  | nil => rfl
  | cons b bs ih => simp [cellsAt, ih]

theorem read_cellsAt (a x : Nat) (bs : List Byte) :
    Memory.read (cellsAt a bs) x = if a ≤ x then bs[x - a]? else none := by
  induction bs generalizing a with
  | nil => simp [cellsAt]
  | cons b bs ih =>
    rw [cellsAt, Memory.read, ih]
    rcases Nat.lt_trichotomy a x with h | h | h
    · have e : x - a = (x - (a + 1)) + 1 := by omega
      rw [if_neg (by omega), if_pos (by omega), if_pos (by omega), e]
      rfl
    · subst h
      simp
    · rw [if_neg (by omega), if_neg (by omega), if_neg (by omega)]

/-- MemWrite changes exactly the bytes it is given (R10). -/
theorem Memory.read_write (m : Memory) (a x : Nat) (bs : List Byte) :
    (m.write a bs).read x = if a ≤ x ∧ x < a + bs.length then bs[x - a]? else m.read x := by
  have low := Memory.read_filter (fun k => decide (k < a)) m x
  have high := Memory.read_filter (fun k => decide (a + bs.length ≤ k)) m x
  rw [Memory.write, Memory.read_append, Memory.read_append, low, high, read_cellsAt]
  by_cases h1 : x < a
  · have h2 : ¬ a ≤ x := by omega
    have h3 : ¬ a + bs.length ≤ x := by omega
    simp [h1, h2, h3]
  · by_cases h2 : x < a + bs.length
    · have h3 : a ≤ x := by omega
      have h4 : x - a < bs.length := by omega
      simp [h1, h2, h3, List.getElem?_eq_getElem h4]
    · have h3 : a ≤ x := by omega
      have h4 : a + bs.length ≤ x := by omega
      have h5 : bs[x - a]? = none := List.getElem?_eq_none (by omega)
      simp [h1, h2, h3, h4, h5]

/-- ALLOC's erasure makes exactly its bytes "never written" (R131). -/
theorem Memory.read_erase (m : Memory) (a n x : Nat) :
    (m.erase a n).read x = if a ≤ x ∧ x < a + n then none else m.read x := by
  have h := Memory.read_filter (fun k => decide (k < a ∨ a + n ≤ k)) m x
  rw [Memory.erase, h]
  by_cases hx : a ≤ x ∧ x < a + n
  · have : ¬ (x < a ∨ a + n ≤ x) := by omega
    simp [hx, this]
  · have : x < a ∨ a + n ≤ x := by omega
    simp [hx, this]

@[simp] theorem halfBytes_length (be : Bool) (v : Half) : (halfBytes be v).length = 2 := by
  cases be <;> rfl

/-- `set16` changes exactly two bytes (R137). -/
theorem Memory.read_set16 (be : Bool) (m : Memory) (a x : Nat) (v : Half) :
    (Memory.set16 be m a v).read x = if a ≤ x ∧ x < a + 2 then (halfBytes be v)[x - a]? else m.read x := by
  rw [Memory.set16, Memory.read_write, halfBytes_length]

/-- The Burst Header Builder changes exactly the bytes 0 to 7 (R105, R138). -/
theorem read_stampHeader (be : Bool) (dt len : Half) (m : Memory) (x : Nat) :
    (stampHeader be dt len m).read x =
      if x < 8 then (halfBytes be sync1 ++ halfBytes be sync2 ++ halfBytes be dt ++ halfBytes be len)[x]?
      else m.read x := by
  simp only [stampHeader, Memory.read_set16]
  by_cases h : x < 8
  · interval_cases x <;> cases be <;> rfl
  · rw [if_neg (by omega), if_neg (by omega), if_neg (by omega), if_neg (by omega), if_neg h]

theorem mem_cellsAt {a : Nat} {bs : List Byte} {c : Host.Cell} (h : c ∈ cellsAt a bs) :
    a ≤ c.1 ∧ c.1 < a + bs.length := by
  induction bs generalizing a with
  | nil => simp [cellsAt] at h
  | cons b bs ih =>
    rcases List.mem_cons.1 h with rfl | h
    · simp
    · have := ih h
      simp only [List.length_cons]
      omega

theorem cellsAt_rising (a : Nat) (bs : List Byte) : (cellsAt a bs).Pairwise (fun c d => c.1 < d.1) := by
  induction bs generalizing a with
  | nil => exact List.Pairwise.nil
  | cons b bs ih => exact List.Pairwise.cons (fun c hc => (mem_cellsAt hc).1) (ih (a + 1))

theorem Memory.wf_nil : Memory.wf [] := ⟨List.Pairwise.nil, fun _ h => absurd h List.not_mem_nil⟩

/-- MemWrite keeps the canonical form. -/
theorem Memory.wf_write {m : Memory} {a : Nat} {bs : List Byte} (h : m.wf) (ha : a + bs.length ≤ 65536) :
    (m.write a bs).wf := by
  obtain ⟨hs, hb⟩ := h
  refine ⟨?_, ?_⟩
  · rw [Memory.write, List.pairwise_append, List.pairwise_append]
    refine ⟨hs.filter _, ⟨cellsAt_rising a bs, hs.filter _, ?_⟩, ?_⟩
    · intro c hc d hd
      have h1 := mem_cellsAt hc
      have h2 := (List.mem_filter.1 hd).2
      simp only [decide_eq_true_eq] at h2
      omega
    · intro c hc d hd
      have h1 := (List.mem_filter.1 hc).2
      simp only [decide_eq_true_eq] at h1
      rcases List.mem_append.1 hd with hd | hd
      · have := (mem_cellsAt hd).1
        omega
      · have h2 := (List.mem_filter.1 hd).2
        simp only [decide_eq_true_eq] at h2
        omega
  · intro c hc
    rcases List.mem_append.1 hc with hc | hc
    · exact hb c (List.mem_filter.1 hc).1
    · rcases List.mem_append.1 hc with hc | hc
      · have := (mem_cellsAt hc).2
        omega
      · exact hb c (List.mem_filter.1 hc).1

/-- ALLOC's erasure keeps the canonical form. -/
theorem Memory.wf_erase {m : Memory} (h : m.wf) (a n : Nat) : (m.erase a n).wf :=
  ⟨h.1.filter _, fun c hc => h.2 c (List.mem_filter.1 hc).1⟩

/-- `set16` keeps the canonical form. -/
theorem Memory.wf_set16 {m : Memory} (be : Bool) {a : Nat} (v : Half) (h : m.wf) (ha : a + 2 ≤ 65536) :
    (Memory.set16 be m a v).wf :=
  Memory.wf_write h (by simpa using ha)

theorem wf_stampHeader {m : Memory} (be : Bool) (dt len : Half) (h : m.wf) : (stampHeader be dt len m).wf :=
  Memory.wf_set16 be _ (Memory.wf_set16 be _ (Memory.wf_set16 be _ (Memory.wf_set16 be _ h (by omega)) (by omega))
    (by omega)) (by omega)

/-- In a rising list nothing stands below its first address. -/
theorem Memory.read_below {m : Memory} {a : Nat} (h : ∀ c ∈ m, a < c.1) : m.read a = none := by
  induction m with
  | nil => rfl
  | cons c m ih =>
    obtain ⟨k, b⟩ := c
    have hk : a < k := h (k, b) (by simp)
    rw [Memory.read, if_neg (by omega)]
    exact ih (fun d hd => h d (List.mem_cons_of_mem _ hd))

/-- A rising list of cells with addresses in `a .. a + n - 1` has at most `n` of them. -/
theorem Memory.length_le {m : Memory} (h : m.Pairwise (fun c d => c.1 < d.1)) {a n : Nat}
    (hr : ∀ c ∈ m, a ≤ c.1 ∧ c.1 < a + n) : m.length ≤ n := by
  induction m generalizing a n with
  | nil => exact Nat.zero_le _
  | cons c m ih =>
    obtain ⟨hc, hm⟩ := List.pairwise_cons.1 h
    have h0 := hr c (by simp)
    have := ih hm (a := c.1 + 1) (n := a + n - (c.1 + 1)) (fun d hd => by
      have h1 := hc d hd
      have h2 := hr d (List.mem_cons_of_mem _ hd)
      omega)
    simp only [List.length_cons]
    omega

/-- With `n` cells there it has every address of the range, in order. -/
theorem Memory.read_full {m : Memory} (h : m.Pairwise (fun c d => c.1 < d.1)) {a n : Nat}
    (hr : ∀ c ∈ m, a ≤ c.1 ∧ c.1 < a + n) (hl : m.length = n) (i : Nat) (hi : i < n) :
    m.read (a + i) = (m.map (·.2))[i]? := by
  induction m generalizing a n i with
  | nil => simp at hl; omega
  | cons c m ih =>
    obtain ⟨k, b⟩ := c
    obtain ⟨hc, hm⟩ := List.pairwise_cons.1 h
    have h0 := hr (k, b) (by simp)
    have hle := Memory.length_le hm (a := k + 1) (n := a + n - (k + 1)) (fun d hd => by
      have h1 := hc d hd
      have h2 := hr d (List.mem_cons_of_mem _ hd)
      simp only at h1
      omega)
    simp only [List.length_cons] at hl
    simp only at h0
    obtain rfl : k = a := by omega
    cases i with
    | zero => simp [Memory.read]
    | succ i =>
      have := ih hm (a := k + 1) (n := n - 1) (fun d hd => by
        have h1 := hc d hd
        have h2 := hr d (List.mem_cons_of_mem _ hd)
        simp only at h1
        omega) (by omega) i (by omega)
      rw [Memory.read, if_neg (by omega), show k + (i + 1) = k + 1 + i by omega, this]
      rfl

/-- With every address of the range written there are `n` cells. -/
theorem Memory.length_of_written {m : Memory} (h : m.Pairwise (fun c d => c.1 < d.1)) {a n : Nat}
    (hr : ∀ c ∈ m, a ≤ c.1 ∧ c.1 < a + n) (hw : ∀ i < n, (m.read (a + i)).isSome = true) : m.length = n := by
  induction n generalizing a m with
  | zero =>
    have := Memory.length_le h hr
    omega
  | succ n ih =>
    cases m with
    | nil => simpa using hw 0 (by omega)
    | cons c m =>
      obtain ⟨k, b⟩ := c
      obtain ⟨hc, hm⟩ := List.pairwise_cons.1 h
      have h0 := hr (k, b) (by simp)
      simp only at h0
      have hk : k = a := by
        by_contra hk
        have := hw 0 (by omega)
        rw [Memory.read_below (fun d hd => by
          rcases List.mem_cons.1 hd with rfl | hd
          · simp only
            omega
          · have h1 := hc d hd
            simp only at h1
            omega)] at this
        simp at this
      subst hk
      have := ih hm (a := k + 1) (fun d hd => by
        have h1 := hc d hd
        have h2 := hr d (List.mem_cons_of_mem _ hd)
        simp only at h1
        omega) (fun i hi => by
        have h1 := hw (i + 1) (by omega)
        rwa [Memory.read, if_neg (by omega), show k + (i + 1) = k + 1 + i by omega] at h1)
      simp only [List.length_cons]
      omega

/-- What the window shows of BUF. -/
theorem Memory.window_facts {m : Memory} (h : m.Pairwise (fun c d => c.1 < d.1)) (a n : Nat) :
    (m.window a n).Pairwise (fun c d => c.1 < d.1) ∧ (∀ c ∈ m.window a n, a ≤ c.1 ∧ c.1 < a + n) ∧
    ∀ i < n, Memory.read (m.window a n) (a + i) = m.read (a + i) := by
  refine ⟨h.filter _, fun c hc => by simpa [Memory.window] using (List.mem_filter.1 hc).2, fun i hi => ?_⟩
  have := Memory.read_filter (fun k => decide (a ≤ k ∧ k < a + n)) m (a + i)
  rw [Memory.window, this, if_pos (by simp [hi])]

/-- MemRead answers exactly the bytes that single reads answer, and answers iff each was written (R10, R36). -/
theorem Memory.readRange_eq_some {m : Memory} (h : m.Pairwise (fun c d => c.1 < d.1)) (a n : Nat) (bs : List Byte) :
    m.readRange a n = some bs ↔ bs.length = n ∧ ∀ i < n, m.read (a + i) = bs[i]? := by
  obtain ⟨hs, hr, hw⟩ := Memory.window_facts h a n
  have key : (m.window a n).length = n → ∀ i < n, m.read (a + i) = ((m.window a n).map (·.2))[i]? :=
    fun hl i hi => by rw [← hw i hi, Memory.read_full hs hr hl i hi]
  unfold Memory.readRange
  constructor
  · intro e
    split at e
    · obtain rfl := Option.some.inj e
      rename_i hl
      exact ⟨by simpa using hl, key hl⟩
    · simp at e
  · rintro ⟨hl, hb⟩
    have hn := Memory.length_of_written hs hr (fun i hi => by
      rw [hw i hi, hb i hi, List.getElem?_eq_getElem (by omega)]
      rfl)
    rw [if_pos hn]
    congr 1
    apply List.ext_getElem?
    intro i
    by_cases hi : i < n
    · rw [← key hn i hi, hb i hi]
    · rw [List.getElem?_eq_none (by simp; omega), List.getElem?_eq_none (by omega)]

/-- MemRead answers iff every byte of the range was written. -/
theorem Memory.readRange_of_written {m : Memory} (h : m.Pairwise (fun c d => c.1 < d.1)) {a n : Nat}
    (hw : ∀ i < n, (m.read (a + i)).isSome = true) : ∃ bs, m.readRange a n = some bs := by
  refine ⟨(List.range n).map (fun i => (m.read (a + i)).getD 0), (Memory.readRange_eq_some h _ _ _).2 ⟨by simp, ?_⟩⟩
  intro i hi
  obtain ⟨b, hb⟩ := Option.isSome_iff_exists.1 (hw i hi)
  simp [hi, hb]

end Sys2Proof.Machine
end

