-- ==== Sys2Proof/Laws/Operands.lean ====
section
/-! SUPPORT. The laws of the operand forms: what a WRITE's bytes are, by address, the preamble's bytes, and the codec
and format ids. -/

namespace Sys2Proof.Machine

@[simp] theorem hiByte_promote (b : Byte) : hiByte (promote b) = b := by
  revert b
  decide

@[simp] theorem loByte_promote (b : Byte) : loByte (promote b) = 0 := by
  revert b
  decide

/-- A timestamp on its wires has TS_WIDTH bits (R6, R32). -/
theorem tsBits_lt (p : Params) (t : Timestamp) : tsBits p t < 2 ^ p.tsWidth := Nat.mod_lt _ (Nat.two_pow_pos _)

/-- A value of TS_WIDTH bits is passed through unchanged (R32). -/
theorem tsBits_of_lt {p : Params} {t : Timestamp} (h : t < 2 ^ p.tsWidth) : tsBits p t = t := Nat.mod_eq_of_lt h

@[simp] theorem tsBits_tsBits (p : Params) (t : Timestamp) : tsBits p (tsBits p t) = tsBits p t :=
  tsBits_of_lt (tsBits_lt p t)

/-- Every 2-bit value is the code of one stream type (R104). -/
theorem streamTypeCode_bijective : Function.Bijective streamTypeCode := by
  refine ⟨fun a b h => ?_, fun v => ?_⟩
  · cases a <;> cases b <;> first | rfl | exact absurd h (by decide)
  · have : v = 0 ∨ v = 1 ∨ v = 2 ∨ v = 3 := by
      revert v
      decide
    rcases this with rfl | rfl | rfl | rfl
    · exact ⟨.independent, rfl⟩
    · exact ⟨.dependent, rfl⟩
    · exact ⟨.ac3Convert, rfl⟩
    · exact ⟨.reserved, rfl⟩

/-- Induction over a byte string pair by pair. -/
theorem pairs_induction {P : List Byte → Prop} (nil : P []) (one : ∀ b, P [b])
    (pair : ∀ a b rest, P rest → P (a :: b :: rest)) : ∀ data, P data
  | [] => nil
  | [b] => one b
  | a :: b :: rest => pair a b rest (pairs_induction nil one pair rest)

theorem xor_one_add_two (i : Nat) : (i + 2) ^^^ 1 = (i ^^^ 1) + 2 := by
  have h1 := Nat.xor_div_two (a := i + 2) (b := 1)
  have h2 := Nat.xor_mod_two_eq (m := i + 2) (n := 1)
  have h3 := Nat.xor_div_two (a := i) (b := 1)
  have h4 := Nat.xor_mod_two_eq (m := i) (n := 1)
  simp only [Nat.reduceDiv, Nat.xor_zero] at h1 h3
  omega

theorem writeNeed_eq_imageSize (n : Nat) : writeNeed n = imageSize n := by
  unfold writeNeed imageSize
  split <;> omega

theorem imageSize_even (n : Nat) : imageSize n % 2 = 0 := by
  unfold imageSize
  omega

theorem le_imageSize (n : Nat) : n ≤ imageSize n := by
  unfold imageSize
  omega

theorem imageSize_of_even {n : Nat} (h : n % 2 = 0) : imageSize n = n := by
  unfold imageSize
  omega

/-- A WRITE of `n` bytes occupies `imageSize n` (R23, R64). -/
@[simp] theorem wireBytes_length (swap be : Bool) (data : List Byte) :
    (wireBytes swap be data).length = imageSize data.length := by
  induction data using pairs_induction with
  | nil => rfl
  | one b => cases be <;> rfl
  | pair a b rest ih =>
    have e : imageSize (a :: b :: rest).length = imageSize rest.length + 2 := by
      simp only [imageSize, List.length_cons]
      omega
    rw [e, ← ih, wireBytes]
    split <;> rfl

theorem imageByte_add_two (srcBe be : Bool) (a b : Byte) (rest : List Byte) (i : Nat) (h : i < imageSize rest.length) :
    imageByte srcBe be (a :: b :: rest) (i + 2) = imageByte srcBe be rest i := by
  have hl : (a :: b :: rest).length = rest.length + 2 := rfl
  unfold imageByte
  rw [hl, xor_one_add_two, Nat.add_mod_right]
  have hm : (i + 2) % 2 = i % 2 := by omega
  rw [hm]
  by_cases hi : i < rest.length - rest.length % 2
  · rw [if_pos hi, if_pos (by omega)]
    split <;> rfl
  · rw [if_neg hi, if_neg (by omega)]
    have : 0 < rest.length := by
      unfold imageSize at h
      omega
    have e : rest.length + 2 - 1 = (rest.length - 1) + 2 := by omega
    rw [e]
    rfl

/-- The bytes of a WRITE are the image of R132, address by address. -/
theorem wireBytes_get (srcBe be : Bool) (data : List Byte) (i : Nat) (h : i < imageSize data.length) :
    (wireBytes (srcBe != be) be data)[i]? = some (imageByte srcBe be data i) := by
  induction data using pairs_induction generalizing i with
  | nil => simp [imageSize] at h
  | one b =>
    have : i = 0 ∨ i = 1 := by
      simp only [imageSize, List.length_cons, List.length_nil] at h
      omega
    rcases this with rfl | rfl <;> cases be <;> simp [wireBytes, halfBytes, imageByte]
  | pair a b rest ih =>
    match i with
    | 0 =>
      have : 0 < (rest.length + 1 + 1) - (rest.length + 1 + 1) % 2 := by omega
      cases srcBe <;> cases be <;> simp [wireBytes, imageByte, this]
    | 1 =>
      have : 1 < (rest.length + 1 + 1) - (rest.length + 1 + 1) % 2 := by omega
      cases srcBe <;> cases be <;> simp [wireBytes, imageByte, this]
    | i + 2 =>
      have hi : i < imageSize rest.length := by
        simp only [imageSize, List.length_cons] at h ⊢
        omega
      rw [imageByte_add_two _ _ _ _ _ _ hi, ← ih i hi, wireBytes]
      split <;> rfl

/-- A byte string of even length written with no exchange stays as it is (R65, R192). -/
theorem wireBytes_verbatim (be : Bool) (data : List Byte) (h : data.length % 2 = 0) : wireBytes false be data = data := by
  induction data using pairs_induction with
  | nil => rfl
  | one b => simp at h
  | pair a b rest ih =>
    have : rest.length % 2 = 0 := by
      simp only [List.length_cons] at h
      omega
    simp [wireBytes, ih this]

theorem hiByte_eq (v : Half) : hiByte v = BitVec.ofNat 8 (v.toNat / 256) := by
  apply BitVec.eq_of_toNat_eq
  simp [hiByte, Nat.shiftRight_eq_div_pow]

theorem loByte_eq (v : Half) : loByte v = BitVec.ofNat 8 (v.toNat % 256) := by
  apply BitVec.eq_of_toNat_eq
  simp [loByte]

/-- The four `set16` words of the Burst Header Builder are the preamble of R105. -/
theorem preamble_words (be : Bool) (dt len : Half) :
    halfBytes be sync1 ++ halfBytes be sync2 ++ halfBytes be dt ++ halfBytes be len =
      preambleBytes be dt.toNat len.toNat := by
  cases be <;> simp [halfBytes, preambleBytes, hiByte_eq, loByte_eq, sync1, sync2]

@[simp] theorem preambleBytes_length (be : Bool) (dt len : Nat) : (preambleBytes be dt len).length = 8 := by
  cases be <;> rfl

/-- The length field as a number (R107, R111). -/
theorem lengthField_toNat (offset : Half) (mult : BitVec 4) :
    (lengthField offset mult).toNat = (offset.toNat + 65528) * mult.toNat % 65536 := by
  simp only [lengthField, headerSize, BitVec.toNat_mul, BitVec.toNat_sub, BitVec.toNat_ofNat, BitVec.toNat_setWidth]
  have h1 : (2 ^ 16 - 8 % 2 ^ 16 + offset.toNat) = offset.toNat + 65528 := by omega
  have h2 : mult.toNat % 2 ^ 16 = mult.toNat := Nat.mod_eq_of_lt (by omega)
  rw [h1, h2]
  simp [Nat.mod_mul_mod]

/-- The supported codec ids are 0 to 4 (R94). -/
theorem codecOfId_supported {id : Byte} (h : id.toNat ≤ 4) :
    ∃ c, codecOfId id = some c ∧ (codecBits c).toNat = id.toNat := by
  have key : ∀ id : Byte, id.toNat ≤ 4 → id = 0 ∨ id = 1 ∨ id = 2 ∨ id = 3 ∨ id = 4 := by decide
  rcases key id h with rfl | rfl | rfl | rfl | rfl
  · exact ⟨.ac3, rfl, rfl⟩
  · exact ⟨.eac3, rfl, rfl⟩
  · exact ⟨.dts, rfl, rfl⟩
  · exact ⟨.mlp, rfl, rfl⟩
  · exact ⟨.truehd, rfl, rfl⟩

theorem codecOfId_unsupported {id : Byte} (h : 4 < id.toNat) : codecOfId id = none := by
  have key : ∀ id : Byte, 4 < id.toNat → codecOfId id = none := by decide
  exact key id h

/-- The supported output-format ids are 0 and 1, and the id is CFG_OUT_BE (R95). -/
theorem outBeOfId_supported {id : Byte} (h : id.toNat ≤ 1) : outBeOfId id = some (id == 1) := by
  have key : ∀ id : Byte, id.toNat ≤ 1 → outBeOfId id = some (id == 1) := by decide
  exact key id h

theorem outBeOfId_unsupported {id : Byte} (h : 1 < id.toNat) : outBeOfId id = none := by
  have key : ∀ id : Byte, 1 < id.toNat → outBeOfId id = none := by decide
  exact key id h

/-- The accumulation branch is entered under R171's three conditions. -/
theorem accumulates_iff (h : HeaderReply) : accumulates h = true ↔ EntersBranch h := by
  have : h.blocksPerSyncFrame ≠ 6#8 ↔ h.blocksPerSyncFrame.toNat ≠ 6 := by
    rw [ne_eq, ne_eq, ← BitVec.toNat_inj]
    rfl
  simp [accumulates, EntersBranch, eac3TargetBlocks, this, and_assoc]

theorem countBlocks_eq (h : HeaderReply) (blocks : Word) : countBlocks h blocks = blocksAfter h blocks := by
  unfold countBlocks blocksAfter
  split
  · apply BitVec.eq_of_toNat_eq
    have : h.blocksPerSyncFrame.toNat % 4294967296 = h.blocksPerSyncFrame.toNat := Nat.mod_eq_of_lt (by omega)
    simp [this]
  · rfl

theorem slotReserve_eq (i : Fin 24) : slotReserve i = matReserve i.val := rfl

theorem matReserve_le (i : Nat) : matReserve i ≤ 28 := by
  unfold matReserve
  split_ifs <;> omega

/-- The AC3 data-type code as a number: bsmod in bits 10:8 (R106). -/
theorem ac3DataType_toNat (f : Frame) : (ac3DataType f).toNat = 1 + 256 * ((f.data.getD 5 0).toNat % 8) := by
  have key : ∀ b : Byte, (dtAc3 ||| ((b &&& 0x7).setWidth 16 <<< 8)).toNat = 1 + 256 * (b.toNat % 8) := by decide
  exact key _

theorem ac3DataType_ne_zero (f : Frame) : ac3DataType f ≠ 0 := by
  intro h
  have := ac3DataType_toNat f
  rw [h] at this
  simp at this
  omega

/-- The DTS sniff (R183). -/
theorem dtsSrcBe_iff (p : Params) (f : Frame) :
    dtsSrcBe p f = true ↔ f.data.head? = some p.dtsMagic.1 ∨ f.data.head? = some p.dtsMagic.2 := by
  unfold dtsSrcBe
  cases f.data <;> simp

end Sys2Proof.Machine
end

