-- ==== Sys2Proof/Laws/State.lean ====
section
/-! SUPPORT. One lemma per field for each shared update of the state, so that no later proof unfolds a record update. -/

namespace Sys2Proof.Machine

/-! ### `respond` -/

@[simp] theorem respond_params (r : Response) (s : State) : (respond r s).params = s.params := rfl
@[simp] theorem respond_input (r : Response) (s : State) : (respond r s).input = s.input := rfl
@[simp] theorem respond_bufAvail (r : Response) (s : State) : (respond r s).bufAvail = s.bufAvail := rfl
@[simp] theorem respond_rsp (r : Response) (s : State) : (respond r s).rsp = some r := rfl
@[simp] theorem respond_out (r : Response) (s : State) : (respond r s).out = s.out := rfl
@[simp] theorem respond_wres (r : Response) (s : State) : (respond r s).wres = s.wres := rfl
@[simp] theorem respond_configured (r : Response) (s : State) : (respond r s).configured = s.configured := rfl
@[simp] theorem respond_cfgCodec (r : Response) (s : State) : (respond r s).cfgCodec = s.cfgCodec := rfl
@[simp] theorem respond_cfgOutBe (r : Response) (s : State) : (respond r s).cfgOutBe = s.cfgOutBe := rfl
@[simp] theorem respond_fault (r : Response) (s : State) : (respond r s).fault = s.fault := rfl
@[simp] theorem respond_burstActive (r : Response) (s : State) : (respond r s).burstActive = s.burstActive := rfl
@[simp] theorem respond_cap (r : Response) (s : State) : (respond r s).cap = s.cap := rfl
@[simp] theorem respond_offset (r : Response) (s : State) : (respond r s).offset = s.offset := rfl
@[simp] theorem respond_burstPts (r : Response) (s : State) : (respond r s).burstPts = s.burstPts := rfl
@[simp] theorem respond_burstDts (r : Response) (s : State) : (respond r s).burstDts = s.burstDts := rfl
@[simp] theorem respond_burstNSamples (r : Response) (s : State) : (respond r s).burstNSamples = s.burstNSamples := rfl
@[simp] theorem respond_buf (r : Response) (s : State) : (respond r s).buf = s.buf := rfl
@[simp] theorem respond_eac3Blocks (r : Response) (s : State) : (respond r s).eac3Blocks = s.eac3Blocks := rfl
@[simp] theorem respond_trueHdIdx (r : Response) (s : State) : (respond r s).trueHdIdx = s.trueHdIdx := rfl
@[simp] theorem respond_draws (r : Response) (s : State) : (respond r s).draws = s.draws := rfl

/-! ### DISCARD -/

@[simp] theorem discardBurst_params (s : State) : (discardBurst s).params = s.params := rfl
@[simp] theorem discardBurst_input (s : State) : (discardBurst s).input = s.input := rfl
@[simp] theorem discardBurst_bufAvail (s : State) : (discardBurst s).bufAvail = s.bufAvail := rfl
@[simp] theorem discardBurst_rsp (s : State) : (discardBurst s).rsp = s.rsp := rfl
@[simp] theorem discardBurst_out (s : State) : (discardBurst s).out = s.out := rfl
@[simp] theorem discardBurst_wres (s : State) : (discardBurst s).wres = s.wres := rfl
@[simp] theorem discardBurst_configured (s : State) : (discardBurst s).configured = s.configured := rfl
@[simp] theorem discardBurst_cfgCodec (s : State) : (discardBurst s).cfgCodec = s.cfgCodec := rfl
@[simp] theorem discardBurst_cfgOutBe (s : State) : (discardBurst s).cfgOutBe = s.cfgOutBe := rfl
@[simp] theorem discardBurst_fault (s : State) : (discardBurst s).fault = s.fault := rfl
@[simp] theorem discardBurst_burstActive (s : State) : (discardBurst s).burstActive = false := rfl
@[simp] theorem discardBurst_cap (s : State) : (discardBurst s).cap = Config.freeCap s.draws := rfl
@[simp] theorem discardBurst_offset (s : State) : (discardBurst s).offset = Config.freeOffset s.draws := rfl
@[simp] theorem discardBurst_burstPts (s : State) : (discardBurst s).burstPts = tsBits s.params (Config.freePts s.draws) := rfl
@[simp] theorem discardBurst_burstDts (s : State) : (discardBurst s).burstDts = tsBits s.params (Config.freeDts s.draws) := rfl
@[simp] theorem discardBurst_burstNSamples (s : State) : (discardBurst s).burstNSamples = Config.freeNSamples s.draws := rfl
@[simp] theorem discardBurst_buf (s : State) : (discardBurst s).buf = [] := rfl
@[simp] theorem discardBurst_eac3Blocks (s : State) : (discardBurst s).eac3Blocks = s.eac3Blocks := rfl
@[simp] theorem discardBurst_trueHdIdx (s : State) : (discardBurst s).trueHdIdx = s.trueHdIdx := rfl
@[simp] theorem discardBurst_draws (s : State) : (discardBurst s).draws = s.draws + 1 := rfl

/-! ### FLUSH_STATE -/

@[simp] theorem flushState_params (s : State) : (flushState s).params = s.params := rfl
@[simp] theorem flushState_input (s : State) : (flushState s).input = s.input := rfl
@[simp] theorem flushState_bufAvail (s : State) : (flushState s).bufAvail = s.bufAvail := rfl
@[simp] theorem flushState_rsp (s : State) : (flushState s).rsp = s.rsp := rfl
@[simp] theorem flushState_out (s : State) : (flushState s).out = s.out := rfl
@[simp] theorem flushState_wres (s : State) : (flushState s).wres = s.wres := rfl
@[simp] theorem flushState_configured (s : State) : (flushState s).configured = s.configured := rfl
@[simp] theorem flushState_cfgCodec (s : State) : (flushState s).cfgCodec = s.cfgCodec := rfl
@[simp] theorem flushState_cfgOutBe (s : State) : (flushState s).cfgOutBe = s.cfgOutBe := rfl
@[simp] theorem flushState_fault (s : State) : (flushState s).fault = s.fault := rfl
@[simp] theorem flushState_burstActive (s : State) : (flushState s).burstActive = false := rfl
@[simp] theorem flushState_cap (s : State) : (flushState s).cap = Config.freeCap s.draws := rfl
@[simp] theorem flushState_offset (s : State) : (flushState s).offset = Config.freeOffset s.draws := rfl
@[simp] theorem flushState_burstPts (s : State) : (flushState s).burstPts = tsBits s.params (Config.freePts s.draws) := rfl
@[simp] theorem flushState_burstDts (s : State) : (flushState s).burstDts = tsBits s.params (Config.freeDts s.draws) := rfl
@[simp] theorem flushState_burstNSamples (s : State) : (flushState s).burstNSamples = Config.freeNSamples s.draws := rfl
@[simp] theorem flushState_buf (s : State) : (flushState s).buf = [] := rfl
@[simp] theorem flushState_eac3Blocks (s : State) : (flushState s).eac3Blocks = 0 := rfl
@[simp] theorem flushState_trueHdIdx (s : State) : (flushState s).trueHdIdx = 0 := rfl
@[simp] theorem flushState_draws (s : State) : (flushState s).draws = s.draws + 1 := rfl

/-! ### A refused micro-operation -/

@[simp] theorem rejectMicro_params (s : State) : (rejectMicro s).params = s.params := rfl
@[simp] theorem rejectMicro_input (s : State) : (rejectMicro s).input = s.input := rfl
@[simp] theorem rejectMicro_bufAvail (s : State) : (rejectMicro s).bufAvail = s.bufAvail := rfl
@[simp] theorem rejectMicro_rsp (s : State) : (rejectMicro s).rsp = s.rsp := rfl
@[simp] theorem rejectMicro_out (s : State) : (rejectMicro s).out = s.out := rfl
@[simp] theorem rejectMicro_wres (s : State) : (rejectMicro s).wres = some .rejected := rfl
@[simp] theorem rejectMicro_configured (s : State) : (rejectMicro s).configured = s.configured := rfl
@[simp] theorem rejectMicro_cfgCodec (s : State) : (rejectMicro s).cfgCodec = s.cfgCodec := rfl
@[simp] theorem rejectMicro_cfgOutBe (s : State) : (rejectMicro s).cfgOutBe = s.cfgOutBe := rfl
@[simp] theorem rejectMicro_fault (s : State) : (rejectMicro s).fault = s.fault := rfl
@[simp] theorem rejectMicro_burstActive (s : State) : (rejectMicro s).burstActive = s.burstActive := rfl
@[simp] theorem rejectMicro_cap (s : State) : (rejectMicro s).cap = s.cap := rfl
@[simp] theorem rejectMicro_offset (s : State) : (rejectMicro s).offset = s.offset := rfl
@[simp] theorem rejectMicro_burstPts (s : State) : (rejectMicro s).burstPts = s.burstPts := rfl
@[simp] theorem rejectMicro_burstDts (s : State) : (rejectMicro s).burstDts = s.burstDts := rfl
@[simp] theorem rejectMicro_burstNSamples (s : State) : (rejectMicro s).burstNSamples = s.burstNSamples := rfl
@[simp] theorem rejectMicro_buf (s : State) : (rejectMicro s).buf = s.buf := rfl
@[simp] theorem rejectMicro_eac3Blocks (s : State) : (rejectMicro s).eac3Blocks = s.eac3Blocks := rfl
@[simp] theorem rejectMicro_trueHdIdx (s : State) : (rejectMicro s).trueHdIdx = s.trueHdIdx := rfl
@[simp] theorem rejectMicro_draws (s : State) : (rejectMicro s).draws = s.draws := rfl

/-! ### Taking a request -/

@[simp] theorem accept_params (a : Bool) (r : List Input) (s : State) : (accept a r s).params = s.params := rfl
@[simp] theorem accept_input (a : Bool) (r : List Input) (s : State) : (accept a r s).input = r := rfl
@[simp] theorem accept_bufAvail (a : Bool) (r : List Input) (s : State) : (accept a r s).bufAvail = a := rfl
@[simp] theorem accept_rsp (a : Bool) (r : List Input) (s : State) : (accept a r s).rsp = none := rfl
@[simp] theorem accept_out (a : Bool) (r : List Input) (s : State) : (accept a r s).out = none := rfl
@[simp] theorem accept_wres (a : Bool) (r : List Input) (s : State) : (accept a r s).wres = none := rfl
@[simp] theorem accept_configured (a : Bool) (r : List Input) (s : State) : (accept a r s).configured = s.configured := rfl
@[simp] theorem accept_cfgCodec (a : Bool) (r : List Input) (s : State) : (accept a r s).cfgCodec = s.cfgCodec := rfl
@[simp] theorem accept_cfgOutBe (a : Bool) (r : List Input) (s : State) : (accept a r s).cfgOutBe = s.cfgOutBe := rfl
@[simp] theorem accept_fault (a : Bool) (r : List Input) (s : State) : (accept a r s).fault = s.fault := rfl
@[simp] theorem accept_burstActive (a : Bool) (r : List Input) (s : State) : (accept a r s).burstActive = s.burstActive := rfl
@[simp] theorem accept_cap (a : Bool) (r : List Input) (s : State) : (accept a r s).cap = s.cap := rfl
@[simp] theorem accept_offset (a : Bool) (r : List Input) (s : State) : (accept a r s).offset = s.offset := rfl
@[simp] theorem accept_burstPts (a : Bool) (r : List Input) (s : State) : (accept a r s).burstPts = s.burstPts := rfl
@[simp] theorem accept_burstDts (a : Bool) (r : List Input) (s : State) : (accept a r s).burstDts = s.burstDts := rfl
@[simp] theorem accept_burstNSamples (a : Bool) (r : List Input) (s : State) : (accept a r s).burstNSamples = s.burstNSamples := rfl
@[simp] theorem accept_buf (a : Bool) (r : List Input) (s : State) : (accept a r s).buf = s.buf := rfl
@[simp] theorem accept_eac3Blocks (a : Bool) (r : List Input) (s : State) : (accept a r s).eac3Blocks = s.eac3Blocks := rfl
@[simp] theorem accept_trueHdIdx (a : Bool) (r : List Input) (s : State) : (accept a r s).trueHdIdx = s.trueHdIdx := rfl
@[simp] theorem accept_draws (a : Bool) (r : List Input) (s : State) : (accept a r s).draws = s.draws := rfl

/-! ### The `rst` input -/

@[simp] theorem hardReset_params (r : List Input) (s : State) : (hardReset r s).params = s.params := rfl
@[simp] theorem hardReset_input (r : List Input) (s : State) : (hardReset r s).input = r := rfl
@[simp] theorem hardReset_bufAvail (r : List Input) (s : State) : (hardReset r s).bufAvail = s.bufAvail := rfl
@[simp] theorem hardReset_rsp (r : List Input) (s : State) : (hardReset r s).rsp = State.reset.rsp := rfl
@[simp] theorem hardReset_out (r : List Input) (s : State) : (hardReset r s).out = State.reset.out := rfl
@[simp] theorem hardReset_wres (r : List Input) (s : State) : (hardReset r s).wres = State.reset.wres := rfl
@[simp] theorem hardReset_configured (r : List Input) (s : State) : (hardReset r s).configured = State.reset.configured := rfl
@[simp] theorem hardReset_cfgCodec (r : List Input) (s : State) : (hardReset r s).cfgCodec = State.reset.cfgCodec := rfl
@[simp] theorem hardReset_cfgOutBe (r : List Input) (s : State) : (hardReset r s).cfgOutBe = State.reset.cfgOutBe := rfl
@[simp] theorem hardReset_fault (r : List Input) (s : State) : (hardReset r s).fault = State.reset.fault := rfl
@[simp] theorem hardReset_burstActive (r : List Input) (s : State) : (hardReset r s).burstActive = State.reset.burstActive := rfl
@[simp] theorem hardReset_cap (r : List Input) (s : State) : (hardReset r s).cap = State.reset.cap := rfl
@[simp] theorem hardReset_offset (r : List Input) (s : State) : (hardReset r s).offset = State.reset.offset := rfl
@[simp] theorem hardReset_burstPts (r : List Input) (s : State) : (hardReset r s).burstPts = State.reset.burstPts := rfl
@[simp] theorem hardReset_burstDts (r : List Input) (s : State) : (hardReset r s).burstDts = State.reset.burstDts := rfl
@[simp] theorem hardReset_burstNSamples (r : List Input) (s : State) : (hardReset r s).burstNSamples = State.reset.burstNSamples := rfl
@[simp] theorem hardReset_buf (r : List Input) (s : State) : (hardReset r s).buf = State.reset.buf := rfl
@[simp] theorem hardReset_eac3Blocks (r : List Input) (s : State) : (hardReset r s).eac3Blocks = State.reset.eac3Blocks := rfl
@[simp] theorem hardReset_trueHdIdx (r : List Input) (s : State) : (hardReset r s).trueHdIdx = State.reset.trueHdIdx := rfl
@[simp] theorem hardReset_draws (r : List Input) (s : State) : (hardReset r s).draws = s.draws := rfl

/-! ### FAULT -/

@[simp] theorem setFault_writerFault (s : State) : setFault .writerFault s = { s with fault := true } := rfl

theorem setFault_other (s : State) (k : ErrorKind) (h : k ≠ .writerFault) : setFault k s = s := if_neg h

@[simp] theorem raiseError_writerFault (s : State) :
    raiseError .writerFault s = { s with fault := true, rsp := some (.error .writerFault) } := rfl

theorem raiseError_other (s : State) (k : ErrorKind) (h : k ≠ .writerFault) :
    raiseError k s = respond (.error k) (flushState s) := if_neg h

end Sys2Proof.Machine
end

