-- ==== Sys2Proof/Laws/Writer.lean ====
section
/-! SUPPORT. What each writer micro-operation does, once: when it is performed and with which state, when it raises, and
what a read of BUF sees afterwards. -/

namespace Sys2Proof.Machine

@[simp] theorem Micro.andThen_done (s : State) (k : State → Micro) : (Micro.done s).andThen k = k s := rfl

@[simp] theorem Micro.andThen_raise (e : ErrorKind) (s : State) (k : State → Micro) :
    (Micro.raise e s).andThen k = .raise e s := rfl

@[simp] theorem Micro.andThen_unwritten (k : State → Micro) : Micro.unwritten.andThen k = .unwritten := rfl

/-- ALLOC with a buffer available (R131). -/
theorem allocBurst_ready {s : State} (ha : s.burstActive = false) (hb : s.bufAvail = true) (cap : Half)
    (pts dts : Timestamp) (ns : Word) :
    allocBurst cap pts dts ns s = .done
      { s with
        cap := cap, offset := 8, burstPts := tsBits s.params pts, burstDts := tsBits s.params dts, burstNSamples := ns
        buf := s.buf.erase 0 cap.toNat, burstActive := true } := by
  rw [allocBurst, if_neg (by simp [ha]), if_neg (by simp [hb])]
  rfl

/-- ALLOC with a burst in progress or no buffer (R131). -/
theorem allocBurst_refused {s : State} (h : s.burstActive = true ∨ s.bufAvail = false) (cap : Half)
    (pts dts : Timestamp) (ns : Word) : allocBurst cap pts dts ns s = .raise .allocationFailure s := by
  unfold allocBurst
  by_cases ha : s.burstActive = true
  · rw [if_pos ha]
  · rw [if_neg ha, if_pos (h.resolve_left ha)]

/-- WRITE with room for the promoted word (R132). -/
theorem writeBytes_room {s : State} {data : List Byte} (ha : s.burstActive = true)
    (hr : s.offset.toNat + imageSize data.length ≤ s.cap.toNat) (srcBe : Bool) :
    writeBytes data srcBe s = .done
      { s with
        buf := s.buf.write s.offset.toNat (wireBytes (srcBe != s.cfgOutBe) s.cfgOutBe data)
        offset := BitVec.ofNat 16 (s.offset.toNat + imageSize data.length) } := by
  rw [writeBytes, writeNeed_eq_imageSize, if_neg (by simp [ha]), if_neg (by omega)]

/-- A contract violation of WRITE (R140). -/
theorem writeBytes_violation {s : State} {data : List Byte}
    (h : s.burstActive = false ∨ s.cap.toNat < s.offset.toNat + imageSize data.length) (srcBe : Bool) :
    writeBytes data srcBe s = .raise .writerFault s := by
  rw [writeBytes, writeNeed_eq_imageSize]
  by_cases ha : s.burstActive = false
  · rw [if_pos ha]
  · rw [if_neg ha, if_pos (h.resolve_left ha)]

/-- PAD with room (R133). -/
theorem padZeros_room {s : State} {size : Nat} (ha : s.burstActive = true)
    (hr : s.offset.toNat + size ≤ s.cap.toNat) :
    padZeros size s = .done
      { s with
        buf := s.buf.write s.offset.toNat (List.replicate size 0)
        offset := BitVec.ofNat 16 (s.offset.toNat + size) } := by
  rw [padZeros, if_neg (by simp [ha]), if_neg (by omega)]

/-- A contract violation of PAD (R140). -/
theorem padZeros_violation {s : State} {size : Nat}
    (h : s.burstActive = false ∨ s.cap.toNat < s.offset.toNat + size) :
    padZeros size s = .raise .writerFault s := by
  rw [padZeros]
  by_cases ha : s.burstActive = false
  · rw [if_pos ha]
  · rw [if_neg ha, if_pos (h.resolve_left ha)]

/-- REWIND (R135). -/
theorem rewindBurst_active {s : State} (ha : s.burstActive = true) :
    rewindBurst s = .done { s with offset := 0 } := by
  rw [rewindBurst, if_neg (by simp [ha])]

theorem rewindBurst_violation {s : State} (ha : s.burstActive = false) :
    rewindBurst s = .raise .writerFault s := by
  rw [rewindBurst, if_pos ha]

/-- OFFSET as a number after it has advanced within CAP. -/
theorem offset_toNat {s : State} {n : Nat} (h : n ≤ s.cap.toNat) : (BitVec.ofNat 16 n).toNat = n := by
  rw [BitVec.toNat_ofNat]
  omega

/-- What a read sees after a WRITE's bytes (R62, R64, R132). -/
theorem read_write_image (m : Memory) (off a : Nat) (srcBe be : Bool) (data : List Byte) :
    (m.write off (wireBytes (srcBe != be) be data)).read a =
      if off ≤ a ∧ a < off + imageSize data.length then some (imageByte srcBe be data (a - off)) else m.read a := by
  rw [Memory.read_write, wireBytes_length]
  by_cases h : off ≤ a ∧ a < off + imageSize data.length
  · rw [if_pos h, if_pos h, wireBytes_get _ _ _ _ (by omega)]
  · rw [if_neg h, if_neg h]

/-- What a read sees after zeros were stored (R133, R139). -/
theorem read_write_zeros (m : Memory) (off n a : Nat) :
    (m.write off (List.replicate n 0)).read a = if off ≤ a ∧ a < off + n then some 0 else m.read a := by
  rw [Memory.read_write, List.length_replicate]
  by_cases h : off ≤ a ∧ a < off + n
  · rw [if_pos h, if_pos h, List.getElem?_replicate, if_pos (by omega)]
  · rw [if_neg h, if_neg h]

/-- BUF as FINALIZE leaves it (R134, R138, R139). -/
theorem read_finalImage {s : State} (h : s.offset.toNat ≤ s.cap.toNat) (dt : Half) (mult : BitVec 4) (a : Nat) :
    (finalImage dt mult s).read a =
      if s.offset.toNat ≤ a ∧ a < s.cap.toNat then some 0
      else if dt ≠ 0 ∧ a < 8 then
        (preambleBytes s.cfgOutBe dt.toNat ((s.offset.toNat + 65528) * mult.toNat % 65536))[a]?
      else s.buf.read a := by
  have e : s.offset.toNat + (s.cap.toNat - s.offset.toNat) = s.cap.toNat := by omega
  rw [finalImage, read_write_zeros, e]
  by_cases h1 : s.offset.toNat ≤ a ∧ a < s.cap.toNat
  · rw [if_pos h1, if_pos h1]
  · rw [if_neg h1, if_neg h1]
    by_cases h2 : dt = 0
    · rw [if_pos h2, if_neg (by simp [h2])]
    · rw [if_neg h2, read_stampHeader, preamble_words, lengthField_toNat]
      by_cases h3 : a < 8
      · rw [if_pos h3, if_pos ⟨h2, h3⟩]
      · rw [if_neg h3, if_neg (by tauto)]

/-- FINALIZE keeps the canonical form. -/
theorem wf_finalImage {s : State} (h : s.buf.wf) (dt : Half) (mult : BitVec 4) : (finalImage dt mult s).wf := by
  refine Memory.wf_write ?_ ?_
  · split
    · exact h
    · exact wf_stampHeader _ _ _ h
  · rw [List.length_replicate]
    omega

/-- FINALIZE of a burst whose bytes were all written (R134, R141): it emits exactly what BUF then holds. -/
theorem finalizeBurst_emits {s : State} (hw : s.buf.wf) (ha : s.burstActive = true) (ho : s.offset.toNat ≤ s.cap.toNat)
    (dt : Half) (mult : BitVec 4) (hb : ∀ a < s.offset.toNat, dt = 0 ∨ 8 ≤ a → (s.buf.read a).isSome = true) :
    ∃ data, finalizeBurst dt mult s = .done
        { s with
          buf := finalImage dt mult s, offset := s.cap
          out := some
            { len := s.cap, data := data, nsamples := s.burstNSamples, pts := s.burstPts, dts := s.burstDts }
          burstActive := false } ∧
      data.length = s.cap.toNat ∧ ∀ a < s.cap.toNat, data[a]? = (finalImage dt mult s).read a := by
  have hs := (wf_finalImage hw dt mult).1
  obtain ⟨data, hd⟩ := Memory.readRange_of_written hs (a := 0) (n := s.cap.toNat) (fun i hi => by
    rw [Nat.zero_add, read_finalImage ho]
    by_cases h1 : s.offset.toNat ≤ i ∧ i < s.cap.toNat
    · rw [if_pos h1]
      rfl
    · rw [if_neg h1]
      by_cases h2 : dt ≠ 0 ∧ i < 8
      · rw [if_pos h2, List.getElem?_eq_getElem (by simpa using h2.2)]
        rfl
      · rw [if_neg h2]
        refine hb i (by omega) ?_
        by_cases h3 : dt = 0
        · exact .inl h3
        · exact .inr (Nat.le_of_not_lt fun h4 => h2 ⟨h3, h4⟩))
  obtain ⟨hl, hr⟩ := (Memory.readRange_eq_some hs _ _ _).1 hd
  refine ⟨data, ?_, hl, fun a h => ?_⟩
  · rw [finalizeBurst, if_neg (by simp [ha]), hd]
  · rw [← hr a h, Nat.zero_add]

/-- FINALIZE reads a byte never written (R36, R141). -/
theorem finalizeBurst_unwritten {s : State} (hw : s.buf.wf) (ha : s.burstActive = true)
    (ho : s.offset.toNat ≤ s.cap.toNat) (dt : Half) (mult : BitVec 4) {a : Nat} (hb : a < s.offset.toNat)
    (hd : dt = 0 ∨ 8 ≤ a) (hn : s.buf.read a = none) : finalizeBurst dt mult s = .unwritten := by
  have hs := (wf_finalImage hw dt mult).1
  rw [finalizeBurst, if_neg (by simp [ha])]
  cases hr : (finalImage dt mult s).readRange 0 s.cap.toNat with
  | none => rfl
  | some data =>
    obtain ⟨hl, hg⟩ := (Memory.readRange_eq_some hs _ _ _).1 hr
    have := hg a (by omega)
    rw [Nat.zero_add, read_finalImage ho, if_neg (by omega),
      if_neg (fun h => hd.elim h.1 (by omega)), hn,
      List.getElem?_eq_getElem (by omega)] at this
    simp at this

theorem finalizeBurst_violation {s : State} (ha : s.burstActive = false) (dt : Half) (mult : BitVec 4) :
    finalizeBurst dt mult s = .raise .writerFault s := by
  rw [finalizeBurst, if_pos ha]

/-- The burst of an aggregate, in progress or opened (R131, R170). -/
theorem eac3Open_opened {s : State} (h : s.burstActive = true ∨ s.bufAvail = true) (f : Frame) :
    eac3Open f s = .done (opened s.params.eac3Capacity s.params.eac3NSamples f s) := by
  unfold eac3Open opened
  by_cases ha : s.burstActive = true
  · rw [if_pos ha, if_pos ha]
  · rw [if_neg ha, if_neg ha, allocBurst_ready (by simpa using ha) (h.resolve_left ha)]

/-- The super-frame in progress, or opened (R131, R190). -/
theorem trueHdOpen_opened {s : State} (h : s.burstActive = true ∨ s.bufAvail = true) (f : Frame) :
    trueHdOpen f s = .done (opened 61440 3840 f s) := by
  unfold trueHdOpen opened
  by_cases ha : s.burstActive = true
  · rw [if_pos ha, if_pos ha]
  · rw [if_neg ha, if_neg ha, allocBurst_ready (by simpa using ha) (h.resolve_left ha)]
    rfl

/-- A burst that is in progress is the one in which the frame is written. -/
theorem opened_active {s : State} (h : s.burstActive = true) (cap : Half) (ns : Word) (f : Frame) :
    opened cap ns f s = s := by
  rw [opened, if_pos h]

@[simp] theorem opened_burstActive (cap : Half) (ns : Word) (f : Frame) (s : State) :
    (opened cap ns f s).burstActive = true := by
  unfold opened
  split
  · assumption
  · rfl

/-- Opening a burst keeps everything outside the writer's registers. -/
theorem opened_keeps (cap : Half) (ns : Word) (f : Frame) (s : State) :
    (opened cap ns f s).params = s.params ∧ (opened cap ns f s).cfgOutBe = s.cfgOutBe ∧
    (opened cap ns f s).cfgCodec = s.cfgCodec ∧ (opened cap ns f s).configured = s.configured ∧
    (opened cap ns f s).fault = s.fault ∧ (opened cap ns f s).eac3Blocks = s.eac3Blocks ∧
    (opened cap ns f s).trueHdIdx = s.trueHdIdx ∧ (opened cap ns f s).out = s.out ∧
    (opened cap ns f s).input = s.input ∧ (opened cap ns f s).draws = s.draws := by
  unfold opened
  split <;> simp

/-- A flush forgets whether a burst was opened first. -/
theorem flushState_opened (cap : Half) (ns : Word) (f : Frame) (s : State) :
    flushState (opened cap ns f s) = flushState s := by
  unfold opened
  split <;> rfl

/-- FLUSH_STATE leaves a flushed state (R212). -/
theorem flushState_flushed (s : State) : FlushedFrom s (flushState s) := ⟨_, _, _, _, _, rfl⟩

/-- MemRead's bytes in the emitted record stay within CAP. -/
theorem opened_wf {s : State} (h : s.buf.wf) (cap : Half) (ns : Word) (f : Frame) : (opened cap ns f s).buf.wf := by
  unfold opened
  split
  · exact h
  · exact Memory.wf_erase h _ _

end Sys2Proof.Machine
end

