-- ==== Sys2Proof/Laws/Encapsulators.lean ====
section
/-! SUPPORT. What the parts of the four encapsulators do: which frames are accepted, what a slot stores, what a WRITE and
a FINALIZE emit. -/

namespace Sys2Proof.Machine

/-- R161. -/
theorem ac3LooksWrong_iff (f : Frame) : ac3LooksWrong f = true ↔ (f.nsamples ≠ 1536 ∨ f.len < 6 ∨ 6144 < f.len) := by
  unfold ac3LooksWrong
  simp only [Bool.or_eq_true, decide_eq_true_iff, bne_iff_ne, or_assoc]
  rfl

/-- R160's tests, as the statements speak of them. -/
theorem ac3Size_iff (p : Params) (f : Frame) (size : Nat) :
    ac3Size p f = some size ∧ 6 ≤ f.len ∧ size + 8 ≤ 6144 ↔ Ac3Accepts p f size := by
  unfold Ac3Accepts ac3Size
  by_cases h : ac3LooksWrong f = true
  · have h' := (ac3LooksWrong_iff f).1 h
    rw [if_pos h]
    cases hr : a52Reply p f.data with
    | none =>
      simp
      intro h3
      rcases h' with h' | h'
      · exact absurd h3 h'
      · omega
    | some r =>
      simp only [Option.some.injEq]
      by_cases h2 : r.isEnhanced = true ∨ f.len < r.frameSize.toNat
      · rw [if_pos h2]
        simp
        intro h3
        exfalso
        rcases h3 with h3 | ⟨_, h3⟩
        · have := h3.1
          rcases h' with h' | h'
          · exact h' this
          · omega
        · rcases h2 with h2 | h2
          · simp [h2] at h3
          · omega
      · rw [if_neg h2]
        push Not at h2
        have : r.isEnhanced = false := by simpa using h2.1
        constructor
        · rintro ⟨h3, h4⟩
          simp at h3
          exact ⟨.inr ⟨h', r, rfl, this, h2.2, h3.symm⟩, h4⟩
        · rintro ⟨h3, h4⟩
          refine ⟨?_, h4⟩
          rcases h3 with h3 | ⟨_, r', rfl, _, _, h3⟩
          · exfalso
            rcases h' with h' | h'
            · exact h' h3.1
            · omega
          · rw [h3]
  · have h' := mt (ac3LooksWrong_iff f).2 h
    push Not at h'
    rw [if_neg h]
    constructor
    · rintro ⟨h3, h4⟩
      simp at h3
      refine ⟨.inl ⟨h'.1, h'.2.1, h'.2.2, h3.symm⟩, h4⟩
    · rintro ⟨h3, h4⟩
      refine ⟨?_, h4⟩
      rcases h3 with h3 | ⟨h3, _⟩
      · rw [h3.2.2.2]
      · exfalso
        rcases h3 with h3 | h3
        · exact h3 h'.1
        · omega

/-- FR_DATA[0:n] has n bytes. -/
theorem payload_length {f : Frame} {n : Nat} (h : n ≤ f.len) : (payload f n).length = n := by
  simpa [payload] using h

/-- A WRITE and the FINALIZE after it (with the counters set between them): what the emitted record holds. -/
theorem write_finalize {s : State} (hw : s.buf.wf) (ha : s.burstActive = true) (dt : Half) (mult : BitVec 4)
    (be : Bool) (data : List Byte) (hr : s.offset.toNat + imageSize data.length ≤ s.cap.toNat) (h8 : dt = 0 ∨ 8 ≤ s.offset.toNat)
    (hb : ∀ a < s.offset.toNat, dt = 0 ∨ 8 ≤ a → (s.buf.read a).isSome = true) (e : Word) (i : Fin 24) :
    ∃ t m out, writeBytes data be s = .done t ∧
      finalizeBurst dt mult { t with eac3Blocks := e, trueHdIdx := i } = .done { s with
          buf := m, offset := s.cap, eac3Blocks := e, trueHdIdx := i
          out := some { len := s.cap, data := out, nsamples := s.burstNSamples, pts := s.burstPts, dts := s.burstDts }
          burstActive := false } ∧ t.eac3Blocks = s.eac3Blocks ∧ t.trueHdIdx = s.trueHdIdx ∧
      out.length = s.cap.toNat ∧
      (dt ≠ 0 → out.take 8 =
        preambleBytes s.cfgOutBe dt.toNat ((s.offset.toNat - 8 + imageSize data.length) * mult.toNat % 65536)) ∧
      (∀ a < s.offset.toNat, dt = 0 ∨ 8 ≤ a → out[a]? = s.buf.read a) ∧
      (∀ j < imageSize data.length, out[s.offset.toNat + j]? = some (imageByte be s.cfgOutBe data j)) ∧
      (∀ j < s.cap.toNat, s.offset.toNat + imageSize data.length ≤ j → out[j]? = some 0) := by
  have hc := s.cap.isLt
  obtain ⟨t, ht⟩ : ∃ t, t = { s with
        buf := s.buf.write s.offset.toNat (wireBytes (be != s.cfgOutBe) s.cfgOutBe data)
        offset := BitVec.ofNat 16 (s.offset.toNat + imageSize data.length), eac3Blocks := e, trueHdIdx := i } :=
    ⟨_, rfl⟩
  have hto : t.offset.toNat = s.offset.toNat + imageSize data.length := by rw [ht]; exact offset_toNat hr
  have htb : ∀ a, t.buf.read a =
      if s.offset.toNat ≤ a ∧ a < s.offset.toNat + imageSize data.length then
        some (imageByte be s.cfgOutBe data (a - s.offset.toNat))
      else s.buf.read a := by
    intro a; rw [ht]; exact read_write_image ..
  have htw : t.buf.wf := by rw [ht]; exact Memory.wf_write hw (by rw [wireBytes_length]; omega)
  have htc : t.cap = s.cap := by rw [ht]
  have htc' : t.cap.toNat = s.cap.toNat := by rw [htc]
  have hte : t.cfgOutBe = s.cfgOutBe := by rw [ht]
  obtain ⟨out, he, hl, hd⟩ := finalizeBurst_emits (s := t) htw (by rw [ht]; exact ha) (by omega) dt mult (by
    intro a h1 h2
    rw [htb]
    split
    · rfl
    · exact hb a (by omega) h2)
  have hd' : ∀ a < s.cap.toNat, out[a]? = if t.offset.toNat ≤ a ∧ a < t.cap.toNat then some 0
      else if dt ≠ 0 ∧ a < 8 then
        (preambleBytes t.cfgOutBe dt.toNat ((t.offset.toNat + 65528) * mult.toNat % 65536))[a]?
      else t.buf.read a := fun a h => by rw [hd a (by rw [htc]; exact h), read_finalImage (by omega)]
  refine ⟨_, finalImage dt mult t, out, writeBytes_room ha hr be, ?_, rfl, rfl, by rw [hl, htc], ?_, ?_, ?_, ?_⟩
  · rw [← ht, he, ht]
  · intro hdt
    have hx : (t.offset.toNat + 65528) * mult.toNat % 65536 =
        (s.offset.toNat - 8 + imageSize data.length) * mult.toNat % 65536 := by
      have h9 : 8 ≤ s.offset.toNat := h8.resolve_left hdt
      have : t.offset.toNat + 65528 = (s.offset.toNat - 8 + imageSize data.length) + 65536 := by omega
      rw [this, Nat.add_mul]
      simp
    rw [hx, hte] at hd'
    apply List.ext_getElem?
    intro a
    rw [List.getElem?_take]
    by_cases h9 : a < 8
    · have := h8.resolve_left hdt
      rw [if_pos h9, hd' a (by omega), if_neg (by omega), if_pos ⟨hdt, h9⟩]
    · rw [if_neg h9, List.getElem?_eq_none]
      simp; omega
  · intro a h1 h2
    rw [hd' a (by omega), if_neg (by omega), if_neg (fun h => h2.elim h.1 (by omega)), htb, if_neg (by omega)]
  · intro j hj
    rw [hd' _ (by omega), if_neg (by omega), if_neg (by rintro ⟨h3, h4⟩; have := h8.resolve_left h3; omega), htb,
      if_pos (by omega)]
    congr 2
    omega
  · intro j h1 h2
    rw [hd' _ h1, if_pos (by omega)]

/-- The three DTS data types (R181). -/
theorem dtDts_of_count (ns : Nat) (h : ns = 512 ∨ ns = 1024 ∨ ns = 2048) :
    ∃ dt : Half, dtDts ns = some dt ∧ dt ≠ 0 ∧
      dt.toNat = (if ns = 512 then 0x0B else if ns = 1024 then 0x0C else 0x0D) := by
  rcases h with rfl | rfl | rfl
  · exact ⟨0x0B, rfl, by decide, rfl⟩
  · exact ⟨0x0C, rfl, by decide, rfl⟩
  · exact ⟨0x0D, rfl, by decide, rfl⟩

/-- Any other sample count has none (R181). -/
theorem dtDts_of_other (ns : Nat) (h : ¬ (ns = 512 ∨ ns = 1024 ∨ ns = 2048)) : dtDts ns = none := by
  push Not at h
  unfold dtDts
  rw [if_neg h.1, if_neg h.2.1, if_neg h.2.2]

/-- The size and sample count of R180. -/
theorem dtsSize_iff (p : Params) (f : Frame) (size ns : Nat) :
    dtsSize p f = some (size, ns) ↔ ((f.nsamples ≠ 0 ∧ size = f.len ∧ ns = f.nsamples.toNat) ∨
    (f.nsamples = 0 ∧ ∃ h, dtsReply p f.data = some h ∧ h.frameSize.toNat ≤ f.len ∧ size = h.frameSize.toNat ∧
      ns = h.sampleCount.toNat)) := by
  unfold dtsSize
  by_cases h : f.nsamples = 0
  · rw [if_pos h]
    cases hr : dtsReply p f.data with
    | none => simp [h]
    | some r =>
      simp only
      by_cases h2 : f.len < r.frameSize.toNat
      · rw [if_pos h2]
        simp only [h, reduceCtorEq, false_iff]
        rintro (h3 | ⟨_, r', h5, h4, _⟩)
        · exact h3.1 rfl
        · cases h5; omega
      · rw [if_neg h2]
        constructor
        · intro h3
          simp at h3
          exact .inr ⟨h, r, rfl, by omega, h3.1.symm, h3.2.symm⟩
        · rintro (h3 | ⟨_, r', h5, h4, h6, h7⟩)
          · exact absurd h h3.1
          · cases h5; simp [h6, h7]
  · rw [if_neg h]
    constructor
    · intro h3
      simp at h3
      exact .inl ⟨h, h3.1.symm, h3.2.symm⟩
    · rintro (h3 | h3)
      · simp [h3.2.1, h3.2.2]
      · exact absurd h3.1 h

/-- No more bytes are written than the frame has. -/
theorem DtsAccepts.size_le {p : Params} {f : Frame} {size ns : Nat} (h : DtsAccepts p f size ns) : size ≤ f.len := by
  rcases h.1 with h | ⟨_, _, _, h4, h5, _⟩ <;> omega

/-- The burst a frame is written to has a preamble and is written up to OFFSET (R35, R131). -/
theorem opened_burst {s : State} {cap : Half} {ns : Word} {f : Frame}
    (h8 : s.burstActive = true → 8 ≤ s.offset.toNat ∧ s.offset.toNat ≤ s.cap.toNat ∧
      ∀ a < s.offset.toNat, 8 ≤ a → (s.buf.read a).isSome = true) (hc : 8 ≤ cap.toNat) :
    8 ≤ (opened cap ns f s).offset.toNat ∧ (opened cap ns f s).offset.toNat ≤ (opened cap ns f s).cap.toNat ∧
    ∀ a < (opened cap ns f s).offset.toNat, 8 ≤ a → ((opened cap ns f s).buf.read a).isSome = true := by
  unfold opened
  split
  · exact h8 ‹_›
  · have : (8 : Half).toNat = 8 := rfl
    simp only [this]
    exact ⟨by omega, hc, by intros; omega⟩

/-- An aggregate in a legal state (R170, R172, R174). -/
theorem eac3_opened_facts {s : State} {f : Frame} (hl : Legal s) (hf : s.fault = false) (hc : s.cfgCodec = .eac3) :
    let o := opened s.params.eac3Capacity s.params.eac3NSamples f s
    8 ≤ o.offset.toNat ∧ o.offset.toNat ≤ o.cap.toNat ∧ (∀ a < o.offset.toNat, 8 ≤ a → (o.buf.read a).isSome = true) ∧
    o.buf.wf ∧ o.cap = s.params.eac3Capacity ∧ o.offset.toNat % 2 = 0 ∧ o.cap.toNat % 4 = 0 := by
  obtain ⟨⟨hp, hw, hm⟩, hs⟩ := hl
  obtain ⟨h1, h2, h3, h4, h5⟩ := hs hf
  obtain ⟨a1, a2, a3⟩ := opened_burst (s := s) (cap := s.params.eac3Capacity) (ns := s.params.eac3NSamples) (f := f)
    (fun h => (h1 h).2) (by have := hp.1; omega)
  refine ⟨a1, a2, a3, opened_wf hw _ _ _, ?_, ?_, ?_⟩
  · unfold opened; split
    · exact (h4 ‹_› hc).2.2.1
    · rfl
  · unfold opened; split
    · exact (h4 ‹_› hc).2.2.2
    · show (8 : Half).toNat % 2 = 0
      decide
  · have := hp.2.2.1
    unfold opened; split
    · rw [(h4 ‹_› hc).2.2.1]; exact this
    · exact this

/-- The cadence (R193). -/
theorem slotStart_bounds {i : Nat} (h : i < 24) (h0 : i ≠ 0) : 2560 * i - 4 ≤ slotStart i ∧ slotStart i ≤ 2560 * i := by
  unfold slotStart; split_ifs <;> omega

/-- A super-frame in a legal state (R190, R193, R194). -/
theorem trueHd_opened_facts {s : State} {f : Frame} (hl : Legal s) (hf : s.fault = false)
    (hc : s.cfgCodec = .mlp ∨ s.cfgCodec = .truehd) :
    let o := opened 61440 3840 f s
    8 ≤ o.offset.toNat ∧ (∀ a < o.offset.toNat, 8 ≤ a → (o.buf.read a).isSome = true) ∧
    o.buf.wf ∧ o.cap = 61440 ∧ o.eac3Blocks = 0 ∧ slotStart s.trueHdIdx.val ≤ o.offset.toNat ∧
    o.offset.toNat ≤ slotStart s.trueHdIdx.val + s.trueHdIdx.val ∧ (s.burstActive = true → s.trueHdIdx.val ≠ 0) ∧
    (s.burstActive = false → s.trueHdIdx = 0) := by
  obtain ⟨⟨hp, hw, hm⟩, hs⟩ := hl
  obtain ⟨h1, h2, h3, h4, h5⟩ := hs hf
  obtain ⟨a1, a2, a3⟩ := opened_burst (s := s) (cap := 61440) (ns := 3840) (f := f)
    (fun h => (h1 h).2) (by decide)
  refine ⟨a1, a3, opened_wf hw _ _ _, ?_, ?_, ?_, ?_, ?_, ?_⟩
  · unfold opened; split
    · exact (h5 ‹_› hc).2.1
    · rfl
  · rw [(opened_keeps _ _ _ _).2.2.2.2.2.1]
    by_cases ha : s.burstActive = true
    · exact (h5 ha hc).1
    · exact (h2 (by simpa using ha)).1
  · unfold opened; split
    · exact (h5 ‹_› hc).2.2.2.1
    · rw [(h2 (by simp_all)).2]; show slotStart 0 ≤ (8 : Half).toNat; decide
  · unfold opened; split
    · exact (h5 ‹_› hc).2.2.2.2
    · rw [(h2 (by simp_all)).2]; show (8 : Half).toNat ≤ slotStart 0 + 0; decide
  · intro ha; have := (h5 ha hc).2.2.1; omega
  · intro ha; exact (h2 ha).2

/-- The markers before a payload have an even number of bytes, at most 20 (R6). -/
theorem matMarker_length (p : Params) (n : Nat) : (matMarker p n).length % 2 = 0 ∧ (matMarker p n).length ≤ 20 := by
  unfold matMarker; split_ifs <;> simp

/-- The marker is written byte for byte, or there is none (R65, R190). -/
theorem slotMarker_done {s : State} (ha : s.burstActive = true)
    (hr : s.offset.toNat + (matMarker s.params s.trueHdIdx.val).length ≤ s.cap.toNat) :
    slotMarker s = .done { s with
      buf := s.buf.write s.offset.toNat (matMarker s.params s.trueHdIdx.val)
      offset := BitVec.ofNat 16 (s.offset.toNat + (matMarker s.params s.trueHdIdx.val).length) } ∨
    (slotMarker s = .done s ∧ matMarker s.params s.trueHdIdx.val = []) := by
  unfold slotMarker writeMarker
  have he := (matMarker_length s.params s.trueHdIdx.val).1
  unfold matMarker at *
  split_ifs at * with h1 h2
  · left
    rw [writeBytes_room ha (by rw [imageSize_of_even he]; exact hr), imageSize_of_even he, bne_self_eq_false,
      wireBytes_verbatim _ _ he]
  · left
    rw [writeBytes_room ha (by rw [imageSize_of_even he]; exact hr), imageSize_of_even he, bne_self_eq_false,
      wireBytes_verbatim _ _ he]
  · right; exact ⟨rfl, rfl⟩

/-- What a read sees after the marker. -/
theorem slotMarker_stores {s : State} (ha : s.burstActive = true) (hw : s.buf.wf)
    (hr : s.offset.toNat + (matMarker s.params s.trueHdIdx.val).length ≤ s.cap.toNat) :
    ∃ m off, slotMarker s = .done { s with buf := m, offset := off } ∧
      off.toNat = s.offset.toNat + (matMarker s.params s.trueHdIdx.val).length ∧ m.wf ∧
      ∀ a, m.read a = if s.offset.toNat ≤ a ∧ a < s.offset.toNat + (matMarker s.params s.trueHdIdx.val).length
        then (matMarker s.params s.trueHdIdx.val)[a - s.offset.toNat]? else s.buf.read a := by
  have := s.cap.isLt
  rcases slotMarker_done ha hr with h | ⟨h, h'⟩
  · exact ⟨_, _, h, offset_toNat hr, Memory.wf_write hw (by omega), fun a => Memory.read_write ..⟩
  · refine ⟨s.buf, s.offset, h, by simp [h'], hw, fun a => ?_⟩
    rw [if_neg (by simp [h'])]

/-- R190's test as sums of naturals. -/
theorem slotRejects_iff (len : Nat) (i : Fin 24) (cap offset : Half) :
    slotRejects len i cap offset = true ↔
      2560 < len + matReserve i.val ∨ cap.toNat < offset.toNat + (2560 - matReserve i.val) := by
  have := matReserve_le i.val
  unfold slotRejects slotPad
  rw [slotReserve_eq, Bool.or_eq_true, decide_eq_true_iff, decide_eq_true_iff]
  simp only [trueHdSlot]
  omega

/-- The padding when it is not negative (R191). -/
theorem slotPad_toNat {len : Nat} {i : Fin 24} (h : len + matReserve i.val ≤ 2560) :
    (slotPad len i).toNat = 2560 - len - matReserve i.val := by
  unfold slotPad
  rw [slotReserve_eq]
  simp only [trueHdSlot]
  omega

/-- The payload and its padding, with room for both (R190). -/
theorem slotBody_stores {s : State} {f : Frame} (ha : s.burstActive = true) (hw : s.buf.wf)
    (h1 : f.len + matReserve s.trueHdIdx.val ≤ 2560)
    (h2 : s.offset.toNat + imageSize f.len + (2560 - f.len - matReserve s.trueHdIdx.val) ≤ s.cap.toNat) :
    ∃ m off, slotBody f s = slotEnd { s with buf := m, offset := off } ∧
      off.toNat = s.offset.toNat + imageSize f.len + (2560 - f.len - matReserve s.trueHdIdx.val) ∧ m.wf ∧
      ∀ a, m.read a =
        if s.offset.toNat ≤ a ∧ a < s.offset.toNat + imageSize f.len then
          some (imageByte true s.cfgOutBe f.data (a - s.offset.toNat))
        else if s.offset.toNat + imageSize f.len ≤ a ∧
            a < s.offset.toNat + imageSize f.len + (2560 - f.len - matReserve s.trueHdIdx.val) then some 0
        else s.buf.read a := by
  have hc := s.cap.isLt
  have hpl : payload f f.len = f.data := by simp [payload]
  have hle := le_imageSize f.len
  have hrm : s.offset.toNat + imageSize f.len ≤ s.cap.toNat := by omega
  have ho : (BitVec.ofNat 16 (s.offset.toNat + imageSize f.len)).toNat = s.offset.toNat + imageSize f.len :=
    offset_toNat hrm
  refine ⟨(s.buf.write s.offset.toNat (wireBytes (true != s.cfgOutBe) s.cfgOutBe f.data)).write
    (s.offset.toNat + imageSize f.len) (List.replicate (2560 - f.len - matReserve s.trueHdIdx.val) 0), _, ?_, offset_toNat h2, ?_, fun a => ?_⟩
  · unfold slotBody
    rw [if_neg (by rw [slotRejects_iff]; omega), hpl, writeBytes_room ha (by omega)]
    simp only [Micro.andThen_done]
    rw [slotPad_toNat h1, padZeros_room]
    · simp only [Micro.andThen_done]
      rw [ho]
    · exact ha
    · simp only [ho]; exact h2
  · exact Memory.wf_write (Memory.wf_write hw (by rw [wireBytes_length]; show _ + imageSize f.len ≤ _; omega))
      (by simp only [List.length_replicate]; omega)
  · rw [read_write_zeros, read_write_image]
    have : imageSize f.data.length = imageSize f.len := rfl
    split_ifs <;> first | rfl | omega

/-- The end of the super-frame (R190). -/
theorem slotEnd_last {s : State} (h : s.trueHdIdx = 23) :
    slotEnd s = (writeBytes s.params.matEnd.toList s.cfgOutBe s).andThen fun t =>
      (finalizeBurst dtTrueHd multBytes { t with trueHdIdx := 0 }).andThen fun u => .done (respond .complete u) := by
  rw [slotEnd, if_pos (by rw [h]; rfl)]
  rfl

/-- Any other index (R190). -/
theorem slotEnd_next {s : State} (h : s.trueHdIdx.val ≠ 23) :
    slotEnd s = .done (respond .pending { s with trueHdIdx := s.trueHdIdx + 1 }) := by
  rw [slotEnd, if_neg h]

/-- The payload and padding of index 23, in a legal state (R190, R191). -/
theorem last_slot_stores {s : State} {f : Frame} (hl : Legal s) (hf : s.fault = false)
    (hc : s.cfgCodec = .mlp ∨ s.cfgCodec = .truehd) (h23 : s.trueHdIdx.val = 23) (hlen : f.len ≤ 2536) :
    s.burstActive = true ∧ ∃ m off, processTrueHd f s = slotEnd { s with buf := m, offset := off } ∧
      off.toNat = s.offset.toNat + imageSize f.len + (2536 - f.len) ∧ m.wf ∧
      ∀ a, m.read a =
        if s.offset.toNat ≤ a ∧ a < s.offset.toNat + imageSize f.len then
          some (imageByte true s.cfgOutBe f.data (a - s.offset.toNat))
        else if s.offset.toNat + imageSize f.len ≤ a ∧
            a < s.offset.toNat + imageSize f.len + (2536 - f.len) then some 0
        else s.buf.read a := by
  obtain ⟨a1, a2, a3, a4, a5, a6, a7, a8, a9⟩ := trueHd_opened_facts (f := f) hl hf hc
  have ha : s.burstActive = true := by
    by_contra h
    have := a9 (by simpa using h)
    rw [this] at h23
    simp at h23
  rw [opened_active ha] at *
  have hcap : s.cap.toNat = 61440 := by rw [a4]; rfl
  have hsz : imageSize f.len ≤ f.len + 1 := by unfold imageSize; omega
  have hss : slotStart 23 = 58880 := rfl
  rw [h23, hss] at a6 a7
  have hk : matReserve s.trueHdIdx.val = 24 := by rw [h23]; rfl
  have hk' : 2560 - f.len - matReserve s.trueHdIdx.val = 2536 - f.len := by omega
  obtain ⟨m, off, e, q, w, r⟩ := slotBody_stores (s := s) (f := f) ha a3 (by omega) (by omega)
  rw [hk'] at q r
  refine ⟨ha, m, off, ?_, q, w, r⟩
  rw [processTrueHd, trueHdOpen_opened (.inl ha), opened_active ha]
  simp only [Micro.andThen_done]
  have : slotMarker s = .done s := by
    rw [slotMarker, if_neg (by omega), if_neg (by omega)]
  rw [this]
  simp only [Micro.andThen_done]
  exact e

end Sys2Proof.Machine
end

