-- ==== Sys2Proof/Laws/Micro.lean ====
section
/-! SUPPORT. What a sequence of micro-operations can end in, and what the four PROCESS operations never touch. -/

namespace Sys2Proof.Machine

/-- How a sequence ends: `D` of the state when it is performed, `R` of the error and the state when it raises. -/
def Micro.Ends (D : State → Prop) (R : ErrorKind → State → Prop) : Micro → Prop
  | .done s => D s
  | .raise k s => R k s
  | .unwritten => True

/-- Sequencing (R10). -/
theorem Micro.ends_andThen {P D : State → Prop} {R : ErrorKind → State → Prop} {m : Micro} {k : State → Micro}
    (hm : m.Ends P R) (hk : ∀ t, P t → (k t).Ends D R) : (m.andThen k).Ends D R := by
  cases m with
  | done s => exact hk s hm
  | raise e s => exact hm
  | unwritten => trivial

theorem Micro.ends_mono {P D : State → Prop} {Q R : ErrorKind → State → Prop} {m : Micro}
    (hm : m.Ends P Q) (h1 : ∀ t, P t → D t) (h2 : ∀ k t, Q k t → R k t) : m.Ends D R := by
  cases m with
  | done s => exact h1 s hm
  | raise e s => exact h2 e s hm
  | unwritten => trivial

/-- `t` differs from `s` at most in the elements a flush sets: the burst and the two counters (R212). -/
abbrev SameSession (s t : State) : Prop := flushState t = flushState s

/-- The elements a flush does not set agree. -/
theorem SameSession.fields {s t : State} (h : SameSession s t) :
    t.params = s.params ∧ t.input = s.input ∧ t.bufAvail = s.bufAvail ∧ t.rsp = s.rsp ∧ t.out = s.out ∧
    t.wres = s.wres ∧ t.configured = s.configured ∧ t.cfgCodec = s.cfgCodec ∧ t.cfgOutBe = s.cfgOutBe ∧
    t.fault = s.fault ∧ t.draws = s.draws := by
  have g : ∀ {α : Type} (field : State → α), field (flushState t) = field (flushState s) := fun field =>
    congrArg field h
  refine ⟨g State.params, g State.input, g State.bufAvail, g State.rsp, g State.out, g State.wres, g State.configured,
    g State.cfgCodec, g State.cfgOutBe, g State.fault, ?_⟩
  simpa using g State.draws

theorem SameSession.trans {s t u : State} (h : SameSession s t) (g : SameSession t u) : SameSession s u :=
  Eq.trans g h

/-- What an operation may raise, with a state that differs from `s` in the burst and the counters only (R233). -/
abbrev RaisedIn (s : State) (k : ErrorKind) (t : State) : Prop :=
  SameSession s t ∧ (k = .allocationFailure ∨ k = .malformedFrame ∨ k = .writerFault)

/-- How an operation answers: PENDING with no record, or COMPLETE with one. -/
abbrev AnsweredIn (s t : State) : Prop :=
  (∃ u, SameSession s u ∧ t = respond .pending u) ∨
  ∃ u b, SameSession { s with out := some b } u ∧ t = respond .complete u

theorem allocBurst_ends (cap : Half) (pts dts : Timestamp) (ns : Word) (s : State) :
    (allocBurst cap pts dts ns s).Ends (SameSession s) (RaisedIn s) := by
  unfold allocBurst
  split_ifs
  · exact ⟨rfl, .inl rfl⟩
  · exact ⟨rfl, .inl rfl⟩
  · exact rfl

theorem writeBytes_ends (data : List Byte) (srcBe : Bool) (s : State) :
    (writeBytes data srcBe s).Ends (SameSession s) (RaisedIn s) := by
  unfold writeBytes
  split_ifs
  · exact ⟨rfl, .inr (.inr rfl)⟩
  · exact ⟨rfl, .inr (.inr rfl)⟩
  · exact rfl

theorem padZeros_ends (size : Nat) (s : State) : (padZeros size s).Ends (SameSession s) (RaisedIn s) := by
  unfold padZeros
  split_ifs
  · exact ⟨rfl, .inr (.inr rfl)⟩
  · exact ⟨rfl, .inr (.inr rfl)⟩
  · exact rfl

theorem rewindBurst_ends (s : State) : (rewindBurst s).Ends (SameSession s) (RaisedIn s) := by
  unfold rewindBurst
  split_ifs
  · exact ⟨rfl, .inr (.inr rfl)⟩
  · exact rfl

theorem finalizeBurst_ends (dt : Half) (mult : BitVec 4) (s : State) :
    (finalizeBurst dt mult s).Ends (fun t => ∃ b, SameSession { s with out := some b } t) (RaisedIn s) := by
  unfold finalizeBurst
  split_ifs
  · exact ⟨rfl, .inr (.inr rfl)⟩
  · cases (finalImage dt mult s).readRange 0 s.cap.toNat with
    | none => trivial
    | some data => exact ⟨_, rfl⟩

/-- A raise of a later operation is a raise of the sequence. -/
theorem RaisedIn.of_same {s t : State} (h : SameSession s t) (k : ErrorKind) (u : State) (g : RaisedIn t k u) :
    RaisedIn s k u := ⟨h.trans g.1, g.2⟩

/-- An operation of a later state is one of the sequence. -/
theorem Micro.ends_same {s t : State} {D : State → Prop} {m : Micro} (h : SameSession s t) (hm : m.Ends D (RaisedIn t)) :
    m.Ends D (RaisedIn s) := Micro.ends_mono hm (fun _ g => g) (RaisedIn.of_same h)

/-- FINALIZE and the response that reports it. -/
theorem finalize_complete_ends {s t : State} (h : SameSession s t) (dt : Half) (mult : BitVec 4) :
    ((finalizeBurst dt mult t).andThen fun u => .done (respond .complete u)).Ends (AnsweredIn s) (RaisedIn s) := by
  refine Micro.ends_andThen (Micro.ends_same h (finalizeBurst_ends dt mult t)) ?_
  rintro u ⟨b, hb⟩
  refine .inr ⟨u, b, ?_, rfl⟩
  refine SameSession.trans ?_ hb
  have := congrArg (fun v : State => { v with out := some b }) h
  exact this

theorem processAc3_ends (f : Frame) (s : State) : (processAc3 f s).Ends (AnsweredIn s) (RaisedIn s) := by
  unfold processAc3
  cases ac3Size s.params f with
  | none => exact ⟨rfl, .inr (.inl rfl)⟩
  | some size =>
    simp only
    split_ifs
    · exact ⟨rfl, .inr (.inl rfl)⟩
    · exact ⟨rfl, .inr (.inl rfl)⟩
    · refine Micro.ends_andThen (allocBurst_ends _ _ _ _ s) fun t ht => ?_
      refine Micro.ends_andThen (Micro.ends_same ht (writeBytes_ends _ _ t)) fun u hu => ?_
      exact finalize_complete_ends (ht.trans hu) _ _

theorem processDts_ends (f : Frame) (s : State) : (processDts f s).Ends (AnsweredIn s) (RaisedIn s) := by
  unfold processDts
  cases dtsSize s.params f with
  | none => exact ⟨rfl, .inr (.inl rfl)⟩
  | some q =>
    obtain ⟨size, ns⟩ := q
    simp only
    cases dtDts ns with
    | none => exact ⟨rfl, .inr (.inl rfl)⟩
    | some dt =>
      simp only
      split_ifs
      · exact ⟨rfl, .inr (.inl rfl)⟩
      · refine Micro.ends_andThen (allocBurst_ends _ _ _ _ s) fun t ht => ?_
        refine Micro.ends_andThen (P := SameSession s) ?_ fun u hu => ?_
        · split_ifs
          · exact Micro.ends_mono (Micro.ends_same ht (rewindBurst_ends t)) (fun _ g => ht.trans g) (fun _ _ g => g)
          · exact ht
        · refine Micro.ends_andThen (Micro.ends_same hu (writeBytes_ends _ _ u)) fun v hv => ?_
          exact finalize_complete_ends (hu.trans hv) _ _

theorem eac3Open_ends (f : Frame) (s : State) : (eac3Open f s).Ends (SameSession s) (RaisedIn s) := by
  unfold eac3Open
  split_ifs
  · exact rfl
  · exact allocBurst_ends _ _ _ _ s

theorem eac3Count_ends (h : HeaderReply) (s : State) : (eac3Count h s).Ends (AnsweredIn s) (RaisedIn s) := by
  unfold eac3Count eac3Close
  split_ifs
  · refine .inl ⟨_, ?_, rfl⟩
    exact rfl
  · exact finalize_complete_ends rfl _ _
  · exact finalize_complete_ends rfl _ _

theorem AnsweredIn.of_same {s t u : State} (h : SameSession s t) (g : AnsweredIn t u) : AnsweredIn s u := by
  rcases g with ⟨v, hv, e⟩ | ⟨v, b, hv, e⟩
  · exact .inl ⟨v, h.trans hv, e⟩
  · exact .inr ⟨v, b, SameSession.trans (congrArg (fun w : State => { w with out := some b }) h) hv, e⟩

theorem processEac3_ends (f : Frame) (s : State) : (processEac3 f s).Ends (AnsweredIn s) (RaisedIn s) := by
  unfold processEac3
  cases a52Reply s.params f.data with
  | none => exact ⟨rfl, .inr (.inl rfl)⟩
  | some h =>
    simp only
    split_ifs
    · exact ⟨rfl, .inr (.inl rfl)⟩
    · refine Micro.ends_andThen (eac3Open_ends f s) fun t ht => ?_
      split_ifs
      · exact ⟨ht, .inr (.inl rfl)⟩
      · refine Micro.ends_andThen (Micro.ends_same ht (writeBytes_ends _ _ t)) fun u hu => ?_
        exact Micro.ends_mono (eac3Count_ends h u) (fun _ => AnsweredIn.of_same (ht.trans hu))
          (RaisedIn.of_same (ht.trans hu))

theorem trueHdOpen_ends (f : Frame) (s : State) : (trueHdOpen f s).Ends (SameSession s) (RaisedIn s) := by
  unfold trueHdOpen
  split_ifs
  · exact rfl
  · exact allocBurst_ends _ _ _ _ s

theorem slotMarker_ends (s : State) : (slotMarker s).Ends (SameSession s) (RaisedIn s) := by
  unfold slotMarker writeMarker
  split_ifs
  · exact writeBytes_ends _ _ s
  · exact writeBytes_ends _ _ s
  · exact rfl

theorem slotEnd_ends (s : State) : (slotEnd s).Ends (AnsweredIn s) (RaisedIn s) := by
  unfold slotEnd writeMarker
  split_ifs
  · refine Micro.ends_andThen (writeBytes_ends _ _ s) fun t ht => ?_
    exact finalize_complete_ends (t := { t with trueHdIdx := 0 }) ht _ _
  · refine .inl ⟨_, ?_, rfl⟩
    exact rfl

theorem slotBody_ends (f : Frame) (s : State) : (slotBody f s).Ends (AnsweredIn s) (RaisedIn s) := by
  unfold slotBody
  split_ifs
  · exact ⟨rfl, .inr (.inl rfl)⟩
  · refine Micro.ends_andThen (writeBytes_ends _ _ s) fun t ht => ?_
    refine Micro.ends_andThen (Micro.ends_same ht (padZeros_ends _ t)) fun u hu => ?_
    exact Micro.ends_mono (slotEnd_ends u) (fun _ => AnsweredIn.of_same (ht.trans hu)) (RaisedIn.of_same (ht.trans hu))

theorem processTrueHd_ends (f : Frame) (s : State) : (processTrueHd f s).Ends (AnsweredIn s) (RaisedIn s) := by
  unfold processTrueHd
  refine Micro.ends_andThen (trueHdOpen_ends f s) fun t ht => ?_
  refine Micro.ends_andThen (Micro.ends_same ht (slotMarker_ends t)) fun u hu => ?_
  exact Micro.ends_mono (slotBody_ends f u) (fun _ => AnsweredIn.of_same (ht.trans hu)) (RaisedIn.of_same (ht.trans hu))

/-- Which operation an instruction runs, as a sequence of micro-operations (R99, R160, R170, R180, R190). -/
theorem runs_processAc3 {i : Instr} {s : State} {f : Frame} (h : Runs i (.processAc3 f) s) :
    exec i s = finishCommand (processAc3 f s) := by
  rcases h with rfl | ⟨rfl, h1, h2, h3⟩
  · rfl
  · simp only [Instr.hostCommand] at h3 ⊢
    cases hc : s.cfgCodec <;> simp [selectProcess, hc] at h3
    simp [exec, execProcess, h1, h2, dispatchProcess, hc, execProcessAc3]

theorem runs_processEac3 {i : Instr} {s : State} {f : Frame} (h : Runs i (.processEac3 f) s) :
    exec i s = finishCommand (processEac3 f s) := by
  rcases h with rfl | ⟨rfl, h1, h2, h3⟩
  · rfl
  · simp only [Instr.hostCommand] at h3 ⊢
    cases hc : s.cfgCodec <;> simp [selectProcess, hc] at h3
    simp [exec, execProcess, h1, h2, dispatchProcess, hc, execProcessEac3]

theorem runs_processDts {i : Instr} {s : State} {f : Frame} (h : Runs i (.processDts f) s) :
    exec i s = finishCommand (processDts f s) := by
  rcases h with rfl | ⟨rfl, h1, h2, h3⟩
  · rfl
  · simp only [Instr.hostCommand] at h3 ⊢
    cases hc : s.cfgCodec <;> simp [selectProcess, hc] at h3
    simp [exec, execProcess, h1, h2, dispatchProcess, hc, execProcessDts]

theorem runs_processTrueHd {i : Instr} {s : State} {f : Frame} (h : Runs i (.processTrueHd f) s) :
    exec i s = finishCommand (processTrueHd f s) := by
  rcases h with rfl | ⟨rfl, h1, h2, h3⟩
  · rfl
  · simp only [Instr.hostCommand] at h3 ⊢
    cases hc : s.cfgCodec <;> simp [selectProcess, hc] at h3 <;>
    simp [exec, execProcess, h1, h2, dispatchProcess, hc, execProcessTrueHd]

/-- The four operations as one: every instruction that runs one is a sequence that ends as they do. -/
theorem runs_ends {i op : Instr} {s : State} {f : Frame}
    (ho : op = .processAc3 f ∨ op = .processEac3 f ∨ op = .processDts f ∨ op = .processTrueHd f) (h : Runs i op s) :
    ∃ m, exec i s = finishCommand m ∧ m.Ends (AnsweredIn s) (RaisedIn s) := by
  rcases ho with rfl | rfl | rfl | rfl
  · exact ⟨_, runs_processAc3 h, processAc3_ends f s⟩
  · exact ⟨_, runs_processEac3 h, processEac3_ends f s⟩
  · exact ⟨_, runs_processDts h, processDts_ends f s⟩
  · exact ⟨_, runs_processTrueHd h, processTrueHd_ends f s⟩

/-- PROCESS in a configured session without a fault runs one of the four operations (R211). -/
theorem process_runs {s : State} (hf : s.fault = false) (hc : s.configured = true) (f : Frame) :
    ∃ op, (op = .processAc3 f ∨ op = .processEac3 f ∨ op = .processDts f ∨ op = .processTrueHd f) ∧
      Runs (.process f) op s := by
  cases h : s.cfgCodec
  · exact ⟨.processAc3 f, .inl rfl, .inr ⟨rfl, hf, hc, by simp [selectProcess, h]⟩⟩
  · exact ⟨.processEac3 f, .inr (.inl rfl), .inr ⟨rfl, hf, hc, by simp [selectProcess, h]⟩⟩
  · exact ⟨.processDts f, .inr (.inr (.inl rfl)), .inr ⟨rfl, hf, hc, by simp [selectProcess, h]⟩⟩
  · exact ⟨.processTrueHd f, .inr (.inr (.inr rfl)), .inr ⟨rfl, hf, hc, by simp [selectProcess, h]⟩⟩
  · exact ⟨.processTrueHd f, .inr (.inr (.inr rfl)), .inr ⟨rfl, hf, hc, by simp [selectProcess, h]⟩⟩

/-- How an instruction that runs an operation ends, state by state: PENDING, COMPLETE with a record, an error that
flushed, or a writer fault (R233, R235). -/
theorem runs_cases {i op : Instr} {s t : State} {f : Frame}
    (ho : op = .processAc3 f ∨ op = .processEac3 f ∨ op = .processDts f ∨ op = .processTrueHd f) (h : Runs i op s)
    (hn : exec i s = .next t) :
    (∃ u, SameSession s u ∧ t = respond .pending u) ∨
    (∃ u b, SameSession { s with out := some b } u ∧ t = respond .complete u) ∨
    (∃ k, (k = .allocationFailure ∨ k = .malformedFrame) ∧ t = respond (.error k) (flushState s)) ∨
    ∃ u, SameSession s u ∧ t = respond (.error .writerFault) { u with fault := true } := by
  obtain ⟨m, e, hm⟩ := runs_ends ho h
  rw [e] at hn
  cases m with
  | done u =>
    obtain rfl : u = t := by simpa [finishCommand] using hn
    rcases hm with hm | hm
    · exact .inl hm
    · exact .inr (.inl hm)
  | raise k u =>
    have et : raiseError k u = t := by simpa [finishCommand] using hn
    obtain ⟨hs, hk⟩ := hm
    rcases hk with rfl | rfl | rfl
    · exact .inr (.inr (.inl ⟨_, .inl rfl, by rw [← et, raiseError_other _ _ (by decide), hs]⟩))
    · exact .inr (.inr (.inl ⟨_, .inr rfl, by rw [← et, raiseError_other _ _ (by decide), hs]⟩))
    · exact .inr (.inr (.inr ⟨u, hs, by rw [← et, raiseError_writerFault]; rfl⟩))
  | unwritten => simp [finishCommand] at hn

end Sys2Proof.Machine
end

