-- ==== Sys2Proof/Laws/Invariant.lean ====
section
/-! SUPPORT. Each writer micro-operation keeps the invariant of the machine and the width of timestamps, whether it is
performed or raises, and so does how a command or a transaction of the writer port ends. -/

namespace Sys2Proof.Machine

theorem allocBurst_inv {s : State} (h : MachineInv s) {cap : Half} (hc : 8 ≤ cap.toNat) (pts dts : Timestamp)
    (ns : Word) : (allocBurst cap pts dts ns s).Ends MachineInv (fun _ => MachineInv) := by
  unfold allocBurst
  split_ifs
  · exact h
  · exact h
  · exact ⟨h.1, Memory.wf_erase h.2.1 _ _, fun _ => ⟨hc, hc⟩⟩

theorem writeBytes_inv {s : State} (h : MachineInv s) (data : List Byte) (srcBe : Bool) :
    (writeBytes data srcBe s).Ends MachineInv (fun _ => MachineInv) := by
  unfold writeBytes
  rw [writeNeed_eq_imageSize]
  split_ifs with h1 h2
  · exact h
  · exact h
  · have := s.cap.isLt
    have hr : s.offset.toNat + imageSize data.length ≤ s.cap.toNat := by omega
    refine ⟨h.1, Memory.wf_write h.2.1 (by rw [wireBytes_length]; omega), fun ha => ⟨(h.2.2 ha).1, ?_⟩⟩
    show (BitVec.ofNat 16 _).toNat ≤ _
    rw [offset_toNat hr]
    exact hr

theorem padZeros_inv {s : State} (h : MachineInv s) (size : Nat) :
    (padZeros size s).Ends MachineInv (fun _ => MachineInv) := by
  unfold padZeros
  split_ifs with h1 h2
  · exact h
  · exact h
  · have := s.cap.isLt
    have hr : s.offset.toNat + size ≤ s.cap.toNat := by omega
    refine ⟨h.1, Memory.wf_write h.2.1 (by rw [List.length_replicate]; omega), fun ha => ⟨(h.2.2 ha).1, ?_⟩⟩
    show (BitVec.ofNat 16 _).toNat ≤ _
    rw [offset_toNat hr]
    exact hr

theorem rewindBurst_inv {s : State} (h : MachineInv s) : (rewindBurst s).Ends MachineInv (fun _ => MachineInv) := by
  unfold rewindBurst
  split_ifs
  · exact h
  · exact ⟨h.1, h.2.1, fun ha => ⟨(h.2.2 ha).1, Nat.zero_le _⟩⟩

theorem finalizeBurst_inv {s : State} (h : MachineInv s) (dt : Half) (mult : BitVec 4) :
    (finalizeBurst dt mult s).Ends MachineInv (fun _ => MachineInv) := by
  unfold finalizeBurst
  split_ifs
  · exact h
  · split
    · trivial
    · exact ⟨h.1, wf_finalImage h.2.1 _ _, fun ha => absurd ha (by simp)⟩

theorem flushState_inv {s : State} (h : s.params.wf) : MachineInv (flushState s) :=
  ⟨h, Memory.wf_nil, fun ha => by simp at ha⟩

/-- A command keeps what its micro-operations, a flush and the entry of a writer fault keep (R213, R233, R235). -/
theorem finishCommand_keeps {I : State → Prop} {m : Micro} {t : State}
    (hflush : ∀ k u, I u → I (respond (.error k) (flushState u)))
    (hfault : ∀ u, I u → I (respond (.error .writerFault) { u with fault := true })) (h : m.Ends I (fun _ => I))
    (hn : finishCommand m = .next t) : I t := by
  cases m with
  | done u =>
    obtain rfl : u = t := by simpa [finishCommand] using hn
    exact h
  | raise k u =>
    obtain rfl : raiseError k u = t := by simpa [finishCommand] using hn
    by_cases hk : k = .writerFault
    · subst hk
      exact hfault u h
    · rw [raiseError_other _ _ hk]
      exact hflush k u h
  | unwritten => simp [finishCommand] at hn

theorem finishCommand_inv {m : Micro} {t : State} (h : m.Ends MachineInv (fun _ => MachineInv))
    (hn : finishCommand m = .next t) : MachineInv t :=
  finishCommand_keeps (fun _ u hu => flushState_inv (s := u) hu.1) (fun _ hu => hu) h hn

/-- A transaction of the writer port keeps what its micro-operation keeps, if FAULT and the port's result are no part
of it (R140). -/
theorem finishMicro_keeps {I : State → Prop} {m : Micro} {t : State}
    (hport : ∀ fault res u, I u → I { u with fault := fault, wres := res }) (h : m.Ends I (fun _ => I))
    (hn : finishMicro m = .next t) : I t := by
  cases m with
  | done u =>
    obtain rfl : { u with wres := some .performed } = t := by simpa [finishMicro] using hn
    exact hport u.fault _ u h
  | raise k u =>
    obtain rfl : { setFault k u with wres := some (.raised k) } = t := by simpa [finishMicro] using hn
    unfold setFault
    split
    · exact hport true _ u h
    · exact hport u.fault _ u h
  | unwritten => simp [finishMicro] at hn

theorem finishMicro_inv {m : Micro} {t : State} (h : m.Ends MachineInv (fun _ => MachineInv))
    (hn : finishMicro m = .next t) : MachineInv t :=
  finishMicro_keeps (fun _ _ _ hu => hu) h hn

/-! ### The width of timestamps: only ALLOC, a flush and FINALIZE touch one -/

theorem allocBurst_timestampsFit {s : State} (h : TimestampsFit s) (cap : Half) (pts dts : Timestamp) (ns : Word) :
    (allocBurst cap pts dts ns s).Ends TimestampsFit (fun _ => TimestampsFit) := by
  unfold allocBurst
  split_ifs
  · exact h
  · exact h
  · exact ⟨tsBits_lt _ _, tsBits_lt _ _, h.2.2⟩

theorem writeBytes_timestampsFit {s : State} (h : TimestampsFit s) (data : List Byte) (srcBe : Bool) :
    (writeBytes data srcBe s).Ends TimestampsFit (fun _ => TimestampsFit) := by
  unfold writeBytes
  split_ifs <;> exact h

theorem padZeros_timestampsFit {s : State} (h : TimestampsFit s) (size : Nat) :
    (padZeros size s).Ends TimestampsFit (fun _ => TimestampsFit) := by
  unfold padZeros
  split_ifs <;> exact h

theorem rewindBurst_timestampsFit {s : State} (h : TimestampsFit s) :
    (rewindBurst s).Ends TimestampsFit (fun _ => TimestampsFit) := by
  unfold rewindBurst
  split_ifs <;> exact h

theorem finalizeBurst_timestampsFit {s : State} (h : TimestampsFit s) (dt : Half) (mult : BitVec 4) :
    (finalizeBurst dt mult s).Ends TimestampsFit (fun _ => TimestampsFit) := by
  unfold finalizeBurst
  split_ifs
  · exact h
  · split
    · trivial
    · refine ⟨h.1, h.2.1, fun b hb => ?_⟩
      obtain rfl := Option.some.inj hb
      exact ⟨h.1, h.2.1⟩

theorem flushState_timestampsFit {s : State} (h : TimestampsFit s) : TimestampsFit (flushState s) :=
  ⟨tsBits_lt _ _, tsBits_lt _ _, h.2.2⟩

theorem finishCommand_timestampsFit {m : Micro} {t : State} (h : m.Ends TimestampsFit (fun _ => TimestampsFit))
    (hn : finishCommand m = .next t) : TimestampsFit t :=
  finishCommand_keeps (fun _ _ hu => flushState_timestampsFit hu) (fun _ hu => hu) h hn

theorem finishMicro_timestampsFit {m : Micro} {t : State} (h : m.Ends TimestampsFit (fun _ => TimestampsFit))
    (hn : finishMicro m = .next t) : TimestampsFit t :=
  finishMicro_keeps (fun _ _ _ hu => hu) h hn

end Sys2Proof.Machine
end

