-- ==== Sys2Proof/Laws/PerInstr.lean ====
section
/-! SUPPORT. The families of statements made instruction by instruction (LAWS.json). -/

namespace Sys2Proof.Laws.RoundTrip

/-- The words of a well-formed instruction decode to it; the four PROCESS.* rows share PROCESS's word (R99). -/
def Statement (i : Instr) : Prop := i.wf = true → decode (encode i) = .ok i.hostCommand

/-- The PROCESS word with its descriptor decodes to PROCESS of that frame (R93). -/
theorem process_word (f : Frame) (h : f.wf) : decode (encodeProcess f) = .ok (.process f) := by
  have hl : (BitVec.ofNat 32 f.len).toNat = f.data.length := by
    rw [BitVec.toNat_ofNat]
    exact Nat.mod_eq_of_lt h
  simp [decode, encodeProcess, decodeCmd, cmdArgsZero, frameOf, hl, Except.map]

theorem setup (codec fmt : Byte) : Statement (.setup codec fmt) := fun _ => by
  simp [decode, encode, decodeCmd, Instr.hostCommand]

theorem process (f : Frame) : Statement (.process f) := fun h => process_word f (by simpa [Instr.wf] using h)

theorem processAc3 (f : Frame) : Statement (.processAc3 f) := fun h => process_word f (by simpa [Instr.wf] using h)

theorem processEac3 (f : Frame) : Statement (.processEac3 f) := fun h => process_word f (by simpa [Instr.wf] using h)

theorem processDts (f : Frame) : Statement (.processDts f) := fun h => process_word f (by simpa [Instr.wf] using h)

theorem processTrueHd (f : Frame) : Statement (.processTrueHd f) :=
  fun h => process_word f (by simpa [Instr.wf] using h)

theorem flush : Statement .flush := fun _ => by decide

theorem alloc (cap : Half) (pts dts : Timestamp) (ns : Word) : Statement (.alloc cap pts dts ns) := fun _ => by
  simp [decode, encode, decodeWop, Instr.hostCommand]

theorem write (data : List Byte) (srcBe : Bool) : Statement (.write data srcBe) := fun h => by
  have hl : (BitVec.ofNat 32 data.length).toNat = data.length := by
    rw [BitVec.toNat_ofNat]
    exact Nat.mod_eq_of_lt (by simpa [Instr.wf] using h)
  simp [decode, encode, decodeWop, Instr.hostCommand, hl]

theorem pad (size : Word) : Statement (.pad size) := fun _ => by
  simp [decode, encode, decodeWop, Instr.hostCommand]

theorem finalize (dt : Half) (mult : BitVec 4) : Statement (.finalize dt mult) := fun _ => by
  simp [decode, encode, decodeWop, Instr.hostCommand]

theorem rewind : Statement .rewind := fun _ => by decide

theorem discard : Statement .discard := fun _ => by decide

end Sys2Proof.Laws.RoundTrip
end

