-- ==== Sys2Proof/Tests/Slice0.lean ====
section
/-! SUPPORT. The model's own tests: the well-formedness checks, words decoded, one step of every instruction, and for
every statement with hypotheses a state and operands that meet them. Expected results come from spec/95_test_vectors.md (the vector is named beside each test) and from the encoding tables of
spec/30_encoding.md. -/

namespace Sys2Proof.Tests

open Sys2Proof.Machine

/-! ### Helpers -/

/-- A field of the next state, if there is one. -/
def next? {α : Type} (o : Host.Outcome State Fault Refusal) (field : State → α) : Option α :=
  match o with
  | .next s => some (field s)
  | .fault _ => none
  | .refused _ => none

/-- The bytes of the emitted burst, none if there is none. -/
def outBytes (s : State) : List Byte :=
  match s.out with
  | some b => b.data
  | none => []

/-- A session configured for a codec and a byte order. -/
def session (c : Codec) (be : Bool) : State := { State.reset with configured := true, cfgCodec := c, cfgOutBe := be }

/-- The start of the writer vectors: BURST_ACTIVE = 1, CAP = 16, OFFSET as given, nothing written from 8 on. -/
def writer (be : Bool) (offset : Half) : State :=
  { State.reset with cfgOutBe := be, burstActive := true, cap := 16, offset := offset, burstPts := 1, burstDts := 2
                     burstNSamples := 3 }

/-- BUF[a], BUF[a+1], and so on. -/
def bufAt (a n : Nat) (s : State) : List (Option Byte) := (List.range n).map fun i => s.buf.read (a + i)

/-- A frame with timestamps 0. -/
def frame (ns : Word) (data : List Byte) : Frame := { nsamples := ns, pts := 0, dts := 0, data := data }

/-- `p8` of the AC3 vectors. -/
def p8 : List Byte := [0x0B, 0x77, 0x12, 0x34, 0x1C, 0x43, 0xAA, 0xBB]

/-- `fA` of the E-AC3 vectors. -/
def fA : List Byte := [0x0B, 0x77, 0x02, 0x00, 0x00, 0x01, 0xA1, 0xA2]

/-- The stub parser's reply to an 8-byte E-AC3 frame. -/
def eac3Reply (blocks : Byte) (sub : Byte) (type : StreamType) (enhanced : Bool) : HeaderReply :=
  { frameSize := 8, sampleCount := 512, isEnhanced := enhanced, substreamId := sub, blocksPerSyncFrame := blocks
    streamType := type }

/-- A state whose platform answers one request to each parser so. -/
def withReply (key : List Byte) (r : Option HeaderReply) (s : State) : State :=
  { s with params := { s.params with a52Replies := [(key, r)], dtsReplies := [(key, r)] } }

/-- The reply that reports a size and a sample count. -/
def reply (size count : Word) : HeaderReply :=
  { frameSize := size, sampleCount := count, isEnhanced := false, substreamId := 0, blocksPerSyncFrame := 0
    streamType := .independent }

/-! ### Well-formedness: an ill-formed term for each check -/

theorem test_frame_of_2_pow_32_bytes_is_ill_formed : ∀ ns : Word,
    Instr.wf (.process (frame ns (List.replicate (2 ^ 32) 0))) = false ∧
    Instr.wf (.processAc3 (frame ns (List.replicate (2 ^ 32) 0))) = false ∧
    Instr.wf (.processEac3 (frame ns (List.replicate (2 ^ 32) 0))) = false ∧
    Instr.wf (.processDts (frame ns (List.replicate (2 ^ 32) 0))) = false ∧
    Instr.wf (.processTrueHd (frame ns (List.replicate (2 ^ 32) 0))) = false := fun ns => by
  simp only [Instr.wf, Frame.wf, Frame.len, frame, List.length_replicate]
  decide

theorem test_write_of_2_pow_32_bytes_is_ill_formed : Instr.wf (.write (List.replicate (2 ^ 32) 0) true) = false := by
  simp only [Instr.wf, List.length_replicate]
  decide

theorem test_alloc_of_7_bytes_is_ill_formed : Instr.wf (.alloc 7 0 0 0) = false := by decide

theorem test_finalize_times_2_is_ill_formed : Instr.wf (.finalize 1 2) = false := by decide

theorem test_well_formed_at_the_bounds :
    Instr.wf (.alloc 8 0 0 0) = true ∧ Instr.wf (.finalize 1 1) = true ∧ Instr.wf (.finalize 1 8) = true ∧
    Instr.wf (.process (frame 0 [])) = true ∧ Instr.wf (.setup 255 255) = true := by decide

/-! ### Decoding: words written out from R90 to R97 and R100 -/

/-- X1: OPC 0x01, ARG1 0x01 (SPDIFB), ARG0 0x00 (AC3). -/
theorem test_decode_setup_ac3 :
    decodeCmd 0b00000001_00000000_00000001_00000000 Descriptor.none = .ok (.setup 0 1) := by decide

/-- X4 and X8. -/
theorem test_decode_setup_other :
    decodeCmd 0b00000001_00000000_00000001_00000011 Descriptor.none = .ok (.setup 3 1) ∧
    decodeCmd 0b00000001_00000000_11111111_11111111 Descriptor.none = .ok (.setup 255 255) := by decide

/-- X10 with the descriptor of AC1: the five values in the order of R93. The four PROCESS.* rows are this word (R99). -/
theorem test_decode_process :
    decodeCmd 0b00000010_00000000_00000000_00000000
        { len := 8, nsamples := 1536, pts := 1000, dts := 900, data := p8 } =
      .ok (.process { nsamples := 1536, pts := 1000, dts := 900, data := p8 }) := by decide

/-- R99: the selector of the table. -/
theorem test_select_process : ∀ f : Frame,
    selectProcess .ac3 (.process f) = .processAc3 f ∧ selectProcess .eac3 (.process f) = .processEac3 f ∧
    selectProcess .dts (.process f) = .processDts f ∧ selectProcess .mlp (.process f) = .processTrueHd f ∧
    selectProcess .truehd (.process f) = .processTrueHd f := fun _ => ⟨rfl, rfl, rfl, rfl, rfl⟩

/-- X12. -/
theorem test_decode_flush :
    decodeCmd 0b00000011_00000000_00000000_00000000 Descriptor.none = .ok .flush := by decide

/-- X9, X11, X13 to X16. -/
theorem test_decode_illegal :
    decodeCmd 0x01010000 Descriptor.none = .error .reservedBits ∧
    decodeCmd 0x02000001 Descriptor.none = .error .unusedArgument ∧
    decodeCmd 0x03000100 Descriptor.none = .error .unusedArgument ∧
    decodeCmd 0x00000000 Descriptor.none = .error .illegalOpc ∧
    decodeCmd 0x04000000 Descriptor.none = .error .illegalOpc ∧
    decodeCmd 0xFFFFFFFF Descriptor.none = .error .illegalOpc := by decide

/-- R93: a descriptor whose FR_LEN is not its number of bytes (log 11). -/
theorem test_decode_wrong_length :
    decodeCmd 0x02000000 { len := 7, nsamples := 0, pts := 0, dts := 0, data := p8 } =
      .error .descriptorLength := by decide

/-- R100: codes 0 to 5 in WOP[2:0], each with its own operands. -/
theorem test_decode_micro_operations :
    decodeWop 0b00000_000 { WopOperands.zero with cap := 16, pts := 1, dts := 2, ns := 3 } = .ok (.alloc 16 1 2 3) ∧
    decodeWop 0b00000_001 { WopOperands.zero with data := [1, 2, 3], n := 3, srcBe := true } =
      .ok (.write [1, 2, 3] true) ∧
    decodeWop 0b00000_010 { WopOperands.zero with size := 5 } = .ok (.pad 5) ∧
    decodeWop 0b00000_011 { WopOperands.zero with dt := 0x0301, mult := 8 } = .ok (.finalize 0x0301 8) ∧
    decodeWop 0b00000_100 WopOperands.zero = .ok .rewind ∧
    decodeWop 0b00000_101 WopOperands.zero = .ok .discard := by decide

/-- R100: codes 6 and 7, reserved bits, and an `n` that is not the number of bytes (R132, log 11). -/
theorem test_decode_refused_micro_operations :
    decodeWop 0b00000_110 WopOperands.zero = .error .wopUnusedCode ∧
    decodeWop 0b00000_111 WopOperands.zero = .error .wopUnusedCode ∧
    decodeWop 0b00001_101 WopOperands.zero = .error .wopReservedBits ∧
    decodeWop 0b10000_000 WopOperands.zero = .error .wopReservedBits ∧
    decodeWop 0b00000_001 { WopOperands.zero with data := [1], n := 2 } = .error .writeLength := by decide

/-- R98: the response codes. -/
theorem test_response_codes :
    [Response.done, .complete, .pending, .error .allocationFailure, .error .malformedFrame,
        .error .unsupportedConfiguration, .error .illegalCommand, .error .writerFault].map
      (fun r => (rspStatus r, rspKind r)) =
      [(0, 0), (1, 0), (2, 0), (3, 1), (3, 2), (3, 3), (3, 4), (3, 5)] := by decide

/-! ### SETUP, PROCESS, FLUSH -/

/-- X5, as a step from reset. -/
theorem test_setup_truehd :
    next? (step (State.reset.withFetchWord 32 0x01000104))
        (fun s => (s.rsp, s.configured, s.cfgCodec, s.cfgOutBe)) =
      some (some .done, true, .truehd, true) := by decide

/-- X6: codec 5 leaves the session unconfigured. -/
theorem test_setup_unsupported :
    next? (exec (.setup 5 0) (session .dts true)) (fun s => (s.rsp, s.configured)) =
      some (some (.error .unsupportedConfiguration), false) := by decide

/-- S1. -/
theorem test_process_unconfigured :
    next? (step (State.reset.withFetchWord 32 0x02000000)) (fun s => (s.rsp, s.configured)) =
      some (some (.error .unsupportedConfiguration), false) := by decide

/-- R211 and T11: PROCESS with CFG_CODEC = MLP and no buffer. -/
theorem test_process_mlp :
    next? (exec (.process (frame 0 [1, 2])) { session .mlp true with bufAvail := false }) (fun s => s.rsp) =
      some (some (.error .allocationFailure)) := by decide

/-- T10: FLUSH under FAULT. -/
theorem test_flush_faulted :
    next? (exec .flush { session .truehd true with fault := true, burstActive := true, trueHdIdx := 23 })
        (fun s => (s.rsp, s.burstActive, s.trueHdIdx, s.fault)) =
      some (some .done, false, 0, true) := by decide

/-- S7: an illegal word in the state FAULTED. -/
theorem test_illegal_word_faulted :
    next? (step ({ session .ac3 true with fault := true }.withFetchWord 32 0x00000000)) (fun s => s.rsp) =
      some (some (.error .illegalCommand)) := by decide

/-- R104. -/
theorem test_stream_type_codes :
    [.independent, .dependent, .ac3Convert, .reserved].map streamTypeCode = [0, 1, 2, 3] := by decide

/-! ### The writer port -/

/-- W1. -/
theorem test_alloc :
    next? (exec (.alloc 16 1 2 3) { State.reset with buf := [(0, 9), (15, 9), (16, 9)] })
        (fun s => (s.burstActive, s.cap, s.offset, s.buf)) = some (true, 16, 8, [(16, 9)]) ∧
    next? (exec (.alloc 16 1 2 3) State.reset) (fun s => (s.burstPts, s.burstDts, s.burstNSamples)) =
      some (1, 2, 3) := by decide

/-- R6, R32: a timestamp of TS_WIDTH bits is kept whole, for another width than the default too; no vector gives a
wider one (log 7). -/
theorem test_alloc_timestamp_width :
    let narrow : State := { State.reset with params := { defaultParams with tsWidth := 33 } }
    next? (exec (.alloc 16 (2 ^ 64 - 1) 0 3) State.reset) (fun s => s.burstPts) = some (2 ^ 64 - 1) ∧
    next? (exec (.alloc 16 (2 ^ 33 - 1) (2 ^ 33 + 5) 3) narrow) (fun s => (s.burstPts, s.burstDts)) =
      some (2 ^ 33 - 1, 5) := by decide

/-- W2 and W3. -/
theorem test_alloc_refused :
    exec (.alloc 16 1 2 3) { State.reset with bufAvail := false } =
      .next { State.reset with bufAvail := false, wres := some (.raised .allocationFailure) } ∧
    exec (.alloc 16 1 2 3) (writer true 8) =
      .next { writer true 8 with wres := some (.raised .allocationFailure) } := ⟨rfl, rfl⟩

/-- W4, W5, W10 and W9: copied, exchanged, and both forms of the odd byte. -/
theorem test_write :
    next? (exec (.write [1, 2, 3, 4] true) (writer true 8)) (fun s => (bufAt 8 4 s, s.offset)) =
      some ([some 1, some 2, some 3, some 4], 12) ∧
    next? (exec (.write [1, 2, 3, 4] true) (writer false 8)) (bufAt 8 4) =
      some [some 2, some 1, some 4, some 3] ∧
    next? (exec (.write [1, 2, 3] false) (writer true 8)) (bufAt 8 4) = some [some 2, some 1, some 3, some 0] ∧
    next? (exec (.write [1, 2, 3] true) (writer false 8)) (bufAt 8 4) = some [some 2, some 1, some 0, some 3] := by
  decide

/-- W15, W16 and W17: the room counts the promoted word. -/
theorem test_write_room :
    next? (exec (.write [1, 2, 3] true) (writer true 12)) (fun s => (s.offset, s.fault)) = some (16, false) ∧
    next? (exec (.write [1, 2, 3] true) (writer true 14)) (fun s => (s.offset, s.fault)) = some (14, true) ∧
    next? (exec (.write [1] true) (writer true 15)) (fun s => (s.offset, s.fault, s.wres)) =
      some (15, true, some (.raised .writerFault)) := by decide

/-- W18. -/
theorem test_pad :
    next? (exec (.pad 3) (writer true 12)) (fun s => (bufAt 11 5 s, s.offset)) =
      some ([none, some 0, some 0, some 0, none], 15) := by decide

/-- W19 and the second half of W20. -/
theorem test_pad_room :
    next? (exec (.pad 2) (writer true 15)) (fun s => (s.offset, s.fault)) = some (15, true) ∧
    next? (exec (.pad 0) (writer true 16)) (fun s => (s.offset, s.fault)) = some (16, false) := by decide

/-- W21: `F8 72 4E 1F 03 01 00 20`, the four bytes written, four zeros; OUT_* from ALLOC. -/
theorem test_finalize :
    next? (exec (.finalize 0x0301 8) { writer true 12 with buf := [(8, 1), (9, 2), (10, 3), (11, 4)] })
        (fun s => (s.out, s.offset, s.burstActive)) =
      some (some { len := 16, nsamples := 3, pts := 1, dts := 2
                   data := [0xF8, 0x72, 0x4E, 0x1F, 0x03, 0x01, 0x00, 0x20, 1, 2, 3, 4, 0, 0, 0, 0] }, 16, false) := by
  decide

/-- W22, the other byte order and the length in bytes, and U7: a byte never written. -/
theorem test_finalize_le_and_unwritten :
    next? (exec (.finalize 0x0015 1) { writer false 10 with buf := [(8, 1), (9, 2)] }) outBytes =
      some [0x72, 0xF8, 0x1F, 0x4E, 0x15, 0x00, 0x02, 0x00, 1, 2, 0, 0, 0, 0, 0, 0] ∧
    (exec (.finalize 0x0015 1) { writer false 10 with buf := [(8, 1)] } matches .fault .unwrittenByte) = true := by
  decide

/-- W23, its first operation, and W26. -/
theorem test_rewind :
    exec .rewind (writer true 8) = .next { writer true 8 with offset := 0, wres := some .performed } ∧
    exec .rewind State.reset = .next { State.reset with fault := true, wres := some (.raised .writerFault) } :=
  ⟨rfl, rfl⟩

/-- W27. -/
theorem test_discard :
    next? (exec .discard { writer true 8 with buf := [(8, 1)] }) (fun s => (s.burstActive, s.buf, s.out, s.fault)) =
      some (false, [], none, false) ∧
    next? (exec .discard State.reset) (fun s => (s.burstActive, s.wres)) = some (false, some .performed) := by decide

/-! ### The four encapsulators -/

/-- AC4: an odd frame in SPDIFL. -/
theorem test_ac3 :
    next? (exec (.processAc3 (frame 1536 (p8.take 7))) (session .ac3 false))
        (fun s => (s.rsp, (outBytes s).take 18, (outBytes s).length)) =
      some (some .complete, [0x72, 0xF8, 0x1F, 0x4E, 0x01, 0x03, 0x40, 0x00, 0x77, 0x0B, 0x34, 0x12, 0x43, 0x1C, 0x00,
        0xAA, 0, 0], 6144) := by decide +kernel

/-- AC8: the recovered size. -/
theorem test_ac3_recovered :
    next? (exec (.processAc3 (frame 256 p8)) (withReply p8 (some (reply 6 1536)) (session .ac3 true)))
        (fun s => (s.rsp, (outBytes s).take 16)) =
      some (some .complete, [0xF8, 0x72, 0x4E, 0x1F, 0x03, 0x01, 0x00, 0x30, 0x0B, 0x77, 0x12, 0x34, 0x1C, 0x43, 0, 0])
    := by decide +kernel

/-- EA1, its first frame. -/
theorem test_eac3_pending :
    next? (exec (.processEac3 { frame 0 fA with pts := 10, dts := 9 })
          (withReply fA (some (eac3Reply 2 0 .independent true)) (session .eac3 false)))
        (fun s => (s.eac3Blocks, s.offset, s.burstPts, bufAt 8 8 s)) =
      some (2, 16, 10, [some 0x77, some 0x0B, some 0x00, some 0x02, some 0x01, some 0x00, some 0xA2, some 0xA1]) := by
  decide

/-- EA1, its last frame (4 blocks counted), in a buffer of 32 bytes. -/
theorem test_eac3_complete :
    next? (exec (.processEac3 (frame 0 fA))
          { withReply fA (some (eac3Reply 2 0 .independent true)) (session .eac3 false) with
            burstActive := true, cap := 32, offset := 16, eac3Blocks := 4, buf := cellsAt 8 p8 })
        (fun s => (s.rsp, s.eac3Blocks, outBytes s)) =
      some (some .complete, 0, [0x72, 0xF8, 0x1F, 0x4E, 0x15, 0x00, 0x10, 0x00] ++ p8 ++
        [0x77, 0x0B, 0x00, 0x02, 0x01, 0x00, 0xA2, 0xA1] ++ [0, 0, 0, 0, 0, 0, 0, 0]) := by decide

/-- DT4. -/
theorem test_dts :
    next? (exec (.processDts (frame 512 [0x7F, 0xFE, 0x80, 0x01, 0x11, 0x22])) (session .dts false))
        (fun s => (s.rsp, (outBytes s).take 16, (outBytes s).length)) =
      some (some .complete, [0x72, 0xF8, 0x1F, 0x4E, 0x0B, 0x00, 0x30, 0x00, 0xFE, 0x7F, 0x01, 0x80, 0x22, 0x11, 0, 0],
        2048) := by decide +kernel

/-- DT8: the frame fills the capacity exactly, no preamble. -/
theorem test_dts_bare :
    next? (exec (.processDts (frame 512 (0x7F :: List.replicate 2047 1))) (session .dts true))
        (fun s => (s.rsp, outBytes s)) =
      some (some .complete, 0x7F :: List.replicate 2047 1) := by decide +kernel

/-- T2, the frame of index 0: the marker verbatim in SPDIFL, the payload exchanged. -/
theorem test_truehd_first :
    next? (exec (.processTrueHd (frame 0 [0xA0, 1, 2, 3])) (session .truehd false))
        (fun s => (s.offset, s.trueHdIdx, bufAt 7 5 s, bufAt 27 6 s)) =
      some (2560, 1, [none, some 0x07, some 0x9E, some 0x00, some 0x03],
        [some 0xE0, some 1, some 0xA0, some 3, some 2, some 0]) := by decide +kernel

/-- T4: the padding of a 2533-byte frame at index 0 would be −1. -/
theorem test_truehd_malformed :
    next? (exec (.processTrueHd (frame 0 (List.replicate 2533 0))) (session .truehd true))
        (fun s => (s.rsp, s.burstActive, s.trueHdIdx)) =
      some (some (.error .malformedFrame), false, 0) := by decide +kernel

/-! ### Witnesses: states and operands that meet the hypotheses of the statements of Certificates/Slice0 -/

theorem next_of {α : Type} {o : Host.Outcome State Fault Refusal} {field : State → α} {x : α}
    (h : next? o field = some x) : ∃ t, o = .next t ∧ field t = x := by
  cases o with
  | next t => exact ⟨t, rfl, Option.some.inj h⟩
  | fault r => simp [next?] at h
  | refused r => simp [next?] at h

theorem witness_DecodeOfEncodeIsTheInstruction :
    Instr.wf (.process (frame 1536 p8)) = true ∧ Instr.wf (.alloc 8 1 2 3) = true ∧
    Instr.wf (.finalize 1 8) = true ∧ Instr.wf (.write p8 true) = true := by decide

theorem witness_EachWordIsTheWordOfItsInstruction :
    decodeCmd 0x01000104 Descriptor.none = .ok (.setup 4 1) ∧
    decodeWop 0x03 { WopOperands.zero with dt := 1, mult := 8 } = .ok (.finalize 1 8) := by decide

/-- One illegal word of each kind, and a legal one. -/
theorem witness_IllegalCommandChangesNothing :
    (State.reset.withFetchWord 32 0x00FFFFFF).input = .req (.cmd 0x00FFFFFF Descriptor.none) true :: [] ∧
    ¬ ((0x00FFFFFF : Word).toNat / 2 ^ 24 = 1 ∨ (0x00FFFFFF : Word).toNat / 2 ^ 24 = 2 ∨
      (0x00FFFFFF : Word).toNat / 2 ^ 24 = 3) ∧
    (0x01FF0000 : Word).toNat / 2 ^ 16 % 256 ≠ 0 ∧
    ((0x0300FFFF : Word).toNat / 2 ^ 24 = 3 ∧ (0x0300FFFF : Word).toNat % 2 ^ 16 ≠ 0) ∧
    ((0x02000000 : Word).toNat / 2 ^ 24 = 2 ∧ (0x02000000 : Word).toNat / 2 ^ 16 % 256 = 0 ∧
      (0x02000000 : Word).toNat % 2 ^ 16 = 0 ∧ Descriptor.none.len.toNat = Descriptor.none.data.length) := by decide

theorem witness_StepRunsTheDecodedInstruction :
    (State.reset.withFetchWord 32 0x03000000).input = .req (.cmd 0x03000000 Descriptor.none) true :: [] ∧
    decode (.cmd 0x03000000 Descriptor.none) = .ok .flush := by decide

theorem witness_IdleStepKeepsTheState : State.reset.input = [] := rfl

theorem witness_ResetPinEntersTheResetState :
    ({ writer true 12 with fault := true, input := [.rst] } : State).input = .rst :: [] := rfl

theorem witness_EveryCommandGetsOneResponse :
    ∃ t, (State.reset.withFetchWord 32 0x03000000).input = .req (.cmd 0x03000000 Descriptor.none) true :: [] ∧
      step (State.reset.withFetchWord 32 0x03000000) = .next t := ⟨_, rfl, rfl⟩

theorem witness_FaultIsStickyAndParametersConstant :
    ∃ t, step ({ writer true 8 with fault := true }.withFetchWord 8 5) = .next t ∧
      ({ writer true 8 with fault := true }.withFetchWord 8 5).fault = true ∧
      ({ writer true 8 with fault := true }.withFetchWord 8 5).input.head? ≠ some .rst :=
  ⟨_, rfl, rfl, by decide⟩

theorem witness_OnlySetupWritesTheConfiguration :
    ∃ t, exec .flush (session .dts true) = .next t ∧ ∀ codec fmt, Instr.flush ≠ .setup codec fmt :=
  ⟨_, rfl, fun _ _ h => by cases h⟩

theorem witness_SessionStatesMoveByTheTable :
    ∃ t u v w x, exec (.setup 4 1) State.reset = .next t ∧ exec (.setup 5 0) State.reset = .next u ∧
      exec (.setup 0 2) { State.reset with fault := true } = .next v ∧
      exec (.process (frame 0 [])) State.reset = .next w ∧ exec .flush State.reset = .next x :=
  ⟨_, _, _, _, _, rfl, rfl, rfl, rfl, rfl⟩

/-- At the bound OFFSET = CAP. -/
theorem witness_EveryStepKeepsTheMachineInvariant :
    ∃ t, MachineInv (writer true 16) ∧ step (writer true 16) = .next t := ⟨_, by decide, rfl⟩

/-- At the bound: a timestamp of TS_WIDTH ones. -/
theorem witness_EveryStepKeepsTimestampsInTheirWidth :
    let s : State := { (writer true 16).withFetchWord 8 5 with burstPts := 2 ^ 64 - 1 }
    ∃ t, TimestampsFit s ∧ step s = .next t :=
  ⟨_, ⟨by decide, by decide, fun _ h => nomatch h⟩, rfl⟩

/-- An aggregate in progress: 8 bytes written, 4 blocks counted. -/
def aggregate (cap : Half) : State :=
  { session .eac3 false with
    params := { State.reset.params with eac3Capacity := cap }
    burstActive := true, cap := cap, offset := 16, eac3Blocks := 4, buf := cellsAt 8 p8 }

/-- With no burst in progress a state is legal when its counters are 0. -/
theorem inactive_legal {s : State} (hp : s.params.wf) (hw : s.buf.wf) (ha : s.burstActive = false)
    (he : s.eac3Blocks = 0) (hi : s.trueHdIdx = 0) : Legal s := by
  have no : ¬ s.burstActive = true := by simp [ha]
  exact ⟨⟨hp, hw, fun h => absurd h no⟩, fun _ => ⟨fun h => absurd h no, fun _ => ⟨he, hi⟩, fun _ => ha,
    fun h => absurd h no, fun h => absurd h no⟩⟩

theorem session_legal (c : Codec) (be : Bool) : Legal (session c be) :=
  inactive_legal (by show defaultParams.wf; decide) Memory.wf_nil rfl rfl rfl

theorem aggregate_legal : Legal (aggregate 24576) ∧ Legal (aggregate 24) := by
  refine ⟨⟨by decide, fun _ => ⟨?_, ?_, ?_, ?_, ?_⟩⟩, ⟨by decide, fun _ => ⟨?_, ?_, ?_, ?_, ?_⟩⟩⟩ <;> decide

theorem witness_HostStepKeepsTheSessionLegal :
    ∃ t, Legal ((aggregate 24576).withFetchWord 32 0x03000000) ∧
      hostNext ((aggregate 24576).withFetchWord 32 0x03000000) = true ∧
      step ((aggregate 24576).withFetchWord 32 0x03000000) = .next t := ⟨_, aggregate_legal.1, rfl, rfl⟩

theorem witness_HostStepAlwaysAnswers :
    Legal ((aggregate 24576).withFetchWord 32 0x02000000) ∧
    hostNext ((aggregate 24576).withFetchWord 32 0x02000000) = true ∧
    ∀ w d avail rest, ((aggregate 24576).withFetchWord 32 0x02000000).input = .req (.cmd w d) avail :: rest →
      d.len.toNat = d.data.length :=
  ⟨aggregate_legal.1, rfl, fun w d avail rest h => by
    have : Input.req (.cmd 0x02000000 Descriptor.none) true :: [] = .req (.cmd w d) avail :: rest := h
    simp only [List.cons.injEq, Input.req.injEq, Encoded.cmd.injEq] at this
    rw [← this.1.1.2]
    rfl⟩

/-- Two states after reset that differ in every register R260 leaves unspecified. -/
theorem witness_UnspecifiedElementsNeverMatter :
    ∃ s', Legal (State.reset.withFetchWord 32 0x01000000) ∧
      Legal ({ State.reset with
          cfgCodec := .dts, cfgOutBe := true, cap := 9, offset := 99, burstPts := 9, burstDts := 9
          burstNSamples := 9, buf := [(5, 5)] }.withFetchWord 32 0x01000000) ∧
      SameMeaning (State.reset.withFetchWord 32 0x01000000)
        ({ State.reset with
          cfgCodec := .dts, cfgOutBe := true, cap := 9, offset := 99, burstPts := 9, burstDts := 9
          burstNSamples := 9, buf := [(5, 5)] }.withFetchWord 32 0x01000000) ∧
      hostNext (State.reset.withFetchWord 32 0x01000000) = true ∧
      step (State.reset.withFetchWord 32 0x01000000) = .next s' :=
  ⟨_, inactive_legal (by decide) Memory.wf_nil rfl rfl rfl, inactive_legal (by decide) (by decide) rfl rfl rfl,
    by decide, rfl, rfl⟩

theorem witness_TimestampsNeverInfluenceTheBurst :
    ∃ t, exec (.process (frame 0 fA)) (withReply fA (some (eac3Reply 2 0 .independent true)) (aggregate 24)) =
      .next t :=
  (next_of (field := fun t => t.rsp) (x := some .complete) (by decide)).imp fun _ h => h.1

theorem witness_SetupConfiguresOrRejects :
    State.reset.fault = false ∧ ((4 : Byte).toNat ≤ 4 ∧ (1 : Byte).toNat ≤ 1) ∧
    ¬ ((5 : Byte).toNat ≤ 4 ∧ (1 : Byte).toNat ≤ 1) ∧ ¬ ((4 : Byte).toNat ≤ 4 ∧ (2 : Byte).toNat ≤ 1) := by decide

theorem witness_FaultRefusesProcessAndSetup : ({ aggregate 24 with fault := true } : State).fault = true := rfl

theorem witness_UnconfiguredProcessIsRefused : State.reset.fault = false ∧ State.reset.configured = false :=
  ⟨rfl, rfl⟩

theorem witness_ProcessRunsTheOperationOfTheCodec : ∀ c : Codec,
    (session c true).fault = false ∧ (session c true).configured = true ∧ (session c true).cfgCodec = c :=
  fun _ => ⟨rfl, rfl, rfl⟩

theorem witness_ErrorFlushesTheSession :
    Runs (.process (frame 0 fA)) (.processEac3 (frame 0 fA)) (withReply fA none (aggregate 24)) ∧
    ∃ t, exec (.process (frame 0 fA)) (withReply fA none (aggregate 24)) = .next t ∧
      t.rsp = some (.error .malformedFrame) ∧ ErrorKind.malformedFrame ≠ .writerFault :=
  ⟨.inr ⟨rfl, rfl, rfl, rfl⟩, _, rfl, rfl, by decide⟩

/-! AC3 -/

/-- The largest declared frame, R160's bound `size + 8 = 6144`. -/
theorem witness_Ac3FrameBecomesOneBurst_declared :
    Runs (.process (frame 1536 (List.replicate 6136 1))) (.processAc3 (frame 1536 (List.replicate 6136 1)))
      (session .ac3 true) ∧
    (session .ac3 true).buf.wf ∧ (session .ac3 true).burstActive = false ∧ (session .ac3 true).bufAvail = true ∧
    Ac3Accepts (session .ac3 true).params (frame 1536 (List.replicate 6136 1)) 6136 :=
  ⟨.inr ⟨rfl, rfl, rfl, rfl⟩, Memory.wf_nil, rfl, rfl, by
    simp only [Ac3Accepts, Frame.len, frame, List.length_replicate]
    exact ⟨.inl (by decide), by decide⟩⟩

/-- AC8. -/
theorem witness_Ac3FrameBecomesOneBurst_recovered :
    Ac3Accepts (withReply p8 (some (reply 6 1536)) (session .ac3 true)).params (frame 256 p8) 6 :=
  ⟨.inr ⟨by decide, reply 6 1536, by decide, by decide⟩, by decide⟩

/-- AC6, and AC11. -/
theorem witness_Ac3RejectsFrames :
    Runs (.processAc3 (frame 1536 (List.replicate 6137 1))) (.processAc3 (frame 1536 (List.replicate 6137 1)))
      (session .ac3 true) ∧
    (∀ size, ¬ Ac3Accepts (session .ac3 true).params (frame 1536 (List.replicate 6137 1)) size) ∧
    Ac3Accepts { session .ac3 true with bufAvail := false }.params (frame 1536 p8) 8 ∧
    ({ session .ac3 true with bufAvail := false } : State).bufAvail = false := by
  refine ⟨.inl rfl, fun size h => ?_, ⟨.inl (by decide), by decide⟩, rfl⟩
  simp only [Ac3Accepts, Frame.len, frame, List.length_replicate] at h
  rcases h.1 with h1 | h1
  · omega
  · exact absurd h1.1 (by decide)

/-! Enhanced AC3 -/

/-- In the aggregate, and as the first frame, at the bound OFFSET + frame_size = CAP. -/
theorem witness_Eac3FrameIsAppended :
    (Runs (.process (frame 0 fA)) (.processEac3 (frame 0 fA))
        (withReply fA (some (eac3Reply 4 0 .independent true)) (aggregate 24)) ∧
      Legal (withReply fA (some (eac3Reply 4 0 .independent true)) (aggregate 24)) ∧
      (aggregate 24).fault = false ∧ (aggregate 24).cfgCodec = .eac3 ∧ (aggregate 24).burstActive = true ∧
      a52Reply (withReply fA (some (eac3Reply 4 0 .independent true)) (aggregate 24)).params fA =
        some (eac3Reply 4 0 .independent true) ∧
      (eac3Reply 4 0 .independent true).frameSize.toNat ≤ (frame 0 fA).len ∧
      (aggregate 24).offset.toNat + (eac3Reply 4 0 .independent true).frameSize.toNat ≤ (aggregate 24).cap.toNat ∧
      EntersBranch (eac3Reply 4 0 .independent true) ∧
      blocksAfter (eac3Reply 4 0 .independent true) (aggregate 24).eac3Blocks ≠ 6) ∧
    (Legal (session .eac3 true) ∧ (session .eac3 true).bufAvail = true ∧
      (opened 24576 6144 (frame 0 fA) (session .eac3 true)).offset.toNat + 8 ≤
        (opened 24576 6144 (frame 0 fA) (session .eac3 true)).cap.toNat) := by
  exact ⟨⟨.inr ⟨rfl, rfl, rfl, rfl⟩, aggregate_legal.2, by decide⟩, session_legal _ _, by decide⟩

/-- The count that reaches 6, and a frame outside the branch. -/
theorem witness_Eac3FrameClosesTheBurst :
    Legal (withReply fA (some (eac3Reply 2 0 .ac3Convert true)) (aggregate 24)) ∧
    EntersBranch (eac3Reply 2 0 .ac3Convert true) ∧
    blocksAfter (eac3Reply 2 0 .ac3Convert true) (aggregate 24).eac3Blocks = 6 ∧
    ¬ EntersBranch (eac3Reply 2 0 .dependent true) ∧ ¬ EntersBranch (eac3Reply 6 0 .independent true) ∧
    ¬ EntersBranch (eac3Reply 2 0 .independent false) ∧
    a52Reply (withReply fA (some (eac3Reply 2 0 .ac3Convert true)) (aggregate 24)).params fA =
      some (eac3Reply 2 0 .ac3Convert true) ∧
    (aggregate 24).offset.toNat + (eac3Reply 2 0 .ac3Convert true).frameSize.toNat ≤ (aggregate 24).cap.toNat :=
  ⟨aggregate_legal.2, by decide⟩

/-- EA6, EA7, and a frame of 8 bytes in an aggregate with 7 bytes of room. -/
theorem witness_Eac3RejectsFrames :
    (∀ h, a52Reply (withReply fA none (aggregate 24)).params fA = some h → 8 < h.frameSize.toNat) ∧
    a52Reply (withReply fA (some (eac3Reply 2 0 .independent true)) (session .eac3 true)).params fA =
      some (eac3Reply 2 0 .independent true) ∧
    ({ session .eac3 true with bufAvail := false } : State).burstActive = false ∧
    (aggregate 23).burstActive = true ∧ (eac3Reply 2 0 .independent true).frameSize.toNat ≤ (frame 0 fA).len ∧
    (opened 23 6144 (frame 0 fA) (aggregate 23)).cap.toNat <
      (opened 23 6144 (frame 0 fA) (aggregate 23)).offset.toNat +
        (eac3Reply 2 0 .independent true).frameSize.toNat := by
  refine ⟨fun h e => ?_, by decide⟩
  have : a52Reply (withReply fA none (aggregate 24)).params fA = none := by decide
  rw [this] at e
  cases e

/-- Three frames of two blocks (EA1 without its frame of another sub-stream) in a buffer they fill exactly. -/
def threeFrames : State :=
  { session .eac3 false with
    params := { State.reset.params with
      eac3Capacity := 32, a52Replies := [(fA, some (eac3Reply 2 0 .independent true))] }
    input := [processInput (frame 0 fA), processInput (frame 0 fA), processInput (frame 0 fA)] }

theorem witness_Eac3AggregateEmitsOneBurst :
    let frames := [frame 0 fA, frame 0 fA, frame 0 fA]
    let h := eac3Reply 2 0 .independent true
    let replies := [h, h, h]
    Legal threeFrames ∧ threeFrames.fault = false ∧ threeFrames.configured = true ∧ threeFrames.cfgCodec = .eac3 ∧
    threeFrames.burstActive = false ∧ threeFrames.input = frames.map processInput ++ [] ∧
    frames.map (fun f => a52Reply threeFrames.params f.data) = replies.map some ∧ (∀ f ∈ frames, f.wf) ∧
    (∀ q ∈ frames.zip replies, q.2.frameSize.toNat ≤ q.1.len) ∧
    (∀ h ∈ replies, EntersBranch h ∧ h.substreamId = 0) ∧
    8 + (replies.map fun h => imageSize h.frameSize.toNat).sum ≤ threeFrames.params.eac3Capacity.toNat ∧
    (∀ k < frames.length, ((replies.take k).map fun h => h.blocksPerSyncFrame.toNat).sum ≠ 6) ∧
    (replies.map fun h => h.blocksPerSyncFrame.toNat).sum = 6 :=
  ⟨inactive_legal (by decide) Memory.wf_nil rfl rfl rfl, rfl, rfl, rfl, rfl, rfl, by decide, by decide, by decide,
    by decide, by decide, by decide, by decide⟩

/-! DTS -/

/-- DT11 (the largest frame with a preamble), DT2, DT3 and DT12. -/
theorem witness_DtsFrameBecomesOneBurst :
    Runs (.process (frame 512 (0x7F :: List.replicate 2039 0))) (.processDts (frame 512 (0x7F :: List.replicate 2039 0)))
      (session .dts false) ∧
    DtsAccepts (session .dts false).params (frame 512 (0x7F :: List.replicate 2039 0)) 2040 512 ∧
    (true = true ↔ (frame 512 (0x7F :: List.replicate 2039 0)).data.head? = some (session .dts false).params.dtsMagic.1 ∨
      (frame 512 (0x7F :: List.replicate 2039 0)).data.head? = some (session .dts false).params.dtsMagic.2) ∧
    DtsAccepts (session .dts false).params (frame 1024 p8) 8 1024 ∧
    DtsAccepts (session .dts false).params (frame 2048 []) 0 2048 ∧
    DtsAccepts (withReply p8 (some (reply 4 1024)) (session .dts true)).params (frame 0 p8) 4 1024 := by
  refine ⟨.inr ⟨rfl, rfl, rfl, rfl⟩, ?_, ⟨fun _ => .inl rfl, fun _ => rfl⟩, ?_, ?_, ?_⟩
  · simp only [DtsAccepts, Frame.len, frame, List.length_cons, List.length_replicate]
    exact ⟨.inl (by decide), by decide⟩
  · exact ⟨.inl (by decide), by decide⟩
  · exact ⟨.inl (by decide), by decide⟩
  · exact ⟨.inr ⟨rfl, reply 4 1024, by decide, by decide⟩, by decide⟩

/-- DT7's size. -/
theorem witness_DtsFullFrameIsEmittedBare :
    Runs (.processDts (frame 512 (List.replicate 2048 0))) (.processDts (frame 512 (List.replicate 2048 0)))
      (session .dts false) ∧
    (session .dts false).buf.wf ∧ (session .dts false).burstActive = false ∧ (session .dts false).bufAvail = true ∧
    DtsAccepts (session .dts false).params (frame 512 (List.replicate 2048 0)) (512 * 4) 512 ∧
    (false = true ↔ (frame 512 (List.replicate 2048 0)).data.head? = some (session .dts false).params.dtsMagic.1 ∨
      (frame 512 (List.replicate 2048 0)).data.head? = some (session .dts false).params.dtsMagic.2) := by
  refine ⟨.inl rfl, Memory.wf_nil, rfl, rfl, ?_, fun h => (by cases h), fun h => ?_⟩
  rotate_left
  · have : (frame 512 (List.replicate 2048 0)).data.head? = some 0 := rfl
    rw [this] at h
    exact absurd h (by decide)
  simp only [DtsAccepts, Frame.len, frame, List.length_replicate]
  exact ⟨.inl (by decide), by decide⟩

/-- DT9 and DT10 (2041 and 2049 bytes), and DT16. -/
theorem witness_DtsRejectsFrames :
    (∀ size ns, ¬ DtsAccepts (session .dts false).params (frame 768 p8) size ns) ∧
    (∀ size ns, ¬ DtsAccepts (session .dts false).params (frame 512 (List.replicate 2041 0)) size ns) ∧
    (∀ size ns, ¬ DtsAccepts (session .dts false).params (frame 512 (List.replicate 2049 0)) size ns) ∧
    DtsAccepts (session .dts false).params (frame 512 p8) 8 512 ∧
    ({ session .dts false with bufAvail := false } : State).bufAvail = false := by
  have full : ∀ n size ns, (n = 2041 ∨ n = 2049) →
      ¬ DtsAccepts (session .dts false).params (frame 512 (List.replicate n 0)) size ns := by
    rintro n size ns hn ⟨⟨_, h1, h2⟩ | ⟨h0, _⟩, h3, h4⟩
    · have h1' : size = n := h1.trans List.length_replicate
      have h2' : ns = 512 := h2
      omega
    · exact absurd (show (512 : Word) = 0 from h0) (by decide)
  refine ⟨?_, fun size ns => full 2041 size ns (.inl rfl), fun size ns => full 2049 size ns (.inr rfl),
    ⟨.inl (by decide), by decide⟩, rfl⟩
  rintro size ns ⟨⟨_, _, h2⟩ | ⟨h0, _⟩, h3, _⟩
  · have h2' : ns = 768 := h2
    omega
  · exact absurd h0 (by decide)

/-! TrueHD -/

/-- A super-frame in progress before index `i`, written with zeros up to OFFSET. -/
def superFrame (i : Fin 24) (off : Nat) : State :=
  { session .truehd true with
    burstActive := true, cap := 61440, offset := BitVec.ofNat 16 off, trueHdIdx := i
    buf := Memory.write [] 8 (List.replicate (off - 8) 0) }

theorem superFrame_offset (i : Fin 24) {off : Nat} (h : off ≤ 61440) : (superFrame i off).offset.toNat = off := by
  show (BitVec.ofNat 16 off).toNat = off
  rw [BitVec.toNat_ofNat]
  omega

theorem superFrame_legal {i : Fin 24} {off : Nat} (h0 : 0 < i.val) (h1 : slotStart i.val ≤ off)
    (h2 : off ≤ slotStart i.val + i.val) : Legal (superFrame i off) := by
  have hb := slotStart_bounds i.isLt (by omega)
  have ho := superFrame_offset i (off := off) (by omega)
  have hc : (superFrame i off).cap.toNat = 61440 := rfl
  refine ⟨⟨by show defaultParams.wf; decide, Memory.wf_write Memory.wf_nil (by rw [List.length_replicate]; omega), fun _ => ?_⟩, fun _ => ?_⟩
  · rw [ho, hc]
    omega
  · refine ⟨fun _ => ⟨rfl, by omega, by omega, fun a ha h8 => ?_⟩, fun h => ?_, fun h => ?_, fun _ h => ?_, fun _ _ => ?_⟩
    · have : (superFrame i off).buf.read a = some 0 := by
        show (Memory.write [] 8 _).read a = _
        rw [read_write_zeros, if_pos (by omega)]
      rw [this]
      rfl
    · exact absurd h (by simp [superFrame])
    · simp [superFrame, session] at h
    · simp [superFrame, session] at h
    · rw [ho]
      exact ⟨rfl, rfl, h0, h1, h2⟩

/-- The bound of each of indices 0, 11, 12 and 22 (T3, T7): no padding is left. -/
theorem witness_TrueHdFrameFillsItsSlot :
    Runs (.process (frame 0 (List.replicate 2532 1))) (.processTrueHd (frame 0 (List.replicate 2532 1)))
      (session .truehd true) ∧
    Legal (session .truehd true) ∧ (session .truehd true).fault = false ∧ (session .truehd true).cfgCodec = .truehd ∧
    (session .truehd true).bufAvail = true ∧ (session .truehd true).trueHdIdx.val ≠ 23 ∧
    (frame 0 (List.replicate 2532 1)).len + matReserve (session .truehd true).trueHdIdx.val ≤ 2560 ∧
    (Legal (superFrame 11 28160) ∧ (frame 0 (List.replicate 2556 1)).len + matReserve 11 ≤ 2560) ∧
    (Legal (superFrame 12 30716) ∧ (frame 0 (List.replicate 2552 1)).len + matReserve 12 ≤ 2560) ∧
    (Legal (superFrame 22 56342) ∧ (frame 0 (List.replicate 2560 1)).len + matReserve 22 ≤ 2560) := by
  simp only [Frame.len, frame, List.length_replicate]
  exact ⟨.inr ⟨rfl, rfl, rfl, rfl⟩, session_legal _ _, rfl, rfl, rfl, by decide, by decide,
    ⟨superFrame_legal (by decide) (by decide) (by decide), by decide⟩,
    ⟨superFrame_legal (by decide) (by decide) (by decide), by decide⟩,
    superFrame_legal (by decide) (by decide) (by decide), by decide⟩

/-- The largest last frame (T7), and the end marker that just fits after eight odd frames (T9). -/
theorem witness_TrueHdLastFrameCompletesTheBurst :
    (Legal (superFrame 23 58880) ∧ (superFrame 23 58880).trueHdIdx = 23 ∧
      (frame 0 (List.replicate 2536 1)).len ≤ 2536 ∧
      (superFrame 23 58880).offset.toNat + imageSize (frame 0 (List.replicate 2536 1)).len +
        (2536 - (frame 0 (List.replicate 2536 1)).len) + 16 ≤ 61440) ∧
    (Legal (superFrame 23 58888) ∧
      (superFrame 23 58888).offset.toNat + imageSize (frame 0 [1, 2, 3, 4]).len +
        (2536 - (frame 0 [1, 2, 3, 4]).len) + 16 ≤ 61440) := by
  rw [superFrame_offset 23 (by decide), superFrame_offset 23 (by decide)]
  simp only [Frame.len, frame, List.length_replicate]
  exact ⟨⟨superFrame_legal (by decide) (by decide) (by decide), rfl, by decide, by decide⟩,
    superFrame_legal (by decide) (by decide) (by decide), by decide⟩

/-- T10: nine odd frames. -/
theorem witness_TrueHdEndMarkerWithoutRoomFaults :
    Legal (superFrame 23 58889) ∧ (superFrame 23 58889).trueHdIdx = 23 ∧ (frame 0 [1, 2, 3, 4]).len ≤ 2536 ∧
    61440 < (superFrame 23 58889).offset.toNat + imageSize (frame 0 [1, 2, 3, 4]).len +
      (2536 - (frame 0 [1, 2, 3, 4]).len) + 16 := by
  rw [superFrame_offset 23 (by decide)]
  exact ⟨superFrame_legal (by decide) (by decide) (by decide), rfl, by decide, by decide⟩

/-- T10 answers WriterFault. -/
theorem witness_WriterFaultOnlyForOddTrueHdFrames :
    Legal (superFrame 23 58889) ∧ (superFrame 23 58889).fault = false ∧ (superFrame 23 58889).configured = true ∧
    ∃ t, exec (.process (frame 0 [1, 2, 3, 4])) (superFrame 23 58889) = .next t ∧
      t.rsp = some (.error .writerFault) := by
  have hl : Legal (superFrame 23 58889) := superFrame_legal (by decide) (by decide) (by decide)
  obtain ⟨ha, m, off, e, ho, -⟩ := last_slot_stores (f := frame 0 [1, 2, 3, 4]) hl rfl (.inr rfl) rfl (by decide)
  rw [superFrame_offset 23 (by decide)] at ho
  refine ⟨hl, rfl, rfl, raiseError .writerFault { superFrame 23 58889 with buf := m, offset := off }, ?_, rfl⟩
  have hr : Runs (.process (frame 0 [1, 2, 3, 4])) (.processTrueHd (frame 0 [1, 2, 3, 4])) (superFrame 23 58889) :=
    .inr ⟨rfl, rfl, rfl, rfl⟩
  rw [runs_processTrueHd hr, e, slotEnd_last rfl]
  rw [writeBytes_violation (.inr ?_)]
  · rfl
  · show (61440 : Half).toNat < off.toNat + _
    rw [ho]
    simp only [Vector.length_toList]
    decide

/-- T11 at index 0, T4, and T7 (index 5 with 2562 bytes). -/
theorem witness_TrueHdRejectsFrames :
    (Legal { session .mlp true with bufAvail := false } ∧
      ({ session .mlp true with bufAvail := false } : State).burstActive = false ∧
      ({ session .mlp true with bufAvail := false } : State).bufAvail = false) ∧
    (Legal (session .truehd true) ∧ (session .truehd true).bufAvail = true ∧
      2560 < (frame 0 (List.replicate 2533 0)).len + matReserve 0) ∧
    (Legal (superFrame 5 12800) ∧ (superFrame 5 12800).burstActive = true ∧
      2560 < (frame 0 (List.replicate 2562 0)).len + matReserve 5) := by
  simp only [Frame.len, frame, List.length_replicate]
  exact ⟨⟨inactive_legal (by decide) Memory.wf_nil rfl rfl rfl, rfl, trivial⟩, ⟨session_legal _ _, rfl, by decide⟩,
    superFrame_legal (by decide) (by decide) (by decide), rfl, by decide⟩

/-- The frame of index 12, which writes the middle marker. -/
theorem witness_TrueHdEvenFramesKeepTheCadence_middle :
    Legal (superFrame 12 30716) ∧ (superFrame 12 30716).offset.toNat = slotStart 12 ∧
      (superFrame 12 30716).trueHdIdx.val = 12 ∧ (frame 0 [1, 2]).len % 2 = 0 ∧
      ∃ t, exec (.process (frame 0 [1, 2])) (superFrame 12 30716) = .next t ∧ t.rsp = some .pending := by
  have hs := superFrame_offset 12 (off := 30716) (by decide)
  have hm : (matMarker (superFrame 12 30716).params (superFrame 12 30716).trueHdIdx.val).length = 12 :=
    Vector.length_toList
  have hc : (superFrame 12 30716).cap.toNat = 61440 := rfl
  have hlen : imageSize (frame 0 [1, 2]).len = 2 := rfl
  have hn : (frame 0 [1, 2]).len = 2 := rfl
  have hk : matReserve (superFrame 12 30716).trueHdIdx.val = 8 := rfl
  have hl : Legal (superFrame 12 30716) := superFrame_legal (by decide) (by decide) (by decide)
  refine ⟨hl, hs, rfl, rfl, ?_⟩
  have hrun : Runs (.process (frame 0 [1, 2])) (.processTrueHd (frame 0 [1, 2])) (superFrame 12 30716) :=
    .inr ⟨rfl, rfl, rfl, rfl⟩
  obtain ⟨m, off, e1, ho, hw, -⟩ := slotMarker_stores (s := superFrame 12 30716) rfl hl.1.2.1 (by omega)
  obtain ⟨m', off', e2, -⟩ := slotBody_stores (s := { superFrame 12 30716 with buf := m, offset := off })
    (f := frame 0 [1, 2]) rfl hw (by simp only [hk, hn]; decide) (by simp only [hk, hn, hc, ho, hs, hm]; decide)
  rw [runs_processTrueHd hrun, processTrueHd, trueHdOpen_opened (.inl rfl), opened_active rfl]
  simp only [Micro.andThen_done, e1]
  rw [e2, slotEnd_next (show (12 : Fin 24).val ≠ 23 by decide)]
  exact ⟨_, rfl, rfl⟩

/-- The first frame, and the last one with the burst it completes. -/
theorem witness_TrueHdEvenFramesKeepTheCadence :
    (∃ t, Legal (session .truehd true) ∧ (frame 0 [1, 2]).len % 2 = 0 ∧
      exec (.process (frame 0 [1, 2])) (session .truehd true) = .next t ∧ t.rsp = some .pending) ∧
    ∃ t, Legal (superFrame 23 58880) ∧ (superFrame 23 58880).offset.toNat = slotStart 23 ∧
      (superFrame 23 58880).trueHdIdx.val = 23 ∧ (frame 0 [1, 2]).len ≤ 2536 ∧
      exec (.process (frame 0 [1, 2])) (superFrame 23 58880) = .next t := by
  constructor
  · have h : next? (exec (.process (frame 0 [1, 2])) (session .truehd true)) (fun t => t.rsp) =
        some (some .pending) := by decide +kernel
    obtain ⟨t, ht, hr⟩ := next_of h
    exact ⟨t, session_legal _ _, rfl, ht, hr⟩
  · have hl : Legal (superFrame 23 58880) := superFrame_legal (by decide) (by decide) (by decide)
    have hs := superFrame_offset 23 (off := 58880) (by decide)
    obtain ⟨ha, m, off, e, ho, hw, hr⟩ := last_slot_stores (f := frame 0 [1, 2]) hl rfl (.inr rfl) rfl (by decide)
    have hlen : imageSize (frame 0 [1, 2]).len = 2 := rfl
    have hn : (frame 0 [1, 2]).len = 2 := rfl
    rw [hs, hlen, hn] at ho
    have h16 : imageSize ((superFrame 23 58880).params.matEnd.toList).length = 16 := by
      rw [Vector.length_toList]
      rfl
    have hi := (hl.2 rfl).1 rfl
    obtain ⟨t, m', out, e1, e2, hb, -⟩ := write_finalize (s := { superFrame 23 58880 with buf := m, offset := off }) hw
      rfl dtTrueHd multBytes (superFrame 23 58880).cfgOutBe
      (superFrame 23 58880).params.matEnd.toList
      (by
        rw [h16]
        show off.toNat + 16 ≤ (61440 : Half).toNat
        rw [ho]
        decide)
      (.inr (by
        show 8 ≤ off.toNat
        omega))
      (fun a h1 h2 => by
        show (m.read a).isSome = true
        rw [hr]
        have h3 : a < off.toNat := h1
        split_ifs with h4 h5
        · rfl
        · rfl
        · exact hi.2.2.2 a (by omega) (h2.resolve_left (by decide)))
      0 0
    have hb' : t.eac3Blocks = 0 := hb
    have ht : { t with eac3Blocks := 0, trueHdIdx := 0 } = { t with trueHdIdx := 0 } := by rw [← hb']
    rw [ht] at e2
    have hrun : Runs (.process (frame 0 [1, 2])) (.processTrueHd (frame 0 [1, 2])) (superFrame 23 58880) :=
      .inr ⟨rfl, rfl, rfl, rfl⟩
    have he : ∃ t, exec (.process (frame 0 [1, 2])) (superFrame 23 58880) = .next t := by
      rw [runs_processTrueHd hrun, e, slotEnd_last rfl]
      simp only
      rw [e1]
      simp only [Micro.andThen_done]
      rw [e2]
      exact ⟨_, rfl⟩
    obtain ⟨u, hu⟩ := he
    exact ⟨u, hl, hs, rfl, by decide, hu⟩

/-- T5: 24 frames of 2532 bytes. -/
theorem witness_TrueHdSuperFrameHasItsMarkersAndPayloads :
    let frames := List.replicate 24 (frame 0 (List.replicate 2532 1))
    let s := { session .truehd true with input := frames.map processInput ++ [] }
    Legal s ∧ s.fault = false ∧ s.configured = true ∧ (s.cfgCodec = .mlp ∨ s.cfgCodec = .truehd) ∧
    s.burstActive = false ∧ frames.length = 24 ∧ (∀ f ∈ frames, f.len = 2532) ∧ 2532 % 2 = 0 ∧ 2532 ≤ 2532 ∧
    s.input = frames.map processInput ++ [] := by
  refine ⟨inactive_legal (by show defaultParams.wf; decide) Memory.wf_nil rfl rfl rfl, rfl, rfl, .inr rfl, rfl,
    List.length_replicate, fun f hf => ?_, by decide, by decide, rfl⟩
  rw [List.eq_of_mem_replicate hf]
  exact List.length_replicate

/-! The writer port -/

theorem witness_AllocReservesTheBuffer :
    8 ≤ (8 : Half).toNat ∧ (State.reset.burstActive = false ∧ State.reset.bufAvail = true) ∧
    (writer true 8).burstActive = true ∧ ({ State.reset with bufAvail := false } : State).bufAvail = false := by decide

/-- W15: the room is used up exactly, the promoted byte included. -/
theorem witness_WriteStoresTheImage :
    (writer true 12).burstActive = true ∧
    (writer true 12).offset.toNat + imageSize [1, 2, (3 : Byte)].length ≤ (writer true 12).cap.toNat := by decide

theorem witness_PadStoresZeros :
    (writer true 12).burstActive = true ∧
    (writer true 12).offset.toNat + (4 : Word).toNat ≤ (writer true 12).cap.toNat := by decide

/-- With a preamble at OFFSET 12, with one below OFFSET 8, and bare after a rewind. -/
theorem witness_FinalizeEmitsTheBurst :
    (MachineInv { writer true 12 with buf := cellsAt 8 [1, 2, 3, 4] } ∧
      ∀ a < 12, (0x0301 : Half) = 0 ∨ 8 ≤ a → (Memory.read (cellsAt 8 [1, 2, 3, 4]) a).isSome = true) ∧
    (MachineInv (writer true 4) ∧
      ∀ a < (writer true 4).offset.toNat, (1 : Half) = 0 ∨ 8 ≤ a → ((writer true 4).buf.read a).isSome = true) ∧
    (MachineInv { writer true 2 with buf := cellsAt 0 [1, 2] } ∧
      ∀ a < 2, (0 : Half) = 0 ∨ 8 ≤ a → (Memory.read (cellsAt 0 [1, 2]) a).isSome = true) := by decide

/-- The last byte below OFFSET, and the first byte of a bare burst. -/
theorem witness_FinalizeStopsOnAnUnwrittenByte :
    (MachineInv { writer true 9 with buf := [] } ∧ (8 < 9 ∧ 8 ≤ 8 ∧ (writer true 9).buf.read 8 = none)) ∧
    (MachineInv (writer true 1) ∧ 0 < (writer true 1).offset.toNat ∧ (writer true 1).buf.read 0 = none) := by decide

theorem witness_RewindSetsOffsetToZero : (writer true 8).burstActive = true := rfl

/-- Each of the violations of R140. -/
theorem witness_ContractViolationSetsFaultOnly :
    State.reset.burstActive = false ∧
    (writer true 15).cap.toNat < (writer true 15).offset.toNat + imageSize [(1 : Byte)].length ∧
    (writer true 15).cap.toNat < (writer true 15).offset.toNat + (2 : Word).toNat := by decide

theorem witness_UnusedMicroOperationsAreRefused :
    (State.reset.withFetchWord 8 6).input = .req (.wop 6 WopOperands.zero) true :: [] ∧ 6 ≤ (6 : Byte).toNat ∧
    6 ≤ (0xFF : Byte).toNat ∧ (0 : BitVec 4) ≠ 1 ∧ (0 : BitVec 4) ≠ 8 ∧ (9 : BitVec 4) ≠ 1 ∧ (9 : BitVec 4) ≠ 8 := by
  decide

/-- The first pair and the trailing odd byte of three bytes. -/
theorem witness_WordSequenceIsTheSameInBothFormats :
    2 * 0 + 1 < [1, 2, (3 : Byte)].length ∧ 2 * 1 + 1 = [1, 2, (3 : Byte)].length := by decide

end Sys2Proof.Tests
end

section
/-! PROOFS. The scope of spec/00_scope.md: what one step does (R11), and that every step, also one of the writer port,
keeps the invariant of the machine and the width of timestamps (R6, R7, R23, R32). Both invariants speak of the writer's
state only, so the walk through the instructions is made once, for any invariant that the micro-operations keep. -/

namespace Sys2Proof.Machine

/-! ### What one step does -/

theorem step_idle {s : State} (h : s.input = []) : step s = .next s := by
  simp only [step, h]

theorem step_rst {s : State} {rest : List Input} (h : s.input = .rst :: rest) : step s = .next (hardReset rest s) := by
  simp only [step, h]

theorem step_decoded {s : State} {e : Encoded} {avail : Bool} {rest : List Input} {i : Instr}
    (h : s.input = .req e avail :: rest) (hd : decode e = .ok i) : step s = exec i (accept avail rest s) := by
  simp only [step, h, hd]

theorem step_undecoded {s : State} {e : Encoded} {avail : Bool} {rest : List Input} {err : DecodeError}
    (h : s.input = .req e avail :: rest) (hd : decode e = .error err) :
    step s = answerUndecoded err (accept avail rest s) := by
  simp only [step, h, hd]

/-- A transaction that decodes to no instruction is answered with the state as it was, but for the response or the
port's result (R97, R100, U11). -/
theorem answerUndecoded_next {e : DecodeError} {s t : State} (hn : answerUndecoded e s = .next t) :
    t = respond (.error .illegalCommand) s ∨ t = rejectMicro s := by
  cases e with
  | illegalOpc | reservedBits | unusedArgument => exact .inl (Host.Outcome.next.inj hn).symm
  | wopReservedBits | wopUnusedCode => exact .inr (Host.Outcome.next.inj hn).symm
  | descriptorLength | writeLength => cases hn

/-- Settles O5: `accept` is the state that the statement writes out. -/
theorem stepRunsTheDecodedInstruction : Obligations.StepRunsTheDecodedInstruction := by
  unfold Obligations.StepRunsTheDecodedInstruction
  intro s e avail rest i hin hd
  exact step_decoded hin hd

/-! ### The reset state -/

theorem defaultParams_wf : defaultParams.wf := by decide

/-- The `rst` input gives the invariant of the machine for any legal parameters (R260, R261). -/
theorem hardReset_inv {s : State} (h : s.params.wf) (rest : List Input) : MachineInv (hardReset rest s) :=
  ⟨h, Memory.wf_nil, fun ha => absurd ha Bool.false_ne_true⟩

theorem reset_inv : MachineInv State.reset := hardReset_inv (s := State.reset) defaultParams_wf []

/-- With no burst in progress and both counters 0, every clause of R35 holds. -/
theorem sessionInv_of_inactive {s : State} (ha : s.burstActive = false) (he : s.eac3Blocks = 0)
    (hi : s.trueHdIdx = 0) : SessionInv s := by
  have idle : s.burstActive ≠ true := by simp [ha]
  exact fun _ => ⟨fun h => absurd h idle, fun _ => ⟨he, hi⟩, fun _ => ha, fun h => absurd h idle,
    fun h => absurd h idle⟩

/-- After the `rst` input the timestamps are 0 and no record is held, whatever TS_WIDTH is. -/
theorem hardReset_timestampsFit (rest : List Input) (s : State) : TimestampsFit (hardReset rest s) :=
  ⟨Nat.two_pow_pos _, Nat.two_pow_pos _, fun _ hb => nomatch hb⟩

/-- Settles O9: at reset no burst is in progress, both counters are 0 and the timestamps are 0. -/
theorem resetStateIsLegal : Obligations.ResetStateIsLegal :=
  ⟨⟨reset_inv, sessionInv_of_inactive rfl rfl rfl⟩, hardReset_timestampsFit [] State.reset⟩

/-! ### Invariants of the writer -/

/-- `s` with everything but the parameters, the burst and OUT at its reset value: the part of the state that an
invariant of the writer may speak of. -/
def writerPart (s : State) : State :=
  { State.reset with
    params := s.params
    out := s.out
    burstActive := s.burstActive
    cap := s.cap
    offset := s.offset
    burstPts := s.burstPts
    burstDts := s.burstDts
    burstNSamples := s.burstNSamples
    buf := s.buf }

/-- A capacity with which ALLOC is run: at least the preamble (R131), or the parameter EAC3_CAPACITY (R170), of which
only legal parameters say that it is. -/
abbrev AllocCapacity (p : Params) (cap : Half) : Prop := 8 ≤ cap.toNat ∨ cap = p.eac3Capacity

/-- The three sample counts that have a data-type code make capacities of 2048, 4096 and 8192 bytes (R181). -/
theorem dts_allocCapacity {ns : Nat} {dt : Half} (h : dtDts ns = some dt) (p : Params) :
    AllocCapacity p (BitVec.ofNat 16 (ns * 4)) := by
  have count : ns = 512 ∨ ns = 1024 ∨ ns = 2048 := by
    by_contra other
    simp [dtDts_of_other ns other] at h
  rcases count with rfl | rfl | rfl <;> exact .inl (by decide)

/-- A sequence of micro-operations that ends in `I`, performed or raised. -/
abbrev Micro.Keeps (I : State → Prop) (m : Micro) : Prop := m.Ends I (fun _ => I)

/-- `I` speaks of the writer's part of the state alone, and each micro-operation, a flush, the `rst` input and the
emptying of OUT keep it. -/
structure WriterInvariant (I : State → Prop) : Prop where
  writerPart_iff : ∀ s, I (writerPart s) ↔ I s
  emptyOut : ∀ {s}, I s → I { s with out := none }
  alloc : ∀ {s cap}, I s → AllocCapacity s.params cap → ∀ pts dts ns, (allocBurst cap pts dts ns s).Keeps I
  write : ∀ {s}, I s → ∀ data srcBe, (writeBytes data srcBe s).Keeps I
  pad : ∀ {s}, I s → ∀ size, (padZeros size s).Keeps I
  finalize : ∀ {s}, I s → ∀ dt mult, (finalizeBurst dt mult s).Keeps I
  rewind : ∀ {s}, I s → (rewindBurst s).Keeps I
  flush : ∀ {s}, I s → I (flushState s)
  rst : ∀ {s}, I s → ∀ rest, I (hardReset rest s)

theorem machineInv_writerInvariant : WriterInvariant MachineInv where
  writerPart_iff _ := Iff.rfl
  emptyOut h := h
  alloc {s cap} h hc := allocBurst_inv h <| by
    obtain ⟨⟨hmin, -⟩, -⟩ := h
    rcases hc with hc | rfl
    · exact hc
    · exact hmin.le
  write := writeBytes_inv
  pad := padZeros_inv
  finalize := finalizeBurst_inv
  rewind := rewindBurst_inv
  flush h := flushState_inv h.1
  rst h := hardReset_inv h.1

theorem timestampsFit_writerInvariant : WriterInvariant TimestampsFit where
  writerPart_iff _ := Iff.rfl
  emptyOut := fun ⟨hpts, hdts, _⟩ => ⟨hpts, hdts, fun _ hb => nomatch hb⟩
  alloc h _ := allocBurst_timestampsFit h _
  write := writeBytes_timestampsFit
  pad := padZeros_timestampsFit
  finalize := finalizeBurst_timestampsFit
  rewind := rewindBurst_timestampsFit
  flush := flushState_timestampsFit
  rst _ rest := hardReset_timestampsFit rest _

section
variable {I : State → Prop} (K : WriterInvariant I) {s t : State}
include K

/-! ### The four encapsulators keep what the micro-operations keep -/

/-- What stands outside the writer's part may change: responses, counters, configuration, FAULT, inputs. -/
theorem WriterInvariant.of_same (hs : I s) (h : writerPart t = writerPart s) : I t :=
  (K.writerPart_iff t).1 (h ▸ (K.writerPart_iff s).2 hs)

theorem WriterInvariant.respond_keeps (hs : I s) (r : Response) : I (respond r s) := K.of_same hs rfl

/-- The end of every emitted burst: FINALIZE and COMPLETE (R160, R170, R180, R190). -/
theorem WriterInvariant.finalize_complete_keeps (hs : I s) (dt : Half) (mult : BitVec 4) :
    ((finalizeBurst dt mult s).andThen fun u => .done (respond .complete u)).Keeps I :=
  Micro.ends_andThen (K.finalize hs dt mult) fun _ hu => K.respond_keeps hu _

theorem WriterInvariant.processAc3_keeps (hs : I s) (f : Frame) : (processAc3 f s).Keeps I := by
  unfold processAc3
  cases ac3Size s.params f with
  | none => exact hs
  | some size =>
    simp only
    split_ifs
    · exact hs
    · exact hs
    · refine Micro.ends_andThen (K.alloc hs (.inl (by decide)) _ _ _) fun t ht => ?_
      refine Micro.ends_andThen (K.write ht _ _) fun u hu => ?_
      exact K.finalize_complete_keeps hu _ _

theorem WriterInvariant.processDts_keeps (hs : I s) (f : Frame) : (processDts f s).Keeps I := by
  unfold processDts
  cases dtsSize s.params f with
  | none => exact hs
  | some q =>
    obtain ⟨size, ns⟩ := q
    simp only
    cases hdt : dtDts ns with
    | none => exact hs
    | some dt =>
      simp only
      split_ifs
      · exact hs
      · refine Micro.ends_andThen (K.alloc hs (dts_allocCapacity hdt _) _ _ _) fun t ht => ?_
        refine Micro.ends_andThen (P := I) ?_ fun u hu => ?_
        · split_ifs
          · exact K.rewind ht
          · exact ht
        · refine Micro.ends_andThen (K.write hu _ _) fun v hv => ?_
          exact K.finalize_complete_keeps hv _ _

theorem WriterInvariant.eac3Open_keeps (hs : I s) (f : Frame) : (eac3Open f s).Keeps I := by
  unfold eac3Open
  split_ifs
  · exact hs
  · exact K.alloc hs (.inr rfl) _ _ _

theorem WriterInvariant.eac3Count_keeps (hs : I s) (h : HeaderReply) : (eac3Count h s).Keeps I := by
  unfold eac3Count eac3Close
  split_ifs
  · exact K.of_same hs rfl
  · refine K.finalize_complete_keeps ?_ _ _
    exact K.of_same hs rfl
  · refine K.finalize_complete_keeps ?_ _ _
    exact K.of_same hs rfl

theorem WriterInvariant.processEac3_keeps (hs : I s) (f : Frame) : (processEac3 f s).Keeps I := by
  unfold processEac3
  cases a52Reply s.params f.data with
  | none => exact hs
  | some h =>
    simp only
    split_ifs
    · exact hs
    · refine Micro.ends_andThen (K.eac3Open_keeps hs f) fun t ht => ?_
      split_ifs
      · exact ht
      · exact Micro.ends_andThen (K.write ht _ _) fun u hu => K.eac3Count_keeps hu h

theorem WriterInvariant.trueHdOpen_keeps (hs : I s) (f : Frame) : (trueHdOpen f s).Keeps I := by
  unfold trueHdOpen
  split_ifs
  · exact hs
  · exact K.alloc hs (.inl (by decide)) _ _ _

theorem WriterInvariant.slotMarker_keeps (hs : I s) : (slotMarker s).Keeps I := by
  unfold slotMarker writeMarker
  split_ifs
  · exact K.write hs _ _
  · exact K.write hs _ _
  · exact hs

theorem WriterInvariant.slotEnd_keeps (hs : I s) : (slotEnd s).Keeps I := by
  unfold slotEnd writeMarker
  split_ifs
  · refine Micro.ends_andThen (K.write hs _ _) fun t ht => ?_
    refine K.finalize_complete_keeps ?_ _ _
    exact K.of_same ht rfl
  · exact K.of_same hs rfl

theorem WriterInvariant.slotBody_keeps (hs : I s) (f : Frame) : (slotBody f s).Keeps I := by
  unfold slotBody
  split_ifs
  · exact hs
  · refine Micro.ends_andThen (K.write hs _ _) fun t ht => ?_
    exact Micro.ends_andThen (K.pad ht _) fun u hu => K.slotEnd_keeps hu

theorem WriterInvariant.processTrueHd_keeps (hs : I s) (f : Frame) : (processTrueHd f s).Keeps I := by
  unfold processTrueHd
  refine Micro.ends_andThen (K.trueHdOpen_keeps hs f) fun t ht => ?_
  exact Micro.ends_andThen (K.slotMarker_keeps ht) fun u hu => K.slotBody_keeps hu f

/-! ### Every instruction and every step keeps it -/

theorem WriterInvariant.finishCommand_keeps {m : Micro} (hm : m.Keeps I) (hn : finishCommand m = .next t) : I t :=
  Machine.finishCommand_keeps (fun _ _ hu => K.respond_keeps (K.flush hu) _) (fun _ hu => K.of_same hu rfl) hm hn

theorem WriterInvariant.finishMicro_keeps {m : Micro} (hm : m.Keeps I) (hn : finishMicro m = .next t) : I t :=
  Machine.finishMicro_keeps (fun _ _ _ hu => K.of_same hu rfl) hm hn

/-- DISCARD is a flush but for the two counters (R136, R212). -/
theorem WriterInvariant.discardBurst_keeps (hs : I s) : I (discardBurst s) := K.of_same (K.flush hs) rfl

theorem WriterInvariant.setupSession_keeps (hs : I s) (codec fmt : Byte) : I (setupSession codec fmt s) := by
  unfold setupSession
  split
  · exact K.of_same (K.flush hs) rfl
  · exact K.of_same (K.flush hs) rfl

theorem WriterInvariant.execSetup_keeps {codec fmt : Byte} (hs : I s) (hn : execSetup codec fmt s = .next t) : I t := by
  unfold execSetup at hn
  split_ifs at hn
  · obtain rfl := Host.Outcome.next.inj hn
    exact K.respond_keeps hs _
  · obtain rfl := Host.Outcome.next.inj hn
    exact K.setupSession_keeps hs codec fmt

/-- The four operations, run alone or by PROCESS. -/
theorem WriterInvariant.runs_keeps {i op : Instr} {f : Frame}
    (ho : op = .processAc3 f ∨ op = .processEac3 f ∨ op = .processDts f ∨ op = .processTrueHd f)
    (hr : Runs i op s) (hs : I s) (hn : exec i s = .next t) : I t := by
  rcases ho with rfl | rfl | rfl | rfl
  · exact K.finishCommand_keeps (K.processAc3_keeps hs f) (runs_processAc3 hr ▸ hn)
  · exact K.finishCommand_keeps (K.processEac3_keeps hs f) (runs_processEac3 hr ▸ hn)
  · exact K.finishCommand_keeps (K.processDts_keeps hs f) (runs_processDts hr ▸ hn)
  · exact K.finishCommand_keeps (K.processTrueHd_keeps hs f) (runs_processTrueHd hr ▸ hn)

theorem WriterInvariant.execProcess_keeps {f : Frame} (hs : I s) (hn : exec (.process f) s = .next t) : I t := by
  by_cases hf : s.fault = true
  · obtain rfl : respond (.error .writerFault) s = t := by simpa [exec, execProcess, hf] using hn
    exact K.respond_keeps hs _
  · by_cases hc : s.configured = true
    · obtain ⟨op, ho, hr⟩ := process_runs (by simpa using hf) hc f
      exact K.runs_keeps ho hr hs hn
    · obtain rfl : respond (.error .unsupportedConfiguration) s = t := by
        simpa [exec, execProcess, hf, hc] using hn
      exact K.respond_keeps hs _

theorem WriterInvariant.execAlloc_keeps {cap : Half} {pts dts : Timestamp} {ns : Word} (hs : I s)
    (hn : execAlloc cap pts dts ns s = .next t) : I t := by
  unfold execAlloc at hn
  split_ifs at hn with hc
  · obtain rfl := Host.Outcome.next.inj hn
    exact K.of_same hs rfl
  · exact K.finishMicro_keeps (K.alloc hs (.inl (Nat.le_of_not_lt hc)) _ _ _) hn

theorem WriterInvariant.execFinalize_keeps {dt : Half} {mult : BitVec 4} (hs : I s)
    (hn : execFinalize dt mult s = .next t) : I t := by
  unfold execFinalize at hn
  split_ifs at hn
  · obtain rfl := Host.Outcome.next.inj hn
    exact K.of_same hs rfl
  · exact K.finishMicro_keeps (K.finalize hs dt mult) hn

theorem WriterInvariant.exec_keeps {i : Instr} (hs : I s) (hn : exec i s = .next t) : I t := by
  cases i with
  | setup codec fmt => exact K.execSetup_keeps hs hn
  | process f => exact K.execProcess_keeps hs hn
  | processAc3 f => exact K.runs_keeps (.inl rfl) (.inl rfl) hs hn
  | processEac3 f => exact K.runs_keeps (.inr (.inl rfl)) (.inl rfl) hs hn
  | processDts f => exact K.runs_keeps (.inr (.inr (.inl rfl))) (.inl rfl) hs hn
  | processTrueHd f => exact K.runs_keeps (.inr (.inr (.inr rfl))) (.inl rfl) hs hn
  | flush =>
    obtain rfl := Host.Outcome.next.inj hn
    exact K.respond_keeps (K.flush hs) _
  | alloc cap pts dts ns => exact K.execAlloc_keeps hs hn
  | write data srcBe => exact K.finishMicro_keeps (K.write hs data srcBe) hn
  | pad size => exact K.finishMicro_keeps (K.pad hs size.toNat) hn
  | finalize dt mult => exact K.execFinalize_keeps hs hn
  | rewind => exact K.finishMicro_keeps (K.rewind hs) hn
  | discard => exact K.finishMicro_keeps (m := .done _) (K.discardBurst_keeps hs) hn

theorem WriterInvariant.accept_keeps (hs : I s) (avail : Bool) (rest : List Input) : I (accept avail rest s) :=
  K.of_same (K.emptyOut hs) rfl

theorem WriterInvariant.step_keeps (hs : I s) (hn : step s = .next t) : I t := by
  cases hin : s.input with
  | nil =>
    obtain rfl := Host.Outcome.next.inj (step_idle hin ▸ hn)
    exact hs
  | cons input rest =>
    cases input with
    | rst =>
      obtain rfl := Host.Outcome.next.inj (step_rst hin ▸ hn)
      exact K.rst hs rest
    | req e avail =>
      have taken := K.accept_keeps hs avail rest
      cases hd : decode e with
      | ok i => exact K.exec_keeps taken (step_decoded hin hd ▸ hn)
      | error err =>
        rcases answerUndecoded_next (step_undecoded hin hd ▸ hn) with rfl | rfl
        · exact K.respond_keeps taken _
        · exact K.of_same taken rfl

end

/-- Settles O14: the invariant of the machine is one of the writer, which every step keeps. -/
theorem everyStepKeepsTheMachineInvariant : Obligations.EveryStepKeepsTheMachineInvariant :=
  fun _ _ => machineInv_writerInvariant.step_keeps

/-- Settles O52: likewise, since only ALLOC and a flush write BURST_PTS and BURST_DTS, each through `tsBits`, and
FINALIZE copies them to the record. -/
theorem everyStepKeepsTimestampsInTheirWidth : Obligations.EveryStepKeepsTimestampsInTheirWidth :=
  fun _ _ => timestampsFit_writerInvariant.step_keeps

end Sys2Proof.Machine
end

section
/-! PROOFS. The family of spec/10_state.md: the reset state (R20, R260), what the steps never write (R25 to R28, R262),
what holds at every command boundary (R35), and that unspecified elements never matter (R20, U8). -/

namespace Sys2Proof.Machine

/-! ### The reset state -/

/-- Settles O8: `State.reset` is a literal, and no byte is listed in its BUF. -/
theorem stateAtReset : Obligations.StateAtReset :=
  ⟨rfl, rfl, rfl, rfl, rfl, Memory.read_nil, rfl, rfl, rfl⟩

/-! ### FINALIZE -/

/-- With a multiplier of its domain the transaction is FINALIZE itself (R134). -/
theorem exec_finalize {mult : BitVec 4} (h : mult = 1 ∨ mult = 8) (dt : Half) (s : State) :
    exec (.finalize dt mult) s = finishMicro (finalizeBurst dt mult s) :=
  if_neg fun ⟨h1, h8⟩ => h.elim h1 h8

/-- Settles O45: neither the preamble nor the fill covers the byte, so MemRead finds no value for it. -/
theorem finalizeStopsOnAnUnwrittenByte : Obligations.FinalizeStopsOnAnUnwrittenByte := by
  unfold Obligations.FinalizeStopsOnAnUnwrittenByte
  intro s dt mult a ⟨_, hbuf, hoff⟩ hactive hmult ha hdt hnone
  obtain ⟨_, hle⟩ := hoff hactive
  rw [exec_finalize hmult, finalizeBurst_unwritten hbuf hactive hle dt mult ha hdt hnone]
  rfl

/-! ### What no instruction but SETUP writes -/

/-- `t` has the parameters of `s`, and FAULT if `s` has it (R28, R262). -/
abbrev FaultSticks (s t : State) : Prop := t.params = s.params ∧ (s.fault = true → t.fault = true)

/-- Beside that, `t` has the configuration of `s` (R25 to R27). -/
abbrev ConfigurationKept (s t : State) : Prop :=
  FaultSticks s t ∧ t.configured = s.configured ∧ t.cfgCodec = s.cfgCodec ∧ t.cfgOutBe = s.cfgOutBe

theorem ConfigurationKept.refl (s : State) : ConfigurationKept s s := ⟨⟨rfl, id⟩, rfl, rfl, rfl⟩

/-- What differs in the burst and the counters only has the same configuration. -/
theorem SameSession.configurationKept {s t : State} (h : SameSession s t) : ConfigurationKept s t := by
  obtain ⟨hparams, -, -, -, -, -, hconf, hcodec, hbe, hfault, -⟩ := h.fields
  exact ⟨⟨hparams, fun hs => hfault.trans hs⟩, hconf, hcodec, hbe⟩

theorem AnsweredIn.configurationKept {s t : State} (h : AnsweredIn s t) : ConfigurationKept s t := by
  rcases h with ⟨u, hu, rfl⟩ | ⟨u, b, hu, rfl⟩
  · exact hu.configurationKept
  · exact hu.configurationKept

/-- A micro-operation that writes the burst alone keeps the configuration. -/
theorem Micro.keeps_configuration {m : Micro} {s : State} (hm : m.Ends (SameSession s) (RaisedIn s)) :
    m.Keeps (ConfigurationKept s) :=
  Micro.ends_mono hm (fun _ => SameSession.configurationKept) fun _ _ h => h.1.configurationKept

/-- FINALIZE writes the burst and OUT. -/
theorem finalizeBurst_keepsConfiguration (dt : Half) (mult : BitVec 4) (s : State) :
    (finalizeBurst dt mult s).Keeps (ConfigurationKept s) :=
  Micro.ends_mono (finalizeBurst_ends dt mult s) (fun _ ⟨_, h⟩ => h.configurationKept)
    fun _ _ h => h.1.configurationKept

/-- The entry of an error flushes or sets FAULT, and neither clears it (R233, R235). -/
theorem finishCommand_configurationKept {m : Micro} {s t : State} (hm : m.Keeps (ConfigurationKept s))
    (hn : finishCommand m = .next t) : ConfigurationKept s t :=
  finishCommand_keeps (fun _ _ hu => hu) (fun _ ⟨⟨hparams, _⟩, hcfg⟩ => ⟨⟨hparams, fun _ => rfl⟩, hcfg⟩) hm hn

/-- A violation on the writer port sets FAULT and nothing else (R140). -/
theorem finishMicro_configurationKept {m : Micro} {s t : State} (hm : m.Keeps (ConfigurationKept s))
    (hn : finishMicro m = .next t) : ConfigurationKept s t := by
  cases m with
  | done u =>
    obtain rfl := Host.Outcome.next.inj hn
    exact hm
  | raise k u =>
    obtain rfl := Host.Outcome.next.inj hn
    obtain ⟨⟨hparams, hfault⟩, hcfg⟩ := hm
    by_cases hk : k = .writerFault
    · subst hk
      exact ⟨⟨hparams, fun _ => rfl⟩, hcfg⟩
    · rw [setFault_other u k hk]
      exact ⟨⟨hparams, hfault⟩, hcfg⟩
  | unwritten => cases hn

/-- The four operations, run alone or by PROCESS. -/
theorem runs_configurationKept {i op : Instr} {s t : State} {f : Frame}
    (ho : op = .processAc3 f ∨ op = .processEac3 f ∨ op = .processDts f ∨ op = .processTrueHd f)
    (hr : Runs i op s) (hn : exec i s = .next t) : ConfigurationKept s t := by
  obtain ⟨m, he, hm⟩ := runs_ends ho hr
  exact finishCommand_configurationKept
    (Micro.ends_mono hm (fun _ => AnsweredIn.configurationKept) fun _ _ h => h.1.configurationKept) (he ▸ hn)

/-- PROCESS under FAULT (R215). -/
theorem exec_process_fault {s : State} (hf : s.fault = true) (f : Frame) :
    exec (.process f) s = .next (respond (.error .writerFault) s) := if_pos hf

/-- PROCESS before a successful SETUP (R214). -/
theorem exec_process_unconfigured {s : State} (hf : s.fault = false) (hc : s.configured = false) (f : Frame) :
    exec (.process f) s = .next (respond (.error .unsupportedConfiguration) s) := by
  simp [exec, execProcess, hf, hc]

/-- PROCESS is refused with no state change, or dispatched (R216). -/
theorem exec_process_cases (f : Frame) (s : State) :
    (∃ k, exec (.process f) s = .next (respond (.error k) s)) ∨ (s.fault = false ∧ s.configured = true) := by
  by_cases hf : s.fault = true
  · exact .inl ⟨_, exec_process_fault hf f⟩
  · rw [Bool.not_eq_true] at hf
    by_cases hc : s.configured = true
    · exact .inr ⟨hf, hc⟩
    · exact .inl ⟨_, exec_process_unconfigured hf (by simpa using hc) f⟩

theorem exec_configurationKept {i : Instr} {s t : State} (hn : exec i s = .next t)
    (hi : ∀ codec fmt, i ≠ .setup codec fmt) : ConfigurationKept s t := by
  have same := ConfigurationKept.refl s
  cases i with
  | setup codec fmt => exact absurd rfl (hi codec fmt)
  | process f =>
    rcases exec_process_cases f s with ⟨k, hk⟩ | ⟨hf, hc⟩
    · obtain rfl := Host.Outcome.next.inj (hk ▸ hn)
      exact same
    · obtain ⟨op, ho, hr⟩ := process_runs hf hc f
      exact runs_configurationKept ho hr hn
  | processAc3 f => exact runs_configurationKept (.inl rfl) (.inl rfl) hn
  | processEac3 f => exact runs_configurationKept (.inr (.inl rfl)) (.inl rfl) hn
  | processDts f => exact runs_configurationKept (.inr (.inr (.inl rfl))) (.inl rfl) hn
  | processTrueHd f => exact runs_configurationKept (.inr (.inr (.inr rfl))) (.inl rfl) hn
  | flush =>
    obtain rfl := Host.Outcome.next.inj hn
    exact same
  | alloc cap pts dts ns =>
    simp only [exec, execAlloc] at hn
    split_ifs at hn
    · obtain rfl := Host.Outcome.next.inj hn
      exact same
    · exact finishMicro_configurationKept (Micro.keeps_configuration (allocBurst_ends _ _ _ _ s)) hn
  | write data srcBe =>
    exact finishMicro_configurationKept (Micro.keeps_configuration (writeBytes_ends _ _ s)) hn
  | pad size => exact finishMicro_configurationKept (Micro.keeps_configuration (padZeros_ends _ s)) hn
  | finalize dt mult =>
    simp only [exec, execFinalize] at hn
    split_ifs at hn
    · obtain rfl := Host.Outcome.next.inj hn
      exact same
    · exact finishMicro_configurationKept (finalizeBurst_keepsConfiguration dt mult s) hn
  | rewind => exact finishMicro_configurationKept (Micro.keeps_configuration (rewindBurst_ends s)) hn
  | discard =>
    obtain rfl := Host.Outcome.next.inj hn
    exact same

/-- Settles O12: the operations write the burst and the counters, and what ends them a flush or FAULT. -/
theorem onlySetupWritesTheConfiguration : Obligations.OnlySetupWritesTheConfiguration := by
  unfold Obligations.OnlySetupWritesTheConfiguration
  intro s t i hn hi
  obtain ⟨-, hcfg⟩ := exec_configurationKept hn hi
  exact hcfg

/-! ### The parameters and FAULT -/

/-- SETUP is refused under FAULT, and writes neither FAULT nor the parameters otherwise (R210, R215). -/
theorem execSetup_faultSticks {codec fmt : Byte} {s t : State} (hn : execSetup codec fmt s = .next t) :
    FaultSticks s t := by
  unfold execSetup setupSession at hn
  split_ifs at hn
  · obtain rfl := Host.Outcome.next.inj hn
    exact ⟨rfl, id⟩
  · obtain rfl := Host.Outcome.next.inj hn
    split
    · exact ⟨rfl, id⟩
    · exact ⟨rfl, id⟩

theorem exec_faultSticks {i : Instr} {s t : State} (hn : exec i s = .next t) : FaultSticks s t := by
  by_cases hi : ∃ codec fmt, i = .setup codec fmt
  · obtain ⟨codec, fmt, rfl⟩ := hi
    exact execSetup_faultSticks hn
  · obtain ⟨kept, -⟩ := exec_configurationKept hn fun codec fmt he => hi ⟨codec, fmt, he⟩
    exact kept

/-- A request keeps both, also one that decodes to no instruction. -/
theorem step_req_faultSticks {s t : State} {e : Encoded} {avail : Bool} {rest : List Input}
    (hin : s.input = .req e avail :: rest) (hn : step s = .next t) : FaultSticks s t := by
  have taken : FaultSticks (accept avail rest s) t := by
    cases hd : decode e with
    | ok i => exact exec_faultSticks (step_decoded hin hd ▸ hn)
    | error err =>
      rcases answerUndecoded_next (step_undecoded hin hd ▸ hn) with rfl | rfl
      · exact ⟨rfl, id⟩
      · exact ⟨rfl, id⟩
  exact taken

/-- Settles O11: the `rst` input keeps the parameters, and no other transaction clears FAULT. -/
theorem faultIsStickyAndParametersConstant : Obligations.FaultIsStickyAndParametersConstant := by
  unfold Obligations.FaultIsStickyAndParametersConstant
  intro s t hn
  match hin : s.input with
  | [] =>
    obtain rfl := Host.Outcome.next.inj (step_idle hin ▸ hn)
    exact ⟨rfl, fun hs _ => hs⟩
  | .rst :: rest =>
    obtain rfl := Host.Outcome.next.inj (step_rst hin ▸ hn)
    exact ⟨rfl, fun _ hnot => absurd rfl hnot⟩
  | .req e avail :: rest =>
    obtain ⟨hparams, hfault⟩ := step_req_faultSticks hin hn
    exact ⟨hparams, fun hs _ => hfault hs⟩

/-! ### Bytes appended to the burst -/

/-- `t` is `s` with `n` more bytes written from OFFSET on, within CAP if OFFSET was (R132, R133). -/
abbrev Appended (s : State) (n : Nat) (t : State) : Prop :=
  ∃ m off, t = { s with buf := m, offset := off } ∧ off.toNat = s.offset.toNat + n ∧
    (s.offset.toNat ≤ s.cap.toNat → off.toNat ≤ s.cap.toNat) ∧
    ∀ a < off.toNat, s.offset.toNat ≤ a ∨ (s.buf.read a).isSome = true → (m.read a).isSome = true

theorem Appended.refl (s : State) : Appended s 0 s :=
  ⟨s.buf, s.offset, rfl, rfl, id, fun _ ha h => h.resolve_left (Nat.not_le.2 ha)⟩

/-- Storing bytes at OFFSET and advancing it past them appends them. -/
theorem appended_write {s : State} {bs : List Byte} (hr : s.offset.toNat + bs.length ≤ s.cap.toNat) :
    Appended s bs.length
      { s with buf := s.buf.write s.offset.toNat bs, offset := BitVec.ofNat 16 (s.offset.toNat + bs.length) } := by
  have hoff := offset_toNat hr
  refine ⟨_, _, rfl, hoff, fun _ => hoff.trans_le hr, fun a ha hw => ?_⟩
  rw [Memory.read_write]
  by_cases hin : s.offset.toNat ≤ a ∧ a < s.offset.toNat + bs.length
  · rw [if_pos hin, List.getElem?_eq_getElem (by omega)]
    rfl
  · rw [if_neg hin]
    exact hw.resolve_left fun h => hin ⟨h, hoff ▸ ha⟩

/-- A sequence that ends in `D` when it is performed; of a raise nothing is asked, since R35 holds after a flush and
promises nothing under FAULT. -/
abbrev Micro.Yields (D : State → Prop) (m : Micro) : Prop := m.Ends D fun _ _ => True

theorem writeBytes_appends (data : List Byte) (srcBe : Bool) (s : State) :
    (writeBytes data srcBe s).Yields (Appended s (imageSize data.length)) := by
  unfold writeBytes
  rw [writeNeed_eq_imageSize]
  split_ifs with ha hr
  · trivial
  · trivial
  · have := appended_write (s := s) (bs := wireBytes (srcBe != s.cfgOutBe) s.cfgOutBe data)
      (by rw [wireBytes_length]; omega)
    rwa [wireBytes_length] at this

theorem padZeros_appends (size : Nat) (s : State) : (padZeros size s).Yields (Appended s size) := by
  unfold padZeros
  split_ifs with ha hr
  · trivial
  · trivial
  · have := appended_write (s := s) (bs := List.replicate size 0) (by rw [List.length_replicate]; omega)
    rwa [List.length_replicate] at this

theorem slotMarker_appends (s : State) :
    (slotMarker s).Yields (Appended s (matMarker s.params s.trueHdIdx.val).length) := by
  have even := imageSize_of_even (matMarker_length s.params s.trueHdIdx.val).1
  unfold slotMarker writeMarker
  unfold matMarker at *
  split_ifs at * with h0 h12
  · exact even ▸ writeBytes_appends _ _ s
  · exact even ▸ writeBytes_appends _ _ s
  · exact .refl s

/-- R35 (a) for a burst in progress: a configured session, 8 ≤ OFFSET ≤ CAP, and every byte from 8 to OFFSET written. -/
abbrev Filled (s : State) : Prop :=
  s.configured = true ∧ 8 ≤ s.offset.toNat ∧ s.offset.toNat ≤ s.cap.toNat ∧
    ∀ a < s.offset.toNat, 8 ≤ a → (s.buf.read a).isSome = true

theorem Appended.filled {s t : State} {n : Nat} (h : Appended s n t) (hs : Filled s) : Filled t := by
  obtain ⟨m, off, rfl, hoff, hroom, hw⟩ := h
  obtain ⟨hconf, h8, hle, hws⟩ := hs
  refine ⟨hconf, hoff ▸ Nat.le_add_right_of_le h8, hroom hle, fun a ha ha8 => hw a ha ?_⟩
  by_cases has : s.offset.toNat ≤ a
  · exact .inl has
  · exact .inr (hws a (Nat.lt_of_not_le has) ha8)

/-! ### The four encapsulators keep the command-boundary invariant -/

/-- R35 (c): both counters are 0. -/
abbrev CountersZero (s : State) : Prop := s.eac3Blocks = 0 ∧ s.trueHdIdx = 0

/-- The burst is over with FINALIZE (R134). -/
theorem finalize_complete_session {s : State} (hz : CountersZero s) (dt : Half) (mult : BitVec 4) :
    ((finalizeBurst dt mult s).andThen fun t => .done (respond .complete t)).Yields SessionInv := by
  unfold finalizeBurst
  split_ifs
  · trivial
  · cases (finalImage dt mult s).readRange 0 s.cap.toNat with
    | none => trivial
    | some data => exact sessionInv_of_inactive rfl hz.1 hz.2

theorem Appended.countersZero {s t : State} {n : Nat} (h : Appended s n t) (hz : CountersZero s) : CountersZero t := by
  obtain ⟨m, off, rfl, -⟩ := h
  exact hz

theorem allocBurst_countersZero {s : State} (hz : CountersZero s) (cap : Half) (pts dts : Timestamp) (ns : Word) :
    (allocBurst cap pts dts ns s).Yields CountersZero := by
  unfold allocBurst
  split_ifs
  · trivial
  · trivial
  · exact hz

theorem rewindBurst_countersZero {s : State} (hz : CountersZero s) : (rewindBurst s).Yields CountersZero := by
  unfold rewindBurst
  split_ifs
  · trivial
  · exact hz

/-- A burst of one frame: the WRITE and FINALIZE at its end (R160, R180). -/
theorem write_complete_session {s : State} (hz : CountersZero s) (data : List Byte) (srcBe : Bool) (dt : Half)
    (mult : BitVec 4) :
    ((writeBytes data srcBe s).andThen fun t =>
      (finalizeBurst dt mult t).andThen fun u => .done (respond .complete u)).Yields SessionInv :=
  Micro.ends_andThen (writeBytes_appends _ _ s) fun _ ht => finalize_complete_session (ht.countersZero hz) _ _

theorem processAc3_session {s : State} (hz : CountersZero s) (f : Frame) : (processAc3 f s).Yields SessionInv := by
  unfold processAc3
  cases ac3Size s.params f with
  | none => trivial
  | some size =>
    simp only
    split_ifs
    · trivial
    · trivial
    · exact Micro.ends_andThen (allocBurst_countersZero hz _ _ _ _) fun t ht => write_complete_session ht _ _ _ _

theorem processDts_session {s : State} (hz : CountersZero s) (f : Frame) : (processDts f s).Yields SessionInv := by
  unfold processDts
  cases dtsSize s.params f with
  | none => trivial
  | some q =>
    obtain ⟨size, ns⟩ := q
    simp only
    cases dtDts ns with
    | none => trivial
    | some dt =>
      simp only
      split_ifs
      · trivial
      · refine Micro.ends_andThen (allocBurst_countersZero hz _ _ _ _) fun t ht => ?_
        refine Micro.ends_andThen (P := CountersZero) ?_ fun u hu => write_complete_session hu _ _ _ _
        split_ifs
        · exact rewindBurst_countersZero ht
        · exact ht

/-- The burst an aggregating codec writes its frame to is the one in progress or a new one (R170, R190). -/
theorem eac3Open_yields (f : Frame) (s : State) :
    (eac3Open f s).Yields (· = opened s.params.eac3Capacity s.params.eac3NSamples f s) := by
  by_cases h : s.burstActive = true ∨ s.bufAvail = true
  · rw [eac3Open_opened h f]
    rfl
  · rw [not_or] at h
    rw [eac3Open, if_neg h.1, allocBurst_refused (.inr (by simpa using h.2))]
    trivial

theorem trueHdOpen_yields (f : Frame) (s : State) : (trueHdOpen f s).Yields (· = opened 61440 3840 f s) := by
  by_cases h : s.burstActive = true ∨ s.bufAvail = true
  · rw [trueHdOpen_opened h f]
    rfl
  · rw [not_or] at h
    rw [trueHdOpen, if_neg h.1, allocBurst_refused (.inr (by simpa using h.2))]
    trivial

/-- An E-AC3 aggregate on PENDING: any count but 6, and OFFSET even (R172, R174). -/
theorem sessionInv_of_eac3 {s : State} (ha : s.burstActive = true) (hc : s.cfgCodec = .eac3) (hfill : Filled s)
    (hi : s.trueHdIdx = 0) (hb : s.eac3Blocks ≠ 6) (hcap : s.cap = s.params.eac3Capacity)
    (heven : s.offset.toNat % 2 = 0) : SessionInv s :=
  fun _ => ⟨fun _ => hfill, fun h => by simp [ha] at h, fun h => by simp [hc] at h,
    fun _ _ => ⟨hi, hb, hcap, heven⟩, fun _ h => by simp [hc] at h⟩

/-- A super-frame on PENDING: the next index, and OFFSET in its cadence (R193, R194). -/
theorem sessionInv_of_trueHd {s : State} (ha : s.burstActive = true) (hc : s.cfgCodec = .mlp ∨ s.cfgCodec = .truehd)
    (hfill : Filled s) (hb : s.eac3Blocks = 0) (hcap : s.cap = 61440) (hpos : 0 < s.trueHdIdx.val)
    (hlow : slotStart s.trueHdIdx.val ≤ s.offset.toNat)
    (hhigh : s.offset.toNat ≤ slotStart s.trueHdIdx.val + s.trueHdIdx.val) : SessionInv s :=
  fun _ => ⟨fun _ => hfill, fun h => by simp [ha] at h, fun h => by rcases hc with hc | hc <;> simp [hc] at h,
    fun _ h => by rcases hc with hc | hc <;> simp [hc] at h, fun _ _ => ⟨hb, hcap, hpos, hlow, hhigh⟩⟩

/-- After the WRITE of an aggregate: kept on PENDING with a count other than 6, or closed (R170). -/
theorem eac3Count_session {s : State} (ha : s.burstActive = true) (hc : s.cfgCodec = .eac3) (hfill : Filled s)
    (hi : s.trueHdIdx = 0) (hcap : s.cap = s.params.eac3Capacity) (heven : s.offset.toNat % 2 = 0) (h : HeaderReply) :
    (eac3Count h s).Yields SessionInv := by
  unfold eac3Count eac3Close
  split_ifs with hacc hsix
  · exact sessionInv_of_eac3 ha hc hfill hi hsix hcap heven
  · exact finalize_complete_session (s := { s with eac3Blocks := 0 }) ⟨rfl, hi⟩ _ _
  · exact finalize_complete_session (s := { s with eac3Blocks := 0 }) ⟨rfl, hi⟩ _ _

theorem processEac3_session {s : State} (hl : Legal s) (hf : s.fault = false) (hconf : s.configured = true)
    (hc : s.cfgCodec = .eac3) (f : Frame) : (processEac3 f s).Yields SessionInv := by
  have hi : s.trueHdIdx = 0 := by
    obtain ⟨-, counters, -, aggregate, -⟩ := hl.2 hf
    by_cases ha : s.burstActive = true
    · exact (aggregate ha hc).1
    · exact (counters (by simpa using ha)).2
  unfold processEac3
  cases a52Reply s.params f.data with
  | none => trivial
  | some h =>
    simp only
    split_ifs
    · trivial
    · refine Micro.ends_andThen (eac3Open_yields f s) ?_
      rintro o rfl
      obtain ⟨h8, hle, hw, -, hcap, heven, -⟩ := eac3_opened_facts (f := f) hl hf hc
      obtain ⟨oparams, -, ocodec, oconf, -, -, oidx, -⟩ :=
        opened_keeps s.params.eac3Capacity s.params.eac3NSamples f s
      have oactive := opened_burstActive s.params.eac3Capacity s.params.eac3NSamples f s
      generalize opened s.params.eac3Capacity s.params.eac3NSamples f s = o at *
      split_ifs
      · trivial
      · refine Micro.ends_andThen (writeBytes_appends _ _ o) fun t ht => ?_
        have hfill : Filled t := ht.filled ⟨oconf.trans hconf, h8, hle, hw⟩
        have hsize := imageSize_even (payload f h.frameSize.toNat).length
        obtain ⟨m, off, rfl, hoff, -⟩ := ht
        exact eac3Count_session (s := { o with buf := m, offset := off }) oactive (ocodec.trans hc) hfill
          (oidx.trans hi) (hcap.trans (congrArg Params.eac3Capacity oparams.symm)) (show off.toNat % 2 = 0 by omega) h

/-- A slot of an even frame ends where the next one starts (R191, R193). -/
theorem slotStart_succ (p : Params) {i : Nat} (h : i < 23) :
    slotStart i + (matMarker p i).length + (2560 - matReserve i) = slotStart (i + 1) := by
  by_cases special : i = 0 ∨ i = 11 ∨ i = 12
  · rcases special with rfl | rfl | rfl
    · simp [slotStart, matMarker, matReserve]
    · simp [slotStart, matMarker, matReserve]
    · simp [slotStart, matMarker, matReserve]
  · rw [not_or, not_or] at special
    obtain ⟨h0, h11, h12⟩ := special
    have h23 : i ≠ 23 := h.ne
    simp only [slotStart, matMarker, matReserve, h0, h11, h12, h23, if_false, List.length_nil, Nat.succ_ne_zero,
      Nat.succ.injEq]
    omega

/-- The end of a slot: the end of the super-frame, or the next index with OFFSET in its cadence (R190, R193). -/
theorem slotEnd_session {s : State} (ha : s.burstActive = true) (hc : s.cfgCodec = .mlp ∨ s.cfgCodec = .truehd)
    (hfill : Filled s) (hb : s.eac3Blocks = 0) (hcap : s.cap = 61440)
    (hnext : s.trueHdIdx.val < 23 → slotStart (s.trueHdIdx.val + 1) ≤ s.offset.toNat ∧
      s.offset.toNat ≤ slotStart (s.trueHdIdx.val + 1) + (s.trueHdIdx.val + 1)) :
    (slotEnd s).Yields SessionInv := by
  by_cases h23 : s.trueHdIdx.val = 23
  · rw [slotEnd_last (Fin.ext h23)]
    refine Micro.ends_andThen (writeBytes_appends _ _ s) fun t ht => ?_
    obtain ⟨m, off, rfl, -⟩ := ht
    exact finalize_complete_session (s := { s with buf := m, offset := off, trueHdIdx := 0 }) ⟨hb, rfl⟩ _ _
  · rw [slotEnd_next h23]
    have hlt : s.trueHdIdx.val < 23 := by omega
    have hsucc : (s.trueHdIdx + 1).val = s.trueHdIdx.val + 1 := by
      rw [Fin.val_add]
      exact Nat.mod_eq_of_lt (Nat.add_lt_add_right hlt 1)
    obtain ⟨hlow, hhigh⟩ := hnext hlt
    rw [← hsucc] at hlow hhigh
    exact sessionInv_of_trueHd (s := respond .pending { s with trueHdIdx := s.trueHdIdx + 1 }) ha hc hfill hb hcap
      (hsucc ▸ Nat.succ_pos _) hlow hhigh

/-- The payload and its padding move OFFSET to the next slot, or one byte further when the frame is odd (R191, R194). -/
theorem slotBody_session {s : State} {start : Nat} (ha : s.burstActive = true)
    (hc : s.cfgCodec = .mlp ∨ s.cfgCodec = .truehd) (hfill : Filled s) (hb : s.eac3Blocks = 0) (hcap : s.cap = 61440)
    (hstart : s.trueHdIdx.val < 23 → start + (2560 - matReserve s.trueHdIdx.val) = slotStart (s.trueHdIdx.val + 1))
    (hlow : start ≤ s.offset.toNat) (hhigh : s.offset.toNat ≤ start + s.trueHdIdx.val) (f : Frame) :
    (slotBody f s).Yields SessionInv := by
  unfold slotBody
  split_ifs with hrej
  · trivial
  · refine Micro.ends_andThen (writeBytes_appends _ _ s) fun t ht => ?_
    have tfill := ht.filled hfill
    obtain ⟨m, off, rfl, hoff, -⟩ := ht
    refine Micro.ends_andThen (padZeros_appends _ _) fun u hu => ?_
    have ufill := hu.filled tfill
    obtain ⟨m', off', rfl, hoff', -⟩ := hu
    refine slotEnd_session ha hc ufill hb hcap fun hlt => ?_
    rw [slotRejects_iff, not_or, Nat.not_lt] at hrej
    rw [payload_length le_rfl] at hoff
    rw [slotPad_toNat hrej.1] at hoff'
    have hend := hstart hlt
    unfold imageSize at hoff
    simp only at hoff' ⊢
    omega

theorem processTrueHd_session {s : State} (hl : Legal s) (hf : s.fault = false) (hconf : s.configured = true)
    (hc : s.cfgCodec = .mlp ∨ s.cfgCodec = .truehd) (f : Frame) : (processTrueHd f s).Yields SessionInv := by
  unfold processTrueHd
  refine Micro.ends_andThen (trueHdOpen_yields f s) ?_
  rintro o rfl
  obtain ⟨h8, hw, -, hcap, hb, hlow, hhigh, -, -⟩ := trueHd_opened_facts (f := f) hl hf hc
  obtain ⟨-, -, ocodec, oconf, -, -, oidx, -⟩ := opened_keeps 61440 3840 f s
  have oactive := opened_burstActive 61440 3840 f s
  rw [← oidx] at hlow hhigh
  rw [← ocodec] at hc
  generalize opened 61440 3840 f s = o at *
  have hle : o.offset.toNat ≤ o.cap.toNat := by
    have hi := o.trueHdIdx.isLt
    rw [hcap]
    show _ ≤ 61440
    unfold slotStart at hhigh
    split_ifs at hhigh <;> omega
  refine Micro.ends_andThen (slotMarker_appends o) fun t ht => ?_
  have tfill := ht.filled ⟨oconf.trans hconf, h8, hle, hw⟩
  obtain ⟨m, off, rfl, hoff, -⟩ := ht
  have tlow : slotStart o.trueHdIdx.val + (matMarker o.params o.trueHdIdx.val).length ≤ off.toNat := by omega
  have thigh : off.toNat ≤
      slotStart o.trueHdIdx.val + (matMarker o.params o.trueHdIdx.val).length + o.trueHdIdx.val := by omega
  exact slotBody_session (s := { o with buf := m, offset := off }) oactive hc tfill hb hcap
    (slotStart_succ o.params) tlow thigh f

/-! ### Every host step keeps it -/

/-- Once FAULT is set R35 promises nothing (R35). -/
theorem sessionInv_of_fault {s : State} (hf : s.fault = true) : SessionInv s := fun h => by simp [hf] at h

/-- An error ends in a flushed session or sets FAULT (R233, R235). -/
theorem finishCommand_session {m : Micro} {t : State} (hm : m.Yields SessionInv) (hn : finishCommand m = .next t) :
    SessionInv t := by
  cases m with
  | done u =>
    obtain rfl := Host.Outcome.next.inj hn
    exact hm
  | raise k u =>
    obtain rfl := Host.Outcome.next.inj hn
    by_cases hk : k = .writerFault
    · subst hk
      exact sessionInv_of_fault rfl
    · rw [raiseError_other u k hk]
      exact sessionInv_of_inactive rfl rfl rfl
  | unwritten => cases hn

/-- The operation that CFG_CODEC names, as a sequence of micro-operations (R211). -/
def codecOperation : Codec → Frame → State → Micro
  | .ac3 => processAc3
  | .eac3 => processEac3
  | .dts => processDts
  | .mlp => processTrueHd
  | .truehd => processTrueHd

theorem exec_process_accepted {s : State} (hf : s.fault = false) (hconf : s.configured = true) (f : Frame) :
    exec (.process f) s = finishCommand (codecOperation s.cfgCodec f s) := by
  have dispatched : exec (.process f) s = dispatchProcess f s := by simp [exec, execProcess, hf, hconf]
  rw [dispatched, dispatchProcess]
  cases s.cfgCodec <;> rfl

theorem codecOperation_session {s : State} (hl : Legal s) (hf : s.fault = false) (hconf : s.configured = true)
    (f : Frame) : (codecOperation s.cfgCodec f s).Yields SessionInv := by
  obtain ⟨-, counters, oneShot, -⟩ := hl.2 hf
  cases hc : s.cfgCodec with
  | ac3 => exact processAc3_session (counters (oneShot (.inl hc))) f
  | eac3 => exact processEac3_session hl hf hconf hc f
  | dts => exact processDts_session (counters (oneShot (.inr hc))) f
  | mlp => exact processTrueHd_session hl hf hconf (.inl hc) f
  | truehd => exact processTrueHd_session hl hf hconf (.inr hc) f

theorem process_session {s t : State} {f : Frame} (hl : Legal s) (hn : exec (.process f) s = .next t) :
    SessionInv t := by
  rcases exec_process_cases f s with ⟨k, hk⟩ | ⟨hf, hconf⟩
  · obtain rfl := Host.Outcome.next.inj (hk ▸ hn)
    exact hl.2
  · rw [exec_process_accepted hf hconf] at hn
    exact finishCommand_session (codecOperation_session hl hf hconf f) hn

/-- SETUP under FAULT keeps it set, and flushes otherwise (R210, R215). -/
theorem execSetup_session {s t : State} {codec fmt : Byte} (hn : execSetup codec fmt s = .next t) : SessionInv t := by
  unfold execSetup setupSession at hn
  split_ifs at hn with hf
  · obtain rfl := Host.Outcome.next.inj hn
    exact sessionInv_of_fault hf
  · obtain rfl := Host.Outcome.next.inj hn
    split
    · exact sessionInv_of_inactive rfl rfl rfl
    · exact sessionInv_of_inactive rfl rfl rfl

/-- A command word decodes to one of the three host commands (R91). -/
theorem decodeCmd_cases {w : Word} {d : Descriptor} {i : Instr} (h : decodeCmd w d = .ok i) :
    (∃ codec fmt, i = .setup codec fmt) ∨ (∃ f, i = .process f) ∨ i = .flush := by
  unfold decodeCmd frameOf at h
  split_ifs at h
  · exact .inl ⟨_, _, (Except.ok.inj h).symm⟩
  · exact .inr (.inl ⟨_, (Except.ok.inj h).symm⟩)
  · cases h
  · exact .inr (.inr (Except.ok.inj h).symm)

/-- The transactions of the host: none, `rst`, or a command (R44, R100). -/
theorem hostNext_cases {s : State} (h : hostNext s = true) :
    s.input = [] ∨ (∃ rest, s.input = .rst :: rest) ∨ ∃ w d avail rest, s.input = .req (.cmd w d) avail :: rest := by
  unfold hostNext at h
  match hin : s.input with
  | [] => exact .inl rfl
  | .rst :: rest => exact .inr (.inl ⟨rest, rfl⟩)
  | .req (.cmd w d) avail :: rest => exact .inr (.inr ⟨w, d, avail, rest, rfl⟩)
  | .req (.wop w o) avail :: rest =>
    rw [hin] at h
    cases h

theorem hostStep_session {s t : State} (hl : Legal s) (hh : hostNext s = true) (hn : step s = .next t) :
    SessionInv t := by
  rcases hostNext_cases hh with hin | ⟨rest, hin⟩ | ⟨w, d, avail, rest, hin⟩
  · obtain rfl := Host.Outcome.next.inj (step_idle hin ▸ hn)
    exact hl.2
  · obtain rfl := Host.Outcome.next.inj (step_rst hin ▸ hn)
    exact sessionInv_of_inactive rfl rfl rfl
  · have taken : Legal (accept avail rest s) := hl
    cases hd : decode (.cmd w d) with
    | ok i =>
      have hn := step_decoded hin hd ▸ hn
      rcases decodeCmd_cases hd with ⟨codec, fmt, rfl⟩ | ⟨f, rfl⟩ | rfl
      · exact execSetup_session hn
      · exact process_session taken hn
      · obtain rfl := Host.Outcome.next.inj hn
        exact sessionInv_of_inactive rfl rfl rfl
    | error err =>
      rcases answerUndecoded_next (step_undecoded hin hd ▸ hn) with rfl | rfl
      · exact taken.2
      · exact taken.2

/-- Settles O15: the machine's part holds of every step; the session's part by the codec of the command. -/
theorem hostStepKeepsTheSessionLegal : Obligations.HostStepKeepsTheSessionLegal := by
  unfold Obligations.HostStepKeepsTheSessionLegal
  intro s t hl hh hn
  exact ⟨everyStepKeepsTheMachineInvariant s t hl.1 hn, hostStep_session hl hh hn⟩

/-! ### Two states that agree on every meaningful element -/

theorem SameMeaning.respond {s t : State} (h : SameMeaning s t) (r : Response) :
    SameMeaning (respond r s) (respond r t) := by
  obtain ⟨hparams, hin, havail, -, hrest⟩ := h
  exact ⟨hparams, hin, havail, rfl, hrest⟩

theorem SameMeaning.setFault {s t : State} (h : SameMeaning s t) :
    SameMeaning { s with fault := true } { t with fault := true } := by
  obtain ⟨hparams, hin, havail, hrsp, hout, hconf, -, hrest⟩ := h
  exact ⟨hparams, hin, havail, hrsp, hout, hconf, rfl, hrest⟩

theorem SameMeaning.setEac3Blocks {s t : State} (h : SameMeaning s t) (n : Word) :
    SameMeaning { s with eac3Blocks := n } { t with eac3Blocks := n } := by
  obtain ⟨hparams, hin, havail, hrsp, hout, hconf, hfault, hactive, -, hrest⟩ := h
  exact ⟨hparams, hin, havail, hrsp, hout, hconf, hfault, hactive, rfl, hrest⟩

theorem SameMeaning.setTrueHdIdx {s t : State} (h : SameMeaning s t) (i : Fin 24) :
    SameMeaning { s with trueHdIdx := i } { t with trueHdIdx := i } := by
  obtain ⟨hparams, hin, havail, hrsp, hout, hconf, hfault, hactive, hblocks, -, hrest⟩ := h
  exact ⟨hparams, hin, havail, hrsp, hout, hconf, hfault, hactive, hblocks, rfl, hrest⟩

/-- What a flush draws is meaningless, since no burst is in progress (R20, R212). -/
theorem SameMeaning.flushState {s t : State} (h : SameMeaning s t) : SameMeaning (flushState s) (flushState t) := by
  obtain ⟨hparams, hin, havail, hrsp, hout, hconf, hfault, -, -, -, hcfg, -⟩ := h
  exact ⟨hparams, hin, havail, hrsp, hout, hconf, hfault, rfl, rfl, rfl, hcfg, fun h => by simp at h⟩

theorem SameMeaning.accept {s t : State} (h : SameMeaning s t) (avail : Bool) (rest : List Input) :
    SameMeaning (accept avail rest s) (accept avail rest t) := by
  obtain ⟨hparams, -, -, -, -, hrest⟩ := h
  exact ⟨hparams, rfl, rfl, rfl, rfl, hrest⟩

theorem SameMeaning.hardReset {s t : State} (h : SameMeaning s t) (rest : List Input) :
    SameMeaning (hardReset rest s) (hardReset rest t) := by
  obtain ⟨hparams, -, havail, -⟩ := h
  exact ⟨hparams, rfl, havail, rfl, rfl, rfl, rfl, rfl, rfl, rfl, fun _ => ⟨rfl, rfl⟩, fun h => by cases h⟩

/-- SETUP writes both elements of the configuration, or leaves them meaningless (R210). -/
theorem SameMeaning.setupSession {s t : State} (h : SameMeaning s t) (codec fmt : Byte) :
    SameMeaning (setupSession codec fmt s) (setupSession codec fmt t) := by
  obtain ⟨hparams, hin, havail, -, hout, -, hfault, hactive, hblocks, hidx, -, hburst⟩ := h.flushState
  unfold Machine.setupSession
  split
  · exact ⟨hparams, hin, havail, rfl, hout, rfl, hfault, hactive, hblocks, hidx, fun _ => ⟨rfl, rfl⟩, hburst⟩
  · exact ⟨hparams, hin, havail, rfl, hout, rfl, hfault, hactive, hblocks, hidx, (fun h => by cases h), hburst⟩

/-- Storing the same bytes at OFFSET of the same burst. -/
theorem SameMeaning.store {s t : State} (h : SameMeaning s t) (ha : s.burstActive = true) {bs bs' : List Byte}
    {off off' : Half} (hbs : bs = bs') (hnew : off = off') :
    SameMeaning { s with buf := s.buf.write s.offset.toNat bs, offset := off }
      { t with buf := t.buf.write t.offset.toNat bs', offset := off' } := by
  obtain ⟨hparams, hin, havail, hrsp, hout, hconf, hfault, hactive, hblocks, hidx, hcfg, hburst⟩ := h
  obtain ⟨hcap, hoff, hpts, hdts, hns, hread⟩ := hburst ha
  refine ⟨hparams, hin, havail, hrsp, hout, hconf, hfault, hactive, hblocks, hidx, hcfg, fun _ =>
    ⟨hcap, hnew, hpts, hdts, hns, fun a hlt => ?_⟩⟩
  rw [Memory.read_write, Memory.read_write, ← hoff, ← hbs, hread a hlt]

/-- Two states of a command being run: they agree on every meaningful element, CFG_* included, and both meet the
invariant of the machine. -/
abbrev Twin (s t : State) : Prop := SameMeaning s t ∧ s.configured = true ∧ MachineInv s ∧ MachineInv t

/-- With a burst in progress, so that the writer's registers agree as well. -/
abbrev TwinBurst (s t : State) : Prop := Twin s t ∧ s.burstActive = true

theorem Twin.setEac3Blocks {s t : State} (h : Twin s t) (n : Word) :
    Twin { s with eac3Blocks := n } { t with eac3Blocks := n } := ⟨h.1.setEac3Blocks n, h.2⟩

theorem Twin.setTrueHdIdx {s t : State} (h : Twin s t) (i : Fin 24) :
    Twin { s with trueHdIdx := i } { t with trueHdIdx := i } := ⟨h.1.setTrueHdIdx i, h.2⟩

/-- What an operation reads of the two states outside the burst. -/
theorem Twin.reads {s t : State} (h : Twin s t) :
    t.params = s.params ∧ t.cfgOutBe = s.cfgOutBe ∧ t.burstActive = s.burstActive ∧ t.eac3Blocks = s.eac3Blocks ∧
      t.trueHdIdx = s.trueHdIdx := by
  obtain ⟨⟨hparams, -, -, -, -, -, -, hactive, hblocks, hidx, hcfg, -⟩, hconf, -⟩ := h
  exact ⟨hparams.symm, (hcfg hconf).2.symm, hactive.symm, hblocks.symm, hidx.symm⟩

/-- What it reads of the burst in progress. -/
theorem TwinBurst.reads {s t : State} (h : TwinBurst s t) :
    t.burstActive = true ∧ t.cap = s.cap ∧ t.offset = s.offset ∧ ∀ a < s.cap.toNat, t.buf.read a = s.buf.read a := by
  obtain ⟨⟨⟨-, -, -, -, -, -, -, hactive, -, -, -, hburst⟩, -⟩, ha⟩ := h
  obtain ⟨hcap, hoff, -, -, -, hread⟩ := hburst ha
  exact ⟨hactive ▸ ha, hcap.symm, hoff.symm, fun a hlt => (hread a hlt).symm⟩

/-! ### Micro-operations on two such states -/

/-- Two sequences end in the same way: performed with states in `D`, or raising the same error with states that agree
on every meaningful element, or reading a byte never written. -/
inductive Micro.Alike (D : State → State → Prop) : Micro → Micro → Prop
  | done {s t : State} (h : D s t) : Alike D (.done s) (.done t)
  | raise (k : ErrorKind) {s t : State} (h : SameMeaning s t) : Alike D (.raise k s) (.raise k t)
  | unwritten : Alike D .unwritten .unwritten

/-- Sequencing (R10). -/
theorem Micro.alike_andThen {C D : State → State → Prop} {m n : Micro} {k l : State → Micro} (hm : m.Alike C n)
    (hk : ∀ s t, C s t → (k s).Alike D (l t)) : (m.andThen k).Alike D (n.andThen l) := by
  cases hm with
  | done h => exact hk _ _ h
  | raise e h => exact .raise e h
  | unwritten => exact .unwritten

theorem allocBurst_alike {s t : State} (h : Twin s t) {cap : Half} (hc : AllocCapacity s.params cap)
    (pts dts : Timestamp) (ns : Word) : (allocBurst cap pts dts ns s).Alike TwinBurst (allocBurst cap pts dts ns t) := by
  obtain ⟨same, conf, invS, invT⟩ := h
  have keepS := machineInv_writerInvariant.alloc invS hc pts dts ns
  have keepT := machineInv_writerInvariant.alloc invT (same.1 ▸ hc) pts dts ns
  obtain ⟨hparams, hin, havail, hrsp, hout, hconf, hfault, hactive, hblocks, hidx, hcfg, -⟩ := id same
  by_cases ready : s.burstActive = false ∧ s.bufAvail = true
  · obtain ⟨ha, hb⟩ := ready
    rw [allocBurst_ready ha hb] at keepS ⊢
    rw [allocBurst_ready (hactive ▸ ha) (havail ▸ hb)] at keepT ⊢
    refine .done ⟨⟨⟨hparams, hin, havail, hrsp, hout, hconf, hfault, rfl, hblocks, hidx, hcfg, fun _ =>
      ⟨rfl, rfl, congrArg (tsBits · pts) hparams, congrArg (tsBits · dts) hparams, rfl, fun a hlt => ?_⟩⟩,
      conf, keepS, keepT⟩, rfl⟩
    have erased : 0 ≤ a ∧ a < 0 + cap.toNat := ⟨Nat.zero_le a, (Nat.zero_add _).symm ▸ hlt⟩
    rw [Memory.read_erase, Memory.read_erase, if_pos erased, if_pos erased]
  · have refused : s.burstActive = true ∨ s.bufAvail = false := by
      rw [not_and_or] at ready
      simpa using ready
    rw [allocBurst_refused refused, allocBurst_refused (hactive ▸ havail ▸ refused)]
    exact .raise _ same

theorem writeBytes_alike {s t : State} (h : Twin s t) (data : List Byte) (srcBe : Bool) :
    (writeBytes data srcBe s).Alike TwinBurst (writeBytes data srcBe t) := by
  obtain ⟨same, conf, invS, invT⟩ := id h
  obtain ⟨-, hbe, hactive, -⟩ := h.reads
  by_cases ha : s.burstActive = true
  · obtain ⟨hat, hcap, hoff, -⟩ := TwinBurst.reads ⟨h, ha⟩
    by_cases room : s.offset.toNat + imageSize data.length ≤ s.cap.toNat
    · have keepS := writeBytes_inv invS data srcBe
      have keepT := writeBytes_inv invT data srcBe
      rw [writeBytes_room ha room] at keepS ⊢
      rw [writeBytes_room hat (by rwa [hcap, hoff])] at keepT ⊢
      exact .done ⟨⟨same.store ha (by rw [hbe]) (by rw [hoff]), conf, keepS, keepT⟩, ha⟩
    · rw [writeBytes_violation (.inr (Nat.lt_of_not_le room)),
        writeBytes_violation (.inr (by rw [hcap, hoff]; exact Nat.lt_of_not_le room))]
      exact .raise _ same
  · rw [Bool.not_eq_true] at ha
    rw [writeBytes_violation (.inl ha), writeBytes_violation (.inl (hactive.trans ha))]
    exact .raise _ same

theorem padZeros_alike {s t : State} (h : TwinBurst s t) (size : Nat) :
    (padZeros size s).Alike TwinBurst (padZeros size t) := by
  obtain ⟨⟨same, conf, invS, invT⟩, ha⟩ := id h
  obtain ⟨hat, hcap, hoff, -⟩ := h.reads
  by_cases room : s.offset.toNat + size ≤ s.cap.toNat
  · have keepS := padZeros_inv invS size
    have keepT := padZeros_inv invT size
    rw [padZeros_room ha room] at keepS ⊢
    rw [padZeros_room hat (by rwa [hcap, hoff])] at keepT ⊢
    exact .done ⟨⟨same.store ha rfl (by rw [hoff]), conf, keepS, keepT⟩, ha⟩
  · rw [padZeros_violation (.inr (Nat.lt_of_not_le room)),
      padZeros_violation (.inr (by rw [hcap, hoff]; exact Nat.lt_of_not_le room))]
    exact .raise _ same

theorem rewindBurst_alike {s t : State} (h : TwinBurst s t) : (rewindBurst s).Alike TwinBurst (rewindBurst t) := by
  obtain ⟨⟨same, conf, invS, invT⟩, ha⟩ := id h
  obtain ⟨hat, -⟩ := h.reads
  have keepS := rewindBurst_inv invS
  have keepT := rewindBurst_inv invT
  rw [rewindBurst_active ha] at keepS ⊢
  rw [rewindBurst_active hat] at keepT ⊢
  obtain ⟨hparams, hin, havail, hrsp, hout, hconf, hfault, hactive, hblocks, hidx, hcfg, hburst⟩ := same
  obtain ⟨hcap, -, hrest⟩ := hburst ha
  exact .done ⟨⟨⟨hparams, hin, havail, hrsp, hout, hconf, hfault, hactive, hblocks, hidx, hcfg, fun _ =>
    ⟨hcap, rfl, hrest⟩⟩, conf, keepS, keepT⟩, ha⟩

/-- MemRead depends on the bytes of its range alone (R10, R36). -/
theorem Memory.readRange_congr {m n : Memory} (hm : m.wf) (hn : n.wf) {a len : Nat}
    (h : ∀ i < len, m.read (a + i) = n.read (a + i)) : m.readRange a len = n.readRange a len := by
  refine Option.ext fun bs => ?_
  rw [Memory.readRange_eq_some hm.1, Memory.readRange_eq_some hn.1]
  exact and_congr_right fun _ => forall₂_congr fun i hi => by rw [h i hi]

/-- FINALIZE reads the same bytes of both, since what it emits stands below CAP (R134). -/
theorem TwinBurst.finalImage_readRange {s t : State} (h : TwinBurst s t) (dt : Half) (mult : BitVec 4) :
    (finalImage dt mult s).readRange 0 s.cap.toNat = (finalImage dt mult t).readRange 0 t.cap.toNat := by
  obtain ⟨hat, hcap, hoff, hread⟩ := h.reads
  obtain ⟨-, hbe, -⟩ := h.1.reads
  obtain ⟨⟨-, -, ⟨-, wfS, leS⟩, ⟨-, wfT, leT⟩⟩, ha⟩ := h
  obtain ⟨-, leS⟩ := leS ha
  obtain ⟨-, leT⟩ := leT hat
  rw [hcap]
  refine Memory.readRange_congr (wf_finalImage wfS dt mult) (wf_finalImage wfT dt mult) fun i hi => ?_
  rw [read_finalImage leS, read_finalImage leT, hcap, hoff, hbe, Nat.zero_add, hread i hi]

theorem finalizeBurst_alike {s t : State} (h : Twin s t) (dt : Half) (mult : BitVec 4) :
    (finalizeBurst dt mult s).Alike SameMeaning (finalizeBurst dt mult t) := by
  obtain ⟨hparams, hin, havail, hrsp, hout, hconf, hfault, hactive, hblocks, hidx, hcfg, hburst⟩ := id h.1
  by_cases ha : s.burstActive = true
  · have range := TwinBurst.finalImage_readRange ⟨h, ha⟩ dt mult
    obtain ⟨hcap, -, hpts, hdts, hns, -⟩ := hburst ha
    rw [finalizeBurst, finalizeBurst, if_neg (by simp [ha]), if_neg (by simp [← hactive, ha]), ← range]
    cases (finalImage dt mult s).readRange 0 s.cap.toNat with
    | none => exact .unwritten
    | some data =>
      exact .done ⟨hparams, hin, havail, hrsp, by simp only [hcap, hpts, hdts, hns], hconf, hfault, rfl, hblocks, hidx,
        hcfg, fun h => by cases h⟩
  · rw [Bool.not_eq_true] at ha
    rw [finalizeBurst_violation ha, finalizeBurst_violation (hactive ▸ ha)]
    exact .raise _ h.1

theorem finalize_complete_alike {s t : State} (h : Twin s t) (dt : Half) (mult : BitVec 4) :
    ((finalizeBurst dt mult s).andThen fun u => .done (respond .complete u)).Alike SameMeaning
      ((finalizeBurst dt mult t).andThen fun u => .done (respond .complete u)) :=
  Micro.alike_andThen (finalizeBurst_alike h dt mult) fun _ _ hu => .done (hu.respond _)

/-! ### The four encapsulators on two such states -/

theorem processAc3_alike {s t : State} (h : Twin s t) (f : Frame) :
    (processAc3 f s).Alike SameMeaning (processAc3 f t) := by
  obtain ⟨hparams, -⟩ := h.reads
  unfold processAc3
  rw [hparams]
  cases ac3Size s.params f with
  | none => exact .raise _ h.1
  | some size =>
    simp only
    split_ifs
    · exact .raise _ h.1
    · exact .raise _ h.1
    · refine Micro.alike_andThen (allocBurst_alike h (.inl (by decide)) _ _ _) fun u v huv => ?_
      refine Micro.alike_andThen (writeBytes_alike huv.1 _ _) fun x y hxy => ?_
      exact finalize_complete_alike hxy.1 _ _

theorem processDts_alike {s t : State} (h : Twin s t) (f : Frame) :
    (processDts f s).Alike SameMeaning (processDts f t) := by
  obtain ⟨hparams, -⟩ := h.reads
  unfold processDts
  rw [hparams]
  cases dtsSize s.params f with
  | none => exact .raise _ h.1
  | some q =>
    obtain ⟨size, ns⟩ := q
    simp only
    cases hdt : dtDts ns with
    | none => exact .raise _ h.1
    | some dt =>
      simp only
      split_ifs
      · exact .raise _ h.1
      · refine Micro.alike_andThen (allocBurst_alike h (dts_allocCapacity hdt _) _ _ _) fun u v huv => ?_
        refine Micro.alike_andThen (C := TwinBurst) ?_ fun x y hxy => ?_
        · split_ifs
          · exact rewindBurst_alike huv
          · exact .done huv
        · obtain ⟨hparams, -⟩ := hxy.1.reads
          rw [hparams]
          refine Micro.alike_andThen (writeBytes_alike hxy.1 _ _) fun z w hzw => ?_
          exact finalize_complete_alike hzw.1 _ _

theorem eac3Open_alike {s t : State} (h : Twin s t) (f : Frame) : (eac3Open f s).Alike TwinBurst (eac3Open f t) := by
  obtain ⟨hparams, -, hactive, -⟩ := h.reads
  unfold eac3Open
  rw [hparams, hactive]
  split_ifs with ha
  · exact .done ⟨h, ha⟩
  · exact allocBurst_alike h (.inr rfl) _ _ _

theorem eac3Close_alike {s t : State} (h : Twin s t) : (eac3Close s).Alike SameMeaning (eac3Close t) :=
  finalize_complete_alike (h.setEac3Blocks 0) _ _

theorem eac3Count_alike {s t : State} (h : Twin s t) (r : HeaderReply) :
    (eac3Count r s).Alike SameMeaning (eac3Count r t) := by
  obtain ⟨-, -, -, hblocks, -⟩ := h.reads
  unfold eac3Count
  rw [hblocks]
  have counted := h.setEac3Blocks (countBlocks r s.eac3Blocks)
  split_ifs
  · exact .done (counted.1.respond _)
  · exact eac3Close_alike counted
  · exact eac3Close_alike h

theorem processEac3_alike {s t : State} (h : Twin s t) (f : Frame) :
    (processEac3 f s).Alike SameMeaning (processEac3 f t) := by
  obtain ⟨hparams, -⟩ := h.reads
  unfold processEac3
  rw [hparams]
  cases a52Reply s.params f.data with
  | none => exact .raise _ h.1
  | some r =>
    simp only
    split_ifs
    · exact .raise _ h.1
    · refine Micro.alike_andThen (eac3Open_alike h f) fun u v huv => ?_
      obtain ⟨-, hcap, hoff, -⟩ := huv.reads
      rw [hcap, hoff]
      split_ifs
      · exact .raise _ huv.1.1
      · exact Micro.alike_andThen (writeBytes_alike huv.1 _ _) fun x y hxy => eac3Count_alike hxy.1 r

theorem trueHdOpen_alike {s t : State} (h : Twin s t) (f : Frame) :
    (trueHdOpen f s).Alike TwinBurst (trueHdOpen f t) := by
  obtain ⟨-, -, hactive, -⟩ := h.reads
  unfold trueHdOpen
  rw [hactive]
  split_ifs with ha
  · exact .done ⟨h, ha⟩
  · exact allocBurst_alike h (.inl (by decide)) _ _ _

theorem writeMarker_alike {s t : State} (h : Twin s t) (marker : List Byte) :
    (writeMarker marker s).Alike TwinBurst (writeMarker marker t) := by
  obtain ⟨-, hbe, -⟩ := h.reads
  unfold writeMarker
  rw [hbe]
  exact writeBytes_alike h _ _

theorem slotMarker_alike {s t : State} (h : TwinBurst s t) : (slotMarker s).Alike TwinBurst (slotMarker t) := by
  obtain ⟨hparams, -, -, -, hidx⟩ := h.1.reads
  unfold slotMarker
  rw [hparams, hidx]
  split_ifs
  · exact writeMarker_alike h.1 _
  · exact writeMarker_alike h.1 _
  · exact .done h

theorem slotEnd_alike {s t : State} (h : Twin s t) : (slotEnd s).Alike SameMeaning (slotEnd t) := by
  obtain ⟨hparams, -, -, -, hidx⟩ := h.reads
  unfold slotEnd
  rw [hidx]
  split_ifs
  · rw [hparams]
    exact Micro.alike_andThen (writeMarker_alike h _) fun u v huv =>
      finalize_complete_alike (huv.1.setTrueHdIdx 0) _ _
  · exact .done ((h.setTrueHdIdx (s.trueHdIdx + 1)).1.respond _)

theorem slotBody_alike {s t : State} (h : TwinBurst s t) (f : Frame) :
    (slotBody f s).Alike SameMeaning (slotBody f t) := by
  obtain ⟨-, hcap, hoff, -⟩ := h.reads
  obtain ⟨-, -, -, -, hidx⟩ := h.1.reads
  unfold slotBody
  rw [hidx, hcap, hoff]
  split_ifs
  · exact .raise _ h.1.1
  · refine Micro.alike_andThen (writeBytes_alike h.1 _ _) fun u v huv => ?_
    exact Micro.alike_andThen (padZeros_alike huv _) fun x y hxy => slotEnd_alike hxy.1

theorem processTrueHd_alike {s t : State} (h : Twin s t) (f : Frame) :
    (processTrueHd f s).Alike SameMeaning (processTrueHd f t) := by
  unfold processTrueHd
  refine Micro.alike_andThen (trueHdOpen_alike h f) fun u v huv => ?_
  exact Micro.alike_andThen (slotMarker_alike huv) fun x y hxy => slotBody_alike hxy f

theorem codecOperation_alike {s t : State} (h : Twin s t) (c : Codec) (f : Frame) :
    (codecOperation c f s).Alike SameMeaning (codecOperation c f t) := by
  cases c with
  | ac3 => exact processAc3_alike h f
  | eac3 => exact processEac3_alike h f
  | dts => exact processDts_alike h f
  | mlp => exact processTrueHd_alike h f
  | truehd => exact processTrueHd_alike h f

/-! ### Host steps on two such states -/

/-- Where the first answers a next state, so does the second, and the two agree on every meaningful element. -/
abbrev AnswersAlike (o p : Host.Outcome State Fault Refusal) : Prop :=
  ∀ s', o = .next s' → ∃ t', p = .next t' ∧ SameMeaning s' t'

theorem SameMeaning.answersAlike {s t : State} (h : SameMeaning s t) : AnswersAlike (.next s) (.next t) := by
  intro s' hn
  obtain rfl := Host.Outcome.next.inj hn
  exact ⟨t, rfl, h⟩

theorem SameMeaning.raiseError {s t : State} (h : SameMeaning s t) (k : ErrorKind) :
    SameMeaning (raiseError k s) (raiseError k t) := by
  by_cases hk : k = .writerFault
  · subst hk
    exact h.setFault.respond _
  · rw [raiseError_other s k hk, raiseError_other t k hk]
    exact h.flushState.respond _

theorem finishCommand_alike {m n : Micro} (h : m.Alike SameMeaning n) :
    AnswersAlike (finishCommand m) (finishCommand n) := by
  cases h with
  | done h => exact h.answersAlike
  | raise k h => exact (h.raiseError k).answersAlike
  | unwritten => exact fun _ hn => nomatch hn

theorem execSetup_alike {s t : State} (h : SameMeaning s t) (codec fmt : Byte) :
    AnswersAlike (execSetup codec fmt s) (execSetup codec fmt t) := by
  obtain ⟨-, -, -, -, -, -, hfault, -⟩ := id h
  unfold execSetup
  rw [hfault]
  split_ifs
  · exact (h.respond _).answersAlike
  · exact (h.setupSession codec fmt).answersAlike

theorem execProcess_alike {s t : State} (h : SameMeaning s t) (invS : MachineInv s) (invT : MachineInv t) (f : Frame) :
    AnswersAlike (exec (.process f) s) (exec (.process f) t) := by
  obtain ⟨-, -, -, -, -, hconf, hfault, -, -, -, hcfg, -⟩ := id h
  by_cases hf : s.fault = true
  · rw [exec_process_fault hf, exec_process_fault (hfault ▸ hf)]
    exact (h.respond _).answersAlike
  · rw [Bool.not_eq_true] at hf
    by_cases hc : s.configured = true
    · obtain ⟨hcodec, -⟩ := hcfg hc
      rw [exec_process_accepted hf hc, exec_process_accepted (hfault ▸ hf) (hconf ▸ hc), ← hcodec]
      exact finishCommand_alike (codecOperation_alike ⟨h, hc, invS, invT⟩ _ f)
    · rw [Bool.not_eq_true] at hc
      rw [exec_process_unconfigured hf hc, exec_process_unconfigured (hfault ▸ hf) (hconf ▸ hc)]
      exact (h.respond _).answersAlike

theorem answerUndecoded_alike {s t : State} (h : SameMeaning s t) (err : DecodeError) :
    AnswersAlike (answerUndecoded err s) (answerUndecoded err t) := by
  cases err with
  | illegalOpc | reservedBits | unusedArgument => exact (h.respond _).answersAlike
  | wopReservedBits | wopUnusedCode => exact SameMeaning.answersAlike (s := rejectMicro s) (t := rejectMicro t) h
  | descriptorLength | writeLength => exact fun _ hn => nomatch hn

theorem hostStep_alike {s t : State} (h : SameMeaning s t) (invS : MachineInv s) (invT : MachineInv t)
    (hh : hostNext s = true) : AnswersAlike (step s) (step t) := by
  obtain ⟨-, same, -⟩ := id h
  rcases hostNext_cases hh with hin | ⟨rest, hin⟩ | ⟨w, d, avail, rest, hin⟩
  · rw [step_idle hin, step_idle (same ▸ hin)]
    exact h.answersAlike
  · rw [step_rst hin, step_rst (same ▸ hin)]
    exact (h.hardReset rest).answersAlike
  · have taken := h.accept avail rest
    cases hd : decode (.cmd w d) with
    | ok i =>
      rw [step_decoded hin hd, step_decoded (same ▸ hin) hd]
      rcases decodeCmd_cases hd with ⟨codec, fmt, rfl⟩ | ⟨f, rfl⟩ | rfl
      · exact execSetup_alike taken codec fmt
      · exact execProcess_alike taken invS invT f
      · exact (taken.flushState.respond _).answersAlike
    | error err =>
      rw [step_undecoded hin hd, step_undecoded (same ▸ hin) hd]
      exact answerUndecoded_alike taken err

/-- Settles O17: every branch of an operation is decided by meaningful elements, and what it stores or emits is made of
them. -/
theorem unspecifiedElementsNeverMatter : Obligations.UnspecifiedElementsNeverMatter := by
  unfold Obligations.UnspecifiedElementsNeverMatter
  intro s t s' ⟨invS, _⟩ ⟨invT, _⟩ same hh hn
  exact hostStep_alike same invS invT hh s' hn

end Sys2Proof.Machine
end

section
/-! PROOFS. The family of spec/20_memory.md: the 16-bit words a downstream reader forms from what a WRITE of a big-endian
source leaves (R77). -/

namespace Sys2Proof.Machine

/-- The exchange of R62 and the reader's byte order undo each other on a pair. -/
theorem wordAt_wireBytes_pair_zero (be : Bool) (x y : Byte) (rest : List Byte) :
    wordAt be (wireBytes (true != be) be (x :: y :: rest)) 0 = x.toNat * 256 + y.toNat := by
  cases be <;> rfl

theorem wordAt_wireBytes_pair_add_two (be : Bool) (x y : Byte) (rest : List Byte) (a : Nat) :
    wordAt be (wireBytes (true != be) be (x :: y :: rest)) (a + 2) = wordAt be (wireBytes (true != be) be rest) a := by
  cases be <;> rfl

/-- The promoted word is stored in the destination order, whatever the source's (R64). -/
theorem wordAt_wireBytes_odd_zero (swap be : Bool) (x : Byte) :
    wordAt be (wireBytes swap be [x]) 0 = x.toNat * 256 := by
  cases be <;> simp [wordAt, wireBytes, halfBytes]

/-- The law of R77 for both parities at once: past the last byte the source counts as 0. Past the last word both sides
are 0, so it holds for every `k`. -/
theorem wordAt_wireBytes_bigEndian (be : Bool) (data : List Byte) (k : Nat) :
    wordAt be (wireBytes (true != be) be data) (2 * k) =
      (data.getD (2 * k) 0).toNat * 256 + (data.getD (2 * k + 1) 0).toNat := by
  induction data using pairs_induction generalizing k with
  | nil => cases be <;> simp [wordAt, wireBytes]
  | one x =>
    cases k with
    | zero => simpa using wordAt_wireBytes_odd_zero (true != be) be x
    | succ k => cases be <;> simp [wordAt, wireBytes, halfBytes, Nat.mul_succ]
  | pair x y rest ih =>
    cases k with
    | zero => exact wordAt_wireBytes_pair_zero be x y rest
    | succ k => exact (wordAt_wireBytes_pair_add_two be x y rest (2 * k)).trans (ih k)

/-- Settles O51: a whole pair is the law of R77 itself; for the odd tail the source has no low byte. -/
theorem wordSequenceIsTheSameInBothFormats : Obligations.WordSequenceIsTheSameInBothFormats := by
  unfold Obligations.WordSequenceIsTheSameInBothFormats
  intro be data k
  refine ⟨fun _ => wordAt_wireBytes_bigEndian be data k, fun hodd => ?_⟩
  have low : data.getD (2 * k + 1) 0 = 0 := List.getD_eq_default _ _ hodd.ge
  rw [wordAt_wireBytes_bigEndian, low]
  exact Nat.add_zero _

end Sys2Proof.Machine
end

section
/-! PROOFS. The family of spec/30_encoding.md: decoding undoes encoding (R90 to R93, R96, R99, R100), illegal words and
unused micro-operations change nothing (R97, R100), and every command has one response (R98). -/

namespace Sys2Proof.Machine

/-! ### Decoding undoes encoding -/

/-- Settles O1: instruction by instruction, from the fields of the encoded words. -/
theorem decodeOfEncodeIsTheInstruction : Obligations.DecodeOfEncodeIsTheInstruction := by
  unfold Obligations.DecodeOfEncodeIsTheInstruction
  intro i
  cases i with
  | setup codec fmt => exact Laws.RoundTrip.setup codec fmt
  | process f => exact Laws.RoundTrip.process f
  | processAc3 f => exact Laws.RoundTrip.processAc3 f
  | processEac3 f => exact Laws.RoundTrip.processEac3 f
  | processDts f => exact Laws.RoundTrip.processDts f
  | processTrueHd f => exact Laws.RoundTrip.processTrueHd f
  | flush => exact Laws.RoundTrip.flush
  | alloc cap pts dts ns => exact Laws.RoundTrip.alloc cap pts dts ns
  | write data srcBe => exact Laws.RoundTrip.write data srcBe
  | pad size => exact Laws.RoundTrip.pad size
  | finalize dt mult => exact Laws.RoundTrip.finalize dt mult
  | rewind => exact Laws.RoundTrip.rewind
  | discard => exact Laws.RoundTrip.discard

/-- Settles O4: the decoder evaluated on the eleven words. -/
theorem wordsOfTheSpecDecode : Obligations.WordsOfTheSpecDecode := by
  unfold Obligations.WordsOfTheSpecDecode
  decide

/-! ### The legal command words -/

/-- The words of the three host commands: SETUP with any operands, PROCESS and FLUSH (R92, R93, R96). -/
abbrev HostWord (w : Word) : Prop :=
  (∃ fmt codec, w = cmdWord 0x01 fmt codec) ∨ w = cmdWord 0x02 0 0 ∨ w = cmdWord 0x03 0 0

theorem decodeCmd_setupWord (fmt codec : Byte) (d : Descriptor) :
    decodeCmd (cmdWord 0x01 fmt codec) d = .ok (.setup codec fmt) := by
  simp [decodeCmd]

theorem decodeCmd_processWord (d : Descriptor) : decodeCmd (cmdWord 0x02 0 0) d = (frameOf d).map .process := by
  simp [decodeCmd, cmdArgsZero]

theorem decodeCmd_flushWord (d : Descriptor) : decodeCmd (cmdWord 0x03 0 0) d = .ok .flush := by
  simp [decodeCmd, cmdArgsZero]

/-- Any other command word is answered IllegalCommand, whatever descriptor comes with it (R97). -/
theorem decodeCmd_of_not_hostWord {w : Word} (hw : ¬ HostWord w) (d : Descriptor) :
    ∃ e, decodeCmd w d = .error e ∧ ∀ s, answerUndecoded e s = .next (respond (.error .illegalCommand) s) := by
  by_cases hopc : cmdOpc w ≠ 0x01 ∧ cmdOpc w ≠ 0x02 ∧ cmdOpc w ≠ 0x03
  · exact ⟨.illegalOpc, if_pos hopc, fun _ => rfl⟩
  by_cases hrsv : cmdRsv w = 0
  · have fields := cmdWord_fields hrsv
    have setup : cmdOpc w ≠ 0x01 := fun h => hw (.inl ⟨cmdArg1 w, cmdArg0 w, by rw [← h, fields]⟩)
    have args : cmdArgsZero w = false := by
      by_contra zero
      obtain ⟨h1, h0⟩ : cmdArg1 w = 0 ∧ cmdArg0 w = 0 := by simpa [cmdArgsZero] using zero
      rw [h1, h0] at fields
      by_cases hp : cmdOpc w = 0x02
      · exact hw (.inr (.inl (hp ▸ fields.symm)))
      · have hf : cmdOpc w = 0x03 := by tauto
        exact hw (.inr (.inr (hf ▸ fields.symm)))
    exact ⟨.unusedArgument, by rw [decodeCmd, if_neg hopc, if_neg (not_not.2 hrsv), if_neg setup, if_pos args],
      fun _ => rfl⟩
  · exact ⟨.reservedBits, by rw [decodeCmd, if_neg hopc, if_pos hrsv], fun _ => rfl⟩

theorem hostWord_of_decodeCmd_ok {w : Word} {d : Descriptor} {i : Instr} (h : decodeCmd w d = .ok i) :
    HostWord w := by
  by_contra hw
  obtain ⟨e, he, -⟩ := decodeCmd_of_not_hostWord hw d
  cases he.symm.trans h

/-- R97's tests on the fields of a word, as numbers, leave exactly the host's words. -/
theorem hostWord_iff (w : Word) :
    HostWord w ↔ (w.toNat / 2 ^ 24 = 1 ∨ w.toNat / 2 ^ 24 = 2 ∨ w.toNat / 2 ^ 24 = 3) ∧ w.toNat / 2 ^ 16 % 256 = 0 ∧
      (w.toNat / 2 ^ 24 = 2 ∨ w.toNat / 2 ^ 24 = 3 → w.toNat % 2 ^ 16 = 0) := by
  have opc1 : (0x01 : Byte).toNat = 1 := rfl
  have opc2 : (0x02 : Byte).toNat = 2 := rfl
  have opc3 : (0x03 : Byte).toNat = 3 := rfl
  have arg : (0 : Byte).toNat = 0 := rfl
  constructor
  · rintro (⟨fmt, codec, rfl⟩ | rfl | rfl) <;> rw [cmdWord_toNat] <;> omega
  · rintro ⟨hopc, hrsv, hargs⟩
    rcases hopc with hopc | hopc | hopc
    · refine .inl ⟨cmdArg1 w, cmdArg0 w, BitVec.eq_of_toNat_eq ?_⟩
      rw [cmdWord_toNat, cmdArg1_toNat, cmdArg0_toNat]
      omega
    · refine .inr (.inl (BitVec.eq_of_toNat_eq ?_))
      rw [cmdWord_toNat]
      omega
    · refine .inr (.inr (BitVec.eq_of_toNat_eq ?_))
      rw [cmdWord_toNat]
      omega

/-- With FR_LEN the number of FR_DATA bytes a word of the host decodes (R91, R93). -/
theorem decodeCmd_of_hostWord {w : Word} {d : Descriptor} (hw : HostWord w) (hd : d.len.toNat = d.data.length) :
    ∃ i, decodeCmd w d = .ok i := by
  rcases hw with ⟨fmt, codec, rfl⟩ | rfl | rfl
  · exact ⟨_, decodeCmd_setupWord fmt codec d⟩
  · exact ⟨_, by rw [decodeCmd_processWord, frameOf, if_pos hd]; rfl⟩
  · exact ⟨_, decodeCmd_flushWord d⟩

/-- The step on an illegal command word (R97). -/
theorem step_illegalCommand {s : State} {w : Word} {d : Descriptor} {avail : Bool} {rest : List Input}
    (hin : s.input = .req (.cmd w d) avail :: rest) (hw : ¬ HostWord w) :
    step s = .next (respond (.error .illegalCommand) (accept avail rest s)) := by
  obtain ⟨e, he, answer⟩ := decodeCmd_of_not_hostWord hw d
  rw [step_undecoded hin he, answer]

/-- Settles O3: R97's tests single out the words of the host, which decode; any other is answered alike. -/
theorem illegalCommandChangesNothing : Obligations.IllegalCommandChangesNothing := by
  unfold Obligations.IllegalCommandChangesNothing
  intro s w d avail rest hin
  refine ⟨fun illegal => ?_, fun legal hd => ?_⟩
  · have hw : ¬ HostWord w := fun h => by
      have := (hostWord_iff w).1 h
      tauto
    exact step_illegalCommand hin hw
  · exact decodeCmd_of_hostWord ((hostWord_iff w).2 (by tauto)) hd

/-! ### The word of a decoded instruction -/

/-- A command word that decodes is the word of its instruction (R90, R97). -/
theorem encode_of_decodeCmd {w : Word} {d : Descriptor} {i : Instr} (h : decodeCmd w d = .ok i) :
    ∃ d', encode i = .cmd w d' := by
  rcases hostWord_of_decodeCmd_ok h with ⟨fmt, codec, rfl⟩ | rfl | rfl
  · obtain rfl := Except.ok.inj ((decodeCmd_setupWord fmt codec d).symm.trans h)
    exact ⟨_, rfl⟩
  · rw [decodeCmd_processWord] at h
    cases hf : frameOf d with
    | ok f =>
      rw [hf] at h
      obtain rfl := Except.ok.inj h
      exact ⟨_, rfl⟩
    | error e =>
      rw [hf] at h
      cases h
  · obtain rfl := Except.ok.inj ((decodeCmd_flushWord d).symm.trans h)
    exact ⟨_, rfl⟩

/-- A micro-operation word that decodes is the word of its instruction (R100). -/
theorem encode_of_decodeWop {w : Byte} {o : WopOperands} {i : Instr} (h : decodeWop w o = .ok i) :
    ∃ o', encode i = .wop w o' := by
  unfold decodeWop at h
  split_ifs at h with hres h0 h1 hn h2 h3 h4 h5
  all_goals
    obtain rfl := Except.ok.inj h
    have word : wopWord (wopCode w) = w := wopWord_code (not_not.1 hres)
  · exact ⟨_, congrArg₂ Encoded.wop (h0 ▸ word) rfl⟩
  · exact ⟨_, congrArg₂ Encoded.wop (h1 ▸ word) rfl⟩
  · exact ⟨_, congrArg₂ Encoded.wop (h2 ▸ word) rfl⟩
  · exact ⟨_, congrArg₂ Encoded.wop (h3 ▸ word) rfl⟩
  · exact ⟨_, congrArg₂ Encoded.wop (h4 ▸ word) rfl⟩
  · exact ⟨_, congrArg₂ Encoded.wop (h5 ▸ word) rfl⟩

/-- Settles O2: on either port a word that decodes has its reserved and unused bits 0, so its fields give it back. -/
theorem eachWordIsTheWordOfItsInstruction : Obligations.EachWordIsTheWordOfItsInstruction :=
  ⟨fun _ _ _ => encode_of_decodeCmd, fun _ _ _ => encode_of_decodeWop⟩

/-! ### Refused micro-operations -/

theorem wopWord_toNat (c : BitVec 3) : (wopWord c).toNat = c.toNat := by
  revert c
  decide

/-- A micro-operation word above the six codes has a reserved bit or an unused code, and is refused (R100, U11). -/
theorem decodeWop_of_unused {w : Byte} (hw : 6 ≤ w.toNat) (o : WopOperands) :
    ∃ e, decodeWop w o = .error e ∧ ∀ s, answerUndecoded e s = .next (rejectMicro s) := by
  by_cases hres : wopReserved w = 0
  · rw [← wopWord_code hres, wopWord_toNat] at hw
    have unused : ∀ c : BitVec 3, c.toNat < 6 → wopCode w ≠ c := fun c hc h => by
      rw [h] at hw
      omega
    refine ⟨.wopUnusedCode, ?_, fun _ => rfl⟩
    rw [decodeWop, if_neg (not_not.2 hres), if_neg (unused 0 (by decide)), if_neg (unused 1 (by decide)),
      if_neg (unused 2 (by decide)), if_neg (unused 3 (by decide)), if_neg (unused 4 (by decide)),
      if_neg (unused 5 (by decide))]
  · exact ⟨.wopReservedBits, if_pos hres, fun _ => rfl⟩

/-- FINALIZE with a multiplier outside its domain (R134, U11). -/
theorem exec_finalize_refused {mult : BitVec 4} (h1 : mult ≠ 1) (h8 : mult ≠ 8) (dt : Half) (s : State) :
    exec (.finalize dt mult) s = .next (rejectMicro s) :=
  if_pos ⟨h1, h8⟩

/-- Settles O49: both are answered `rejected` with the state as it was taken. -/
theorem unusedMicroOperationsAreRefused : Obligations.UnusedMicroOperationsAreRefused := by
  unfold Obligations.UnusedMicroOperationsAreRefused
  refine ⟨fun s w o avail rest hin hw => ?_, fun s dt mult h1 h8 => exec_finalize_refused h1 h8 dt s⟩
  obtain ⟨e, he, answer⟩ := decodeWop_of_unused hw o
  rw [step_undecoded hin he, answer]
  rfl

/-! ### The response to a command -/

/-- `t` answers `r` to the command taken in `s`, with a record exactly for COMPLETE (R39, R98, R270). -/
abbrev Answers (s : State) (r : Response) (t : State) : Prop :=
  t.rsp = some r ∧ t.input = s.input ∧ (t.out.isSome = true ↔ r = .complete)

/-- A response that is not PROCESS's alone (R98). -/
abbrev Response.Plain (r : Response) : Prop := r = .done ∨ ∃ k, r = .error k

/-- OUT is empty when a command is taken, and no response but COMPLETE fills it. -/
theorem respond_answers {s u : State} {r : Response} (hin : u.input = s.input) (hout : u.out = none)
    (hr : r ≠ .complete) : Answers s r (respond r u) := by
  refine ⟨rfl, hin, ?_⟩
  simp [hout, hr]

theorem execSetup_answers {s t : State} {codec fmt : Byte} (hout : s.out = none)
    (hn : execSetup codec fmt s = .next t) : ∃ r, r.Plain ∧ Answers s r t := by
  unfold execSetup setupSession at hn
  split_ifs at hn
  · obtain rfl := Host.Outcome.next.inj hn
    exact ⟨.error _, .inr ⟨_, rfl⟩, respond_answers rfl hout nofun⟩
  · obtain rfl := Host.Outcome.next.inj hn
    split
    · exact ⟨.done, .inl rfl, respond_answers rfl hout nofun⟩
    · exact ⟨.error _, .inr ⟨_, rfl⟩, respond_answers rfl hout nofun⟩

theorem SameSession.input_eq {s t : State} (h : SameSession s t) : t.input = s.input := by
  simpa using congrArg State.input h

theorem SameSession.out_eq {s t : State} (h : SameSession s t) : t.out = s.out := by
  simpa using congrArg State.out h

/-- PROCESS is refused, or ends as one of the four operations does (R211, R216). -/
theorem process_answers {s t : State} {f : Frame} (hout : s.out = none) (hn : exec (.process f) s = .next t) :
    ∃ r, r ≠ .done ∧ Answers s r t := by
  rcases exec_process_cases f s with ⟨k, hk⟩ | ⟨hf, hc⟩
  · obtain rfl := Host.Outcome.next.inj (hk ▸ hn)
    exact ⟨.error k, nofun, respond_answers rfl hout nofun⟩
  · obtain ⟨op, ho, hr⟩ := process_runs hf hc f
    rcases runs_cases ho hr hn with ⟨u, hu, rfl⟩ | ⟨u, b, hu, rfl⟩ | ⟨k, -, rfl⟩ | ⟨u, hu, rfl⟩
    · exact ⟨.pending, nofun, respond_answers hu.input_eq (hu.out_eq.trans hout) nofun⟩
    · exact ⟨.complete, nofun, rfl, hu.input_eq, by simp [hu.out_eq]⟩
    · exact ⟨.error k, nofun, respond_answers rfl hout nofun⟩
    · exact ⟨.error .writerFault, nofun, respond_answers hu.input_eq (hu.out_eq.trans hout) nofun⟩

/-- The PROCESS word decodes wherever the step has a next state: with an FR_LEN that is not the number of bytes the
step is refused (log 11). -/
theorem decodeCmd_processWord_of_step {s t : State} {d : Descriptor} {avail : Bool} {rest : List Input}
    (hin : s.input = .req (.cmd (cmdWord 0x02 0 0) d) avail :: rest) (hn : step s = .next t) :
    ∃ f, decodeCmd (cmdWord 0x02 0 0) d = .ok (.process f) := by
  rw [decodeCmd_processWord, frameOf]
  by_cases hd : d.len.toNat = d.data.length
  · exact ⟨_, by rw [if_pos hd]; rfl⟩
  · have undecoded : decode (.cmd (cmdWord 0x02 0 0) d) = .error .descriptorLength := by
      rw [decode, decodeCmd_processWord, frameOf, if_neg hd]
      rfl
    cases (step_undecoded hin undecoded).symm.trans hn

/-- The response to a command taken: PROCESS's is any but DONE, that of every other word is DONE or an error. -/
theorem command_answers {s t : State} {w : Word} {d : Descriptor} {avail : Bool} {rest : List Input}
    (hin : s.input = .req (.cmd w d) avail :: rest) (hn : step s = .next t) :
    ∃ r, Answers (accept avail rest s) r t ∧
      (((∃ f, decodeCmd w d = .ok (.process f)) ∧ r ≠ .done) ∨
        ((∀ f, decodeCmd w d ≠ .ok (.process f)) ∧ r.Plain)) := by
  by_cases hw : HostWord w
  · rcases hw with ⟨fmt, codec, rfl⟩ | rfl | rfl
    · have hd := decodeCmd_setupWord fmt codec d
      obtain ⟨r, hr, ha⟩ := execSetup_answers rfl (step_decoded hin hd ▸ hn)
      exact ⟨r, ha, .inr ⟨(fun _ h => nomatch hd.symm.trans h), hr⟩⟩
    · obtain ⟨f, hd⟩ := decodeCmd_processWord_of_step hin hn
      obtain ⟨r, hr, ha⟩ := process_answers rfl (step_decoded hin hd ▸ hn)
      exact ⟨r, ha, .inl ⟨⟨f, hd⟩, hr⟩⟩
    · have hd := decodeCmd_flushWord d
      obtain rfl := Host.Outcome.next.inj (step_decoded hin hd ▸ hn)
      exact ⟨_, respond_answers rfl rfl nofun, .inr ⟨(fun _ h => nomatch hd.symm.trans h), .inl rfl⟩⟩
  · obtain ⟨e, hd, -⟩ := decodeCmd_of_not_hostWord hw d
    obtain rfl := Host.Outcome.next.inj (step_illegalCommand hin hw ▸ hn)
    exact ⟨_, respond_answers rfl rfl nofun, .inr ⟨(fun _ h => nomatch hd.symm.trans h), .inr ⟨_, rfl⟩⟩⟩

/-- Settles O10: `command_answers` read off the response that stands on RSP. -/
theorem everyCommandGetsOneResponse : Obligations.EveryCommandGetsOneResponse := by
  unfold Obligations.EveryCommandGetsOneResponse
  intro s t w d avail rest hin hn
  obtain ⟨r, ⟨hrsp, hinput, hout⟩, kind⟩ := command_answers hin hn
  rw [hrsp]
  simp only [Option.some.injEq]
  refine ⟨nofun, hinput, hout, ?_, ?_⟩
  · rintro rfl
    rcases kind with ⟨-, hr⟩ | ⟨other, -⟩
    · exact absurd rfl hr
    · exact other
  · intro hr
    rcases kind with ⟨process, -⟩ | ⟨-, rfl | ⟨k, rfl⟩⟩
    · exact process
    · simp at hr
    · simp at hr

end Sys2Proof.Machine
end

section
/-! PROOFS. The family of spec/40_writer.md: what each micro-operation does on the writer port (R131 to R140), that no
command of the host reads a byte never written (R141), and that timestamps never influence the bytes of a burst
(R142). -/

namespace Sys2Proof.Machine

/-! ### No command of the host reads a byte never written -/

/-- A burst in progress that can be emitted: every byte from `low` to OFFSET was written (R141). `low` is 8 where a
preamble will be stamped over the bytes below, and 0 where none will. -/
abbrev WrittenFrom (low : Nat) (s : State) : Prop :=
  MachineInv s ∧ s.burstActive = true ∧ ∀ a < s.offset.toNat, low ≤ a → (s.buf.read a).isSome = true

/-- A sequence reads no unwritten byte if neither part does (R10). -/
theorem Micro.andThen_ne_unwritten {P : State → Prop} {m : Micro} {k : State → Micro} (hm : m ≠ .unwritten)
    (hp : m.Yields P) (hk : ∀ t, P t → k t ≠ .unwritten) : m.andThen k ≠ .unwritten := by
  cases m with
  | done s => exact hk s hp
  | raise e s => nofun
  | unwritten => exact absurd rfl hm

theorem allocBurst_ne_unwritten (cap : Half) (pts dts : Timestamp) (ns : Word) (s : State) :
    allocBurst cap pts dts ns s ≠ .unwritten := by
  unfold allocBurst
  split_ifs <;> nofun

theorem writeBytes_ne_unwritten (data : List Byte) (srcBe : Bool) (s : State) :
    writeBytes data srcBe s ≠ .unwritten := by
  unfold writeBytes
  split_ifs <;> nofun

theorem padZeros_ne_unwritten (size : Nat) (s : State) : padZeros size s ≠ .unwritten := by
  unfold padZeros
  split_ifs <;> nofun

theorem rewindBurst_ne_unwritten (s : State) : rewindBurst s ≠ .unwritten := by
  unfold rewindBurst
  split_ifs <;> nofun

/-- A new burst has nothing below OFFSET but the place of the preamble (R131). -/
theorem allocBurst_writtenFrom {s : State} (hs : MachineInv s) {cap : Half} (hc : AllocCapacity s.params cap)
    (pts dts : Timestamp) (ns : Word) : (allocBurst cap pts dts ns s).Yields (WrittenFrom 8) := by
  have keeps := machineInv_writerInvariant.alloc hs hc pts dts ns
  by_cases ready : s.burstActive = false ∧ s.bufAvail = true
  · obtain ⟨ha, hb⟩ := ready
    rw [allocBurst_ready ha hb] at keeps ⊢
    exact ⟨keeps, rfl, fun a ha8 h8 => absurd h8 (Nat.not_le.2 ha8)⟩
  · rw [allocBurst_refused (by rw [not_and_or] at ready; simpa using ready)]
    trivial

/-- After REWIND no byte stands below OFFSET (R135). -/
theorem rewindBurst_writtenFrom {s : State} (hs : WrittenFrom 8 s) : (rewindBurst s).Yields (WrittenFrom 0) := by
  obtain ⟨inv, ha, -⟩ := hs
  have keeps := rewindBurst_inv inv
  rw [rewindBurst_active ha] at keeps ⊢
  exact ⟨keeps, ha, fun a h0 => absurd h0 (Nat.not_lt_zero a)⟩

/-- What is appended is written (R132, R133). -/
theorem Micro.writtenFrom_of_appended {m : Micro} {s : State} {low n : Nat} (hs : WrittenFrom low s)
    (keeps : m.Keeps MachineInv) (appends : m.Yields (Appended s n)) : m.Yields (WrittenFrom low) := by
  cases m with
  | done t =>
    obtain ⟨buf, off, rfl, -, -, hw⟩ := appends
    obtain ⟨-, ha, hws⟩ := hs
    refine ⟨keeps, ha, fun a hlt hlow => hw a hlt ?_⟩
    by_cases has : s.offset.toNat ≤ a
    · exact .inl has
    · exact .inr (hws a (Nat.lt_of_not_le has) hlow)
  | raise k t => trivial
  | unwritten => trivial

theorem writeBytes_writtenFrom {s : State} {low : Nat} (hs : WrittenFrom low s) (data : List Byte) (srcBe : Bool) :
    (writeBytes data srcBe s).Yields (WrittenFrom low) :=
  Micro.writtenFrom_of_appended hs (writeBytes_inv hs.1 data srcBe) (writeBytes_appends data srcBe s)

theorem padZeros_writtenFrom {s : State} {low : Nat} (hs : WrittenFrom low s) (size : Nat) :
    (padZeros size s).Yields (WrittenFrom low) :=
  Micro.writtenFrom_of_appended hs (padZeros_inv hs.1 size) (padZeros_appends size s)

/-- FINALIZE of such a burst emits it: the preamble covers what `low` leaves out (R134, R141). -/
theorem finalize_complete_ne_unwritten {s : State} {low : Nat} (hs : WrittenFrom low s) {dt : Half}
    (hlow : ∀ a, dt = 0 ∨ 8 ≤ a → low ≤ a) (mult : BitVec 4) :
    ((finalizeBurst dt mult s).andThen fun t => .done (respond .complete t)) ≠ .unwritten := by
  obtain ⟨⟨-, hbuf, hoff⟩, ha, hw⟩ := hs
  obtain ⟨data, emits, -⟩ := finalizeBurst_emits hbuf ha (hoff ha).2 dt mult fun a hlt hdt => hw a hlt (hlow a hdt)
  rw [emits]
  nofun

/-- With a preamble the bytes below 8 need not be written (R138). -/
theorem eight_le_of_preamble {dt : Half} (hdt : dt ≠ 0) (a : Nat) (h : dt = 0 ∨ 8 ≤ a) : 8 ≤ a := h.resolve_left hdt

/-- The WRITE and FINALIZE that end a burst (R160, R180). -/
theorem write_complete_ne_unwritten {s : State} {low : Nat} (hs : WrittenFrom low s) (data : List Byte) (srcBe : Bool)
    {dt : Half} (hlow : ∀ a, dt = 0 ∨ 8 ≤ a → low ≤ a) (mult : BitVec 4) :
    ((writeBytes data srcBe s).andThen fun t =>
      (finalizeBurst dt mult t).andThen fun u => .done (respond .complete u)) ≠ .unwritten :=
  Micro.andThen_ne_unwritten (writeBytes_ne_unwritten data srcBe s) (writeBytes_writtenFrom hs data srcBe)
    fun _ ht => finalize_complete_ne_unwritten ht hlow mult

theorem processAc3_ne_unwritten {s : State} (hs : MachineInv s) (f : Frame) : processAc3 f s ≠ .unwritten := by
  unfold processAc3
  cases ac3Size s.params f with
  | none => nofun
  | some size =>
    simp only
    split_ifs
    · nofun
    · nofun
    · exact Micro.andThen_ne_unwritten (allocBurst_ne_unwritten _ _ _ _ s)
        (allocBurst_writtenFrom hs (.inl (by decide)) _ _ _) fun t ht =>
        write_complete_ne_unwritten ht _ _ (eight_le_of_preamble (ac3DataType_ne_zero f)) _

theorem dtDts_ne_zero {ns : Nat} {dt : Half} (h : dtDts ns = some dt) : dt ≠ 0 := by
  unfold dtDts at h
  split_ifs at h <;> obtain rfl := Option.some.inj h <;> decide

/-- A full DTS frame is emitted with no preamble, and its WRITE starts at byte 0 (R182). -/
theorem processDts_ne_unwritten {s : State} (hs : MachineInv s) (f : Frame) : processDts f s ≠ .unwritten := by
  unfold processDts
  cases dtsSize s.params f with
  | none => nofun
  | some q =>
    obtain ⟨size, ns⟩ := q
    simp only
    cases hdt : dtDts ns with
    | none => nofun
    | some dt =>
      simp only
      split_ifs
      · nofun
      · refine Micro.andThen_ne_unwritten (allocBurst_ne_unwritten _ _ _ _ s)
          (allocBurst_writtenFrom hs (dts_allocCapacity hdt _) _ _ _) fun t ht => ?_
        by_cases bare : dtsBare size ns = true
        · simp only [bare, if_true]
          exact Micro.andThen_ne_unwritten (rewindBurst_ne_unwritten t) (rewindBurst_writtenFrom ht) fun u hu =>
            write_complete_ne_unwritten hu _ _ (fun a _ => Nat.zero_le a) _
        · simp only [bare]
          exact write_complete_ne_unwritten ht _ _ (eight_le_of_preamble (dtDts_ne_zero hdt)) _

/-- A burst in progress at a command boundary can be emitted under a preamble (R35, R141). -/
theorem BurstInv.writtenFrom {s : State} (hb : BurstInv s) (hs : MachineInv s) (ha : s.burstActive = true) :
    WrittenFrom 8 s := by
  obtain ⟨-, -, -, hw⟩ := hb ha
  exact ⟨hs, ha, hw⟩

theorem eac3Open_ne_unwritten (f : Frame) (s : State) : eac3Open f s ≠ .unwritten := by
  unfold eac3Open
  split_ifs
  · nofun
  · exact allocBurst_ne_unwritten _ _ _ _ s

theorem eac3Open_writtenFrom {s : State} (hs : MachineInv s) (hb : BurstInv s) (f : Frame) :
    (eac3Open f s).Yields (WrittenFrom 8) := by
  unfold eac3Open
  split_ifs with ha
  · exact hb.writtenFrom hs ha
  · exact allocBurst_writtenFrom hs (.inr rfl) _ _ _

theorem eac3Count_ne_unwritten {s : State} (hs : WrittenFrom 8 s) (h : HeaderReply) : eac3Count h s ≠ .unwritten := by
  have preamble := eight_le_of_preamble (dt := dtEac3) (by decide)
  unfold eac3Count
  split_ifs
  · nofun
  · exact finalize_complete_ne_unwritten (s := { s with eac3Blocks := 0 }) hs preamble _
  · exact finalize_complete_ne_unwritten (s := { s with eac3Blocks := 0 }) hs preamble _

theorem processEac3_ne_unwritten {s : State} (hs : MachineInv s) (hb : BurstInv s) (f : Frame) :
    processEac3 f s ≠ .unwritten := by
  unfold processEac3
  cases a52Reply s.params f.data with
  | none => nofun
  | some h =>
    simp only
    split_ifs
    · nofun
    · refine Micro.andThen_ne_unwritten (eac3Open_ne_unwritten f s) (eac3Open_writtenFrom hs hb f) fun t ht => ?_
      split_ifs
      · nofun
      · exact Micro.andThen_ne_unwritten (writeBytes_ne_unwritten _ _ t) (writeBytes_writtenFrom ht _ _)
          fun u hu => eac3Count_ne_unwritten hu h

theorem trueHdOpen_ne_unwritten (f : Frame) (s : State) : trueHdOpen f s ≠ .unwritten := by
  unfold trueHdOpen
  split_ifs
  · nofun
  · exact allocBurst_ne_unwritten _ _ _ _ s

theorem trueHdOpen_writtenFrom {s : State} (hs : MachineInv s) (hb : BurstInv s) (f : Frame) :
    (trueHdOpen f s).Yields (WrittenFrom 8) := by
  unfold trueHdOpen
  split_ifs with ha
  · exact hb.writtenFrom hs ha
  · exact allocBurst_writtenFrom hs (.inl (by decide)) _ _ _

theorem slotMarker_ne_unwritten (s : State) : slotMarker s ≠ .unwritten := by
  unfold slotMarker
  split_ifs
  · exact writeBytes_ne_unwritten _ _ s
  · exact writeBytes_ne_unwritten _ _ s
  · nofun

theorem slotMarker_writtenFrom {s : State} (hs : WrittenFrom 8 s) : (slotMarker s).Yields (WrittenFrom 8) :=
  Micro.writtenFrom_of_appended hs (machineInv_writerInvariant.slotMarker_keeps hs.1) (slotMarker_appends s)

theorem slotEnd_ne_unwritten {s : State} (hs : WrittenFrom 8 s) : slotEnd s ≠ .unwritten := by
  unfold slotEnd
  split_ifs
  · refine Micro.andThen_ne_unwritten (writeBytes_ne_unwritten _ _ s) (writeBytes_writtenFrom hs _ _) fun t ht => ?_
    exact finalize_complete_ne_unwritten (s := { t with trueHdIdx := 0 }) ht
      (eight_le_of_preamble (dt := dtTrueHd) (by decide)) _
  · nofun

theorem slotBody_ne_unwritten {s : State} (hs : WrittenFrom 8 s) (f : Frame) : slotBody f s ≠ .unwritten := by
  unfold slotBody
  split_ifs
  · nofun
  · refine Micro.andThen_ne_unwritten (writeBytes_ne_unwritten _ _ s) (writeBytes_writtenFrom hs _ _) fun t ht => ?_
    exact Micro.andThen_ne_unwritten (padZeros_ne_unwritten _ t) (padZeros_writtenFrom ht _)
      fun u hu => slotEnd_ne_unwritten hu

theorem processTrueHd_ne_unwritten {s : State} (hs : MachineInv s) (hb : BurstInv s) (f : Frame) :
    processTrueHd f s ≠ .unwritten := by
  unfold processTrueHd
  refine Micro.andThen_ne_unwritten (trueHdOpen_ne_unwritten f s) (trueHdOpen_writtenFrom hs hb f) fun t ht => ?_
  exact Micro.andThen_ne_unwritten (slotMarker_ne_unwritten t) (slotMarker_writtenFrom ht)
    fun u hu => slotBody_ne_unwritten hu f

theorem codecOperation_ne_unwritten {s : State} (hs : MachineInv s) (hb : BurstInv s) (c : Codec) (f : Frame) :
    codecOperation c f s ≠ .unwritten := by
  cases c with
  | ac3 => exact processAc3_ne_unwritten hs f
  | eac3 => exact processEac3_ne_unwritten hs hb f
  | dts => exact processDts_ne_unwritten hs f
  | mlp => exact processTrueHd_ne_unwritten hs hb f
  | truehd => exact processTrueHd_ne_unwritten hs hb f

/-! ### Every transaction of the host is answered -/

/-- A command is answered unless it reads a byte never written (R213, U7). -/
theorem finishCommand_answered {m : Micro} (h : m ≠ .unwritten) : ∃ t, finishCommand m = .next t := by
  cases m with
  | done s => exact ⟨s, rfl⟩
  | raise k s => exact ⟨raiseError k s, rfl⟩
  | unwritten => exact absurd rfl h

theorem exec_process_answered {s : State} (hl : Legal s) (f : Frame) : ∃ t, exec (.process f) s = .next t := by
  rcases exec_process_cases f s with ⟨k, hk⟩ | ⟨hf, hconf⟩
  · exact ⟨_, hk⟩
  · obtain ⟨burst, -⟩ := hl.2 hf
    rw [exec_process_accepted hf hconf]
    exact finishCommand_answered (codecOperation_ne_unwritten hl.1 burst _ f)

theorem execSetup_answered (codec fmt : Byte) (s : State) : ∃ t, execSetup codec fmt s = .next t := by
  unfold execSetup
  split_ifs
  · exact ⟨_, rfl⟩
  · exact ⟨_, rfl⟩

/-- Settles O16: the only stop on the host's path is a read of a byte never written, and each of the four operations
finalizes a burst that is written from the end of its preamble on. -/
theorem hostStepAlwaysAnswers : Obligations.HostStepAlwaysAnswers := by
  unfold Obligations.HostStepAlwaysAnswers
  intro s hl hh hlen
  rcases hostNext_cases hh with hin | ⟨rest, hin⟩ | ⟨w, d, avail, rest, hin⟩
  · exact ⟨s, step_idle hin⟩
  · exact ⟨_, step_rst hin⟩
  · by_cases hw : HostWord w
    · obtain ⟨i, hd⟩ := decodeCmd_of_hostWord hw (hlen w d avail rest hin)
      have taken : Legal (accept avail rest s) := hl
      rw [step_decoded hin hd]
      rcases decodeCmd_cases hd with ⟨codec, fmt, rfl⟩ | ⟨f, rfl⟩ | rfl
      · exact execSetup_answered codec fmt _
      · exact exec_process_answered taken f
      · exact ⟨_, rfl⟩
    · exact ⟨_, step_illegalCommand hin hw⟩

/-! ### Timestamps -/

/-- A record without its timestamps. -/
def untimedRecord (b : BurstRecord) : BurstRecord := { b with pts := 0, dts := 0 }

/-- A state without its timestamps: those of the burst and of the record on OUT (R32, R39). -/
def untimed (s : State) : State :=
  { s with burstPts := 0, burstDts := 0, out := s.out.map untimedRecord }

@[simp] theorem untimed_params (s : State) : (untimed s).params = s.params := rfl
@[simp] theorem untimed_bufAvail (s : State) : (untimed s).bufAvail = s.bufAvail := rfl
@[simp] theorem untimed_configured (s : State) : (untimed s).configured = s.configured := rfl
@[simp] theorem untimed_cfgCodec (s : State) : (untimed s).cfgCodec = s.cfgCodec := rfl
@[simp] theorem untimed_fault (s : State) : (untimed s).fault = s.fault := rfl
@[simp] theorem untimed_burstActive (s : State) : (untimed s).burstActive = s.burstActive := rfl
@[simp] theorem untimed_cap (s : State) : (untimed s).cap = s.cap := rfl
@[simp] theorem untimed_offset (s : State) : (untimed s).offset = s.offset := rfl
@[simp] theorem untimed_eac3Blocks (s : State) : (untimed s).eac3Blocks = s.eac3Blocks := rfl
@[simp] theorem untimed_trueHdIdx (s : State) : (untimed s).trueHdIdx = s.trueHdIdx := rfl

/-- A frame without its timestamps (R21). -/
def untimedFrame (f : Frame) : Frame := { f with pts := 0, dts := 0 }

/-- How a sequence ends, without the timestamps of the state. -/
def Micro.untimed : Micro → Micro
  | .done s => .done (Machine.untimed s)
  | .raise k s => .raise k (Machine.untimed s)
  | .unwritten => .unwritten

/-- Sequencing two parts of which neither lets a timestamp through to anything else (R10). -/
theorem Micro.andThen_untimed {m n : Micro} {k l : State → Micro} (hm : n = m.untimed)
    (hk : ∀ s, l (Machine.untimed s) = (k s).untimed) : n.andThen l = (m.andThen k).untimed := by
  subst hm
  cases m with
  | done s => exact hk s
  | raise e s => rfl
  | unwritten => rfl

theorem allocBurst_untimed (cap : Half) (pts dts : Timestamp) (ns : Word) (s : State) :
    allocBurst cap 0 0 ns (untimed s) = (allocBurst cap pts dts ns s).untimed := by
  have zero : tsBits s.params 0 = 0 := Nat.zero_mod _
  unfold allocBurst
  rw [untimed_burstActive, untimed_bufAvail, untimed_params, zero]
  split_ifs <;> rfl

theorem writeBytes_untimed (data : List Byte) (srcBe : Bool) (s : State) :
    writeBytes data srcBe (untimed s) = (writeBytes data srcBe s).untimed := by
  unfold writeBytes
  rw [untimed_burstActive, untimed_cap, untimed_offset]
  split_ifs <;> rfl

theorem padZeros_untimed (size : Nat) (s : State) : padZeros size (untimed s) = (padZeros size s).untimed := by
  unfold padZeros
  rw [untimed_burstActive, untimed_cap, untimed_offset]
  split_ifs <;> rfl

theorem rewindBurst_untimed (s : State) : rewindBurst (untimed s) = (rewindBurst s).untimed := by
  unfold rewindBurst
  rw [untimed_burstActive]
  split_ifs <;> rfl

/-- FINALIZE copies the timestamps of the burst to the record and reads them nowhere else (R134). -/
theorem finalizeBurst_untimed (dt : Half) (mult : BitVec 4) (s : State) :
    finalizeBurst dt mult (untimed s) = (finalizeBurst dt mult s).untimed := by
  have image : finalImage dt mult (untimed s) = finalImage dt mult s := rfl
  unfold finalizeBurst
  rw [untimed_burstActive, untimed_cap, image]
  split_ifs
  · rfl
  · cases (finalImage dt mult s).readRange 0 s.cap.toNat with
    | none => rfl
    | some data => rfl

theorem finalize_complete_untimed (dt : Half) (mult : BitVec 4) (s : State) :
    ((finalizeBurst dt mult (untimed s)).andThen fun t => .done (respond .complete t)) =
      ((finalizeBurst dt mult s).andThen fun t => .done (respond .complete t)).untimed :=
  Micro.andThen_untimed (finalizeBurst_untimed dt mult s) fun _ => rfl

theorem processAc3_untimed (f : Frame) (s : State) :
    processAc3 (untimedFrame f) (untimed s) = (processAc3 f s).untimed := by
  have size : ac3Size (untimed s).params (untimedFrame f) = ac3Size s.params f := rfl
  have len : (untimedFrame f).len = f.len := rfl
  unfold processAc3
  rw [size, len]
  cases ac3Size s.params f with
  | none => rfl
  | some size =>
    simp only
    split_ifs
    · rfl
    · rfl
    · refine Micro.andThen_untimed (allocBurst_untimed _ f.pts f.dts _ s) fun t => ?_
      exact Micro.andThen_untimed (writeBytes_untimed _ _ t) fun u => finalize_complete_untimed _ _ u

theorem processDts_untimed (f : Frame) (s : State) :
    processDts (untimedFrame f) (untimed s) = (processDts f s).untimed := by
  have size : dtsSize (untimed s).params (untimedFrame f) = dtsSize s.params f := rfl
  unfold processDts
  rw [size]
  cases dtsSize s.params f with
  | none => rfl
  | some q =>
    obtain ⟨size, ns⟩ := q
    simp only
    cases dtDts ns with
    | none => rfl
    | some dt =>
      simp only
      split_ifs
      · rfl
      · refine Micro.andThen_untimed (allocBurst_untimed _ f.pts f.dts _ s) fun t => ?_
        refine Micro.andThen_untimed ?_ fun u =>
          Micro.andThen_untimed (writeBytes_untimed _ _ u) fun v => finalize_complete_untimed _ _ v
        split_ifs
        · exact rewindBurst_untimed t
        · rfl

theorem eac3Open_untimed (f : Frame) (s : State) :
    eac3Open (untimedFrame f) (untimed s) = (eac3Open f s).untimed := by
  unfold eac3Open
  rw [untimed_burstActive]
  split_ifs
  · rfl
  · exact allocBurst_untimed _ f.pts f.dts _ s

theorem eac3Count_untimed (h : HeaderReply) (s : State) : eac3Count h (untimed s) = (eac3Count h s).untimed := by
  unfold eac3Count
  rw [untimed_eac3Blocks]
  split_ifs
  · rfl
  · exact finalize_complete_untimed _ _ { s with eac3Blocks := 0 }
  · exact finalize_complete_untimed _ _ { s with eac3Blocks := 0 }

theorem processEac3_untimed (f : Frame) (s : State) :
    processEac3 (untimedFrame f) (untimed s) = (processEac3 f s).untimed := by
  have reply : a52Reply (untimed s).params (untimedFrame f).data = a52Reply s.params f.data := rfl
  have len : (untimedFrame f).len = f.len := rfl
  unfold processEac3
  rw [reply, len]
  cases a52Reply s.params f.data with
  | none => rfl
  | some h =>
    simp only
    split_ifs
    · rfl
    · refine Micro.andThen_untimed (eac3Open_untimed f s) fun t => ?_
      rw [untimed_cap, untimed_offset]
      split_ifs
      · rfl
      · exact Micro.andThen_untimed (writeBytes_untimed _ _ t) fun u => eac3Count_untimed h u

theorem trueHdOpen_untimed (f : Frame) (s : State) :
    trueHdOpen (untimedFrame f) (untimed s) = (trueHdOpen f s).untimed := by
  unfold trueHdOpen
  rw [untimed_burstActive]
  split_ifs
  · rfl
  · exact allocBurst_untimed _ f.pts f.dts _ s

theorem slotMarker_untimed (s : State) : slotMarker (untimed s) = (slotMarker s).untimed := by
  unfold slotMarker
  rw [untimed_trueHdIdx]
  split_ifs
  · exact writeBytes_untimed _ _ s
  · exact writeBytes_untimed _ _ s
  · rfl

theorem slotEnd_untimed (s : State) : slotEnd (untimed s) = (slotEnd s).untimed := by
  unfold slotEnd
  rw [untimed_trueHdIdx]
  split_ifs
  · exact Micro.andThen_untimed (writeBytes_untimed _ _ s) fun t =>
      finalize_complete_untimed _ _ { t with trueHdIdx := 0 }
  · rfl

theorem slotBody_untimed (f : Frame) (s : State) :
    slotBody (untimedFrame f) (untimed s) = (slotBody f s).untimed := by
  have rejects : slotRejects (untimedFrame f).len (untimed s).trueHdIdx (untimed s).cap (untimed s).offset =
      slotRejects f.len s.trueHdIdx s.cap s.offset := rfl
  unfold slotBody
  rw [rejects]
  split_ifs
  · rfl
  · refine Micro.andThen_untimed (writeBytes_untimed _ _ s) fun t => ?_
    exact Micro.andThen_untimed (padZeros_untimed _ t) slotEnd_untimed

theorem processTrueHd_untimed (f : Frame) (s : State) :
    processTrueHd (untimedFrame f) (untimed s) = (processTrueHd f s).untimed := by
  unfold processTrueHd
  refine Micro.andThen_untimed (trueHdOpen_untimed f s) fun t => ?_
  exact Micro.andThen_untimed (slotMarker_untimed t) (slotBody_untimed f)

theorem codecOperation_untimed (c : Codec) (f : Frame) (s : State) :
    codecOperation c (untimedFrame f) (untimed s) = (codecOperation c f s).untimed := by
  cases c with
  | ac3 => exact processAc3_untimed f s
  | eac3 => exact processEac3_untimed f s
  | dts => exact processDts_untimed f s
  | mlp => exact processTrueHd_untimed f s
  | truehd => exact processTrueHd_untimed f s

/-! ### Two runs with other timestamps -/

/-- What ends a command reads no timestamp either: a flush draws others whatever they were (R20, R233, R235). -/
theorem raiseError_untimed {s t : State} (h : untimed s = untimed t) (k : ErrorKind) :
    untimed (raiseError k s) = untimed (raiseError k t) := by
  by_cases hk : k = .writerFault
  · subst hk
    exact congrArg (fun u => respond (.error .writerFault) { u with fault := true }) h
  · rw [raiseError_other s k hk, raiseError_other t k hk]
    exact congrArg (fun u => { respond (.error k) (flushState u) with burstPts := 0, burstDts := 0 }) h

/-- Where one command answers, so does another that is the same without timestamps. -/
theorem finishCommand_untimed {m n : Micro} (h : m.untimed = n.untimed) {t : State} (hn : finishCommand m = .next t) :
    ∃ u, finishCommand n = .next u ∧ untimed u = untimed t := by
  cases m with
  | done s =>
    obtain rfl := Host.Outcome.next.inj hn
    cases n with
    | done u => exact ⟨u, rfl, (Micro.done.inj h).symm⟩
    | raise k u => cases h
    | unwritten => cases h
  | raise k s =>
    obtain rfl := Host.Outcome.next.inj hn
    cases n with
    | done u => cases h
    | raise l u =>
      obtain ⟨rfl, hu⟩ := Micro.raise.inj h
      exact ⟨_, rfl, (raiseError_untimed hu k).symm⟩
    | unwritten => cases h
  | unwritten => cases hn

/-- PROCESS of two frames in two states that are the same without timestamps. -/
theorem exec_process_untimed {s u t : State} {f g : Frame} (hs : untimed s = untimed u)
    (hf : untimedFrame f = untimedFrame g) (hn : exec (.process f) s = .next t) :
    ∃ v, exec (.process g) u = .next v ∧ untimed v = untimed t := by
  have fault : s.fault = u.fault := by simpa using congrArg State.fault hs
  have conf : s.configured = u.configured := by simpa using congrArg State.configured hs
  have codec : s.cfgCodec = u.cfgCodec := by simpa using congrArg State.cfgCodec hs
  by_cases hfault : s.fault = true
  · obtain rfl := Host.Outcome.next.inj (exec_process_fault hfault f ▸ hn)
    exact ⟨_, exec_process_fault (fault ▸ hfault) g, congrArg (respond (.error .writerFault)) hs.symm⟩
  · rw [Bool.not_eq_true] at hfault
    by_cases hconf : s.configured = true
    · rw [exec_process_accepted hfault hconf] at hn
      rw [exec_process_accepted (fault ▸ hfault) (conf ▸ hconf)]
      refine finishCommand_untimed ?_ hn
      rw [← codecOperation_untimed, ← codecOperation_untimed, hs, hf, codec]
    · rw [Bool.not_eq_true] at hconf
      obtain rfl := Host.Outcome.next.inj (exec_process_unconfigured hfault hconf f ▸ hn)
      exact ⟨_, exec_process_unconfigured (fault ▸ hfault) (conf ▸ hconf) g,
        congrArg (respond (.error .unsupportedConfiguration)) hs.symm⟩

/-- Two states that are the same without timestamps differ in BURST_PTS, BURST_DTS and OUT only. -/
theorem eq_of_untimed {s t : State} (h : untimed s = untimed t) :
    s = { t with burstPts := s.burstPts, burstDts := s.burstDts, out := s.out } := by
  cases s
  cases t
  simp only [untimed, State.mk.injEq] at h ⊢
  tauto

/-- A record keeps its length, bytes and sample count without its timestamps. -/
theorem out_of_untimed {s t : State} (h : untimed s = untimed t) :
    s.out.map (fun b => (b.len, b.data, b.nsamples)) = t.out.map (fun b => (b.len, b.data, b.nsamples)) := by
  have out := congrArg (fun u => u.out.map fun b => (b.len, b.data, b.nsamples)) h
  simpa [untimed, untimedRecord, Function.comp_def] using out

/-- Settles O18: without timestamps the two runs are one run, since ALLOC and FINALIZE only copy them. -/
theorem timestampsNeverInfluenceTheBurst : Obligations.TimestampsNeverInfluenceTheBurst := by
  unfold Obligations.TimestampsNeverInfluenceTheBurst
  intro s t f fp fd bp bd hn
  obtain ⟨v, hv, same⟩ :=
    exec_process_untimed (s := s) (u := { s with burstPts := bp, burstDts := bd }) (f := f)
      (g := { f with pts := fp, dts := fd }) rfl rfl hn
  exact ⟨_, _, v.out, hv.trans (congrArg _ (eq_of_untimed same)), out_of_untimed same⟩

/-! ### The micro-operations on the writer port -/

/-- Settles O41: with `cap ≥ 8` the transaction is ALLOC itself, and its erasure is of bytes 0 to `cap` - 1. -/
theorem allocReservesTheBuffer : Obligations.AllocReservesTheBuffer := by
  unfold Obligations.AllocReservesTheBuffer
  intro s cap pts dts ns hcap
  have alloc : exec (.alloc cap pts dts ns) s = finishMicro (allocBurst cap pts dts ns s) := if_neg (Nat.not_lt.2 hcap)
  rw [alloc]
  refine ⟨fun ha hb => ⟨_, congrArg finishMicro (allocBurst_ready ha hb cap pts dts ns), fun a => ?_⟩, fun refused =>
    congrArg finishMicro (allocBurst_refused refused cap pts dts ns)⟩
  simp [Memory.read_erase]

/-- Settles O42: `writeBytes_room` on the port, and what a read sees afterwards. -/
theorem writeStoresTheImage : Obligations.WriteStoresTheImage := by
  unfold Obligations.WriteStoresTheImage
  intro s data srcBe ha room
  exact ⟨_, congrArg finishMicro (writeBytes_room ha room srcBe), fun a => read_write_image _ _ a _ _ _⟩

/-- Settles O43: `padZeros_room` on the port, and what a read sees afterwards. -/
theorem padStoresZeros : Obligations.PadStoresZeros := by
  unfold Obligations.PadStoresZeros
  intro s size ha room
  exact ⟨_, congrArg finishMicro (padZeros_room ha room), fun a => read_write_zeros _ _ _ a⟩

/-- Settles O44: every byte below CAP is a zero of the fill, one of the preamble, or was written, so FINALIZE emits. -/
theorem finalizeEmitsTheBurst : Obligations.FinalizeEmitsTheBurst := by
  unfold Obligations.FinalizeEmitsTheBurst
  intro s dt mult ⟨_, hbuf, hoff⟩ ha hmult written
  obtain ⟨_, hle⟩ := hoff ha
  obtain ⟨data, emits, hlen, hdata⟩ := finalizeBurst_emits hbuf ha hle dt mult written
  rw [exec_finalize hmult]
  exact ⟨_, _, congrArg finishMicro emits, rfl, hlen, rfl, rfl, rfl, hdata, read_finalImage hle dt mult⟩

/-- Settles O46: `rewindBurst_active` on the port. -/
theorem rewindSetsOffsetToZero : Obligations.RewindSetsOffsetToZero := by
  unfold Obligations.RewindSetsOffsetToZero
  intro s ha
  exact congrArg finishMicro (rewindBurst_active ha)

/-- Settles O47: DISCARD empties BUF and draws the registers of the burst. -/
theorem discardDropsTheBurst : Obligations.DiscardDropsTheBurst :=
  fun _ => ⟨_, _, _, _, _, [], rfl, Memory.read_nil⟩

/-- Settles O48: each violation raises WriterFault with the state as it was, and on the port that sets FAULT. -/
theorem contractViolationSetsFaultOnly : Obligations.ContractViolationSetsFaultOnly := by
  unfold Obligations.ContractViolationSetsFaultOnly
  intro s i violation
  rcases violation with ⟨ha, ⟨data, srcBe, rfl⟩ | ⟨size, rfl⟩ | rfl | ⟨dt, mult, rfl, hmult⟩⟩ |
    ⟨data, srcBe, rfl, room⟩ | ⟨size, rfl, room⟩
  · exact congrArg finishMicro (writeBytes_violation (.inl ha) srcBe)
  · exact congrArg finishMicro (padZeros_violation (.inl ha))
  · exact congrArg finishMicro (rewindBurst_violation ha)
  · rw [exec_finalize hmult]
    exact congrArg finishMicro (finalizeBurst_violation ha dt mult)
  · exact congrArg finishMicro (writeBytes_violation (.inr room) srcBe)
  · exact congrArg finishMicro (padZeros_violation (.inr room))

/-! ### The 16-bit store -/

/-- A 16-bit value from its two bytes (R7). -/
theorem hiByte_loByte_toNat (v : Half) : (hiByte v).toNat * 256 + (loByte v).toNat = v.toNat := by
  rw [hiByte_eq, loByte_eq, BitVec.toNat_ofNat, BitVec.toNat_ofNat]
  omega

/-- The two bytes that `set16` stores read as its value in the destination order (R60, R137). -/
theorem halfBytes_value (be : Bool) (v : Half) :
    ∃ x y, halfBytes be v = [x, y] ∧ (if be then x.toNat * 256 + y.toNat else y.toNat * 256 + x.toNat) = v.toNat := by
  cases be with
  | true => exact ⟨_, _, rfl, hiByte_loByte_toNat v⟩
  | false => exact ⟨_, _, rfl, hiByte_loByte_toNat v⟩

/-- Settles O50: `set16` stores exactly the bytes of `halfBytes`, at `a` and `a + 1`. -/
theorem set16StoresOneWord : Obligations.Set16StoresOneWord := by
  unfold Obligations.Set16StoresOneWord
  intro be m a v
  obtain ⟨x, y, bytes, value⟩ := halfBytes_value be v
  refine ⟨⟨x, y, ?_, ?_, value⟩, fun b ha ha1 => ?_⟩
  · simp [Memory.read_set16, bytes]
  · simp [Memory.read_set16, bytes]
  · rw [Memory.read_set16, if_neg (by omega)]

end Sys2Proof.Machine
end

section
/-! PROOFS. The family of spec/41_ac3.md: which frames PROCESS.AC3 rejects (R160, R161), the burst of an accepted one
(R160, R162, R164), and that of the four operations only PROCESS.TRUEHD can violate the writer's contract (R163, R174,
R184, R194). -/

namespace Sys2Proof.Machine

/-! ### Accepted and rejected frames -/

theorem processAc3_accepted {s : State} {f : Frame} {size : Nat} (h : Ac3Accepts s.params f size) :
    processAc3 f s = ac3Emit f size s := by
  obtain ⟨hsize, hlen, hroom⟩ := (ac3Size_iff s.params f size).2 h
  unfold processAc3
  rw [hsize]
  simp only
  rw [if_neg (Nat.not_lt.2 hlen)]
  exact if_neg (Nat.not_lt.2 hroom)

theorem processAc3_rejected {s : State} {f : Frame} (h : ∀ size, ¬ Ac3Accepts s.params f size) :
    processAc3 f s = .raise .malformedFrame s := by
  unfold processAc3
  cases hsize : ac3Size s.params f with
  | none => rfl
  | some size =>
    simp only
    split_ifs with hlen hroom
    · rfl
    · rfl
    · exact absurd ((ac3Size_iff s.params f size).1 ⟨hsize, Nat.le_of_not_lt hlen, Nat.le_of_not_lt hroom⟩) (h size)

/-- No more bytes are written than the frame has. -/
theorem Ac3Accepts.size_le {p : Params} {f : Frame} {size : Nat} (h : Ac3Accepts p f size) : size ≤ f.len := by
  obtain ⟨⟨-, -, -, rfl⟩ | ⟨-, h, -, -, hle, rfl⟩, -⟩ := h
  · exact le_rfl
  · exact hle

theorem ac3Emit_refused {s : State} (h : s.burstActive = true ∨ s.bufAvail = false) (f : Frame) (size : Nat) :
    ac3Emit f size s = .raise .allocationFailure s := by
  rw [ac3Emit, allocBurst_refused h]
  rfl

/-- Any error but WriterFault is answered with the session flushed (R233). -/
theorem finishCommand_flushes {k : ErrorKind} (hk : k ≠ .writerFault) (s : State) :
    ∃ u, FlushedFrom s u ∧ finishCommand (.raise k s) = .next { u with rsp := some (.error k) } :=
  ⟨flushState s, flushState_flushed s, congrArg Host.Outcome.next (raiseError_other s k hk)⟩

/-- Settles O27: R160's tests precede ALLOC, so a rejected frame never samples BUF_AVAIL; both errors flush. -/
theorem ac3RejectsFrames : Obligations.Ac3RejectsFrames := by
  unfold Obligations.Ac3RejectsFrames
  intro s f i hr
  rw [runs_processAc3 hr]
  refine ⟨fun rejected => ?_, fun size accepted hb => ?_⟩
  · rw [processAc3_rejected rejected]
    exact finishCommand_flushes (by decide) s
  · rw [processAc3_accepted accepted, ac3Emit_refused (.inr hb)]
    exact finishCommand_flushes (by decide) s

/-! ### The burst of an accepted frame -/

/-- With a whole number of words from OFFSET to CAP, a payload that fits leaves room for its promoted byte (R163). -/
theorem payload_fits {offset cap n : Nat} (parity : offset % 2 = cap % 2) (h : offset + n ≤ cap) (f : Frame) :
    offset + imageSize (payload f n).length ≤ cap := by
  have hlen : (payload f n).length ≤ n := List.length_take_le n f.data
  unfold imageSize
  omega

/-- The burst that ALLOC opens for a frame: 6144 bytes, none of them written (R131, R160). -/
def ac3Opened (f : Frame) (s : State) : State :=
  { s with
    cap := 6144
    offset := 8
    burstPts := tsBits s.params f.pts
    burstDts := tsBits s.params f.dts
    burstNSamples := 1536
    buf := s.buf.erase 0 6144
    burstActive := true }

theorem ac3Emit_opened {s : State} (ha : s.burstActive = false) (hb : s.bufAvail = true) (f : Frame) (size : Nat) :
    ac3Emit f size s =
      (writeBytes (payload f size) true (ac3Opened f s)).andThen fun t =>
        (finalizeBurst (ac3DataType f) multBits t).andThen fun u => .done (respond .complete u) := by
  rw [ac3Emit, allocBurst_ready ha hb]
  rfl

/-- The length field in bits does not wrap: the largest payload has 49088 of them (R160). -/
theorem ac3_lengthField {n : Nat} (h : 8 + n ≤ 6144) :
    ((8 : Half).toNat - 8 + n) * multBits.toNat % 65536 = n * 8 := by
  have eight : (8 : Half).toNat = 8 := rfl
  have bits : multBits.toNat = 8 := rfl
  rw [eight, bits]
  omega

/-- Counters that are set to what they are. -/
theorem set_counters_self {t : State} {blocks : Word} {idx : Fin 24} (hblocks : t.eac3Blocks = blocks)
    (hidx : t.trueHdIdx = idx) : { t with eac3Blocks := blocks, trueHdIdx := idx } = t := by
  subst hblocks hidx
  rfl

/-- Settles O26: ALLOC opens 6144 bytes at OFFSET 8, and `write_finalize` says what its WRITE and FINALIZE emit. -/
theorem ac3FrameBecomesOneBurst : Obligations.Ac3FrameBecomesOneBurst := by
  unfold Obligations.Ac3FrameBecomesOneBurst
  intro s f size i hr hw ha hb accepted
  have length : (payload f size).length = size := payload_length accepted.size_le
  have fits : 8 + imageSize (payload f size).length ≤ 6144 := by
    obtain ⟨-, -, hroom⟩ := accepted
    exact payload_fits (by decide) (Nat.add_comm size 8 ▸ hroom) f
  obtain ⟨t, m, data, hwrite, hfin, hblocks, hidx, hlen, hpre, -, himage, hzeros⟩ :=
    write_finalize (s := ac3Opened f s) (Memory.wf_erase hw 0 6144) rfl (ac3DataType f) multBits true
      (payload f size) fits (.inr le_rfl)
      (fun a hlt hdt => absurd (eight_le_of_preamble (ac3DataType_ne_zero f) a hdt) (Nat.not_le.2 hlt))
      s.eac3Blocks s.trueHdIdx
  rw [set_counters_self (blocks := s.eac3Blocks) (idx := s.trueHdIdx) hblocks hidx] at hfin
  rw [runs_processAc3 hr, processAc3_accepted accepted, ac3Emit_opened ha hb, hwrite, Micro.andThen_done, hfin]
  rw [length] at fits hpre himage hzeros
  refine ⟨m, ⟨6144, data, 1536, tsBits s.params f.pts, tsBits s.params f.dts⟩, ?_, rfl, hlen, rfl, rfl, rfl, ?_,
    himage, hzeros⟩
  · rw [ha]
    rfl
  · exact (hpre (ac3DataType_ne_zero f)).trans (congrArg₂ _ (ac3DataType_toNat f) (ac3_lengthField fits))

/-! ### Which operations can violate the writer's contract -/

/-- If the sequence raises WriterFault, then `P`. -/
abbrev Micro.FaultsOnlyIf (P : Prop) (m : Micro) : Prop := m.Ends (fun _ => True) fun k _ => k = .writerFault → P

/-- The sequence never raises WriterFault (R163, R174, R184). -/
abbrev Micro.NeverFaults (m : Micro) : Prop := m.FaultsOnlyIf False

theorem Micro.NeverFaults.faultsOnlyIf {m : Micro} (h : m.NeverFaults) (P : Prop) : m.FaultsOnlyIf P :=
  Micro.ends_mono h (fun _ => id) fun _ _ hk e => (hk e).elim

/-- Sequencing (R10). -/
theorem Micro.andThen_faultsOnlyIf {P : Prop} {D : State → Prop} {m : Micro} {k : State → Micro} (hm : m.NeverFaults)
    (hd : m.Yields D) (hk : ∀ t, D t → (k t).FaultsOnlyIf P) : (m.andThen k).FaultsOnlyIf P := by
  cases m with
  | done s => exact hk s hd
  | raise e s => exact fun he => (hm he).elim
  | unwritten => trivial

theorem allocBurst_neverFaults (cap : Half) (pts dts : Timestamp) (ns : Word) (s : State) :
    (allocBurst cap pts dts ns s).NeverFaults := by
  unfold allocBurst
  split_ifs
  · exact nofun
  · exact nofun
  · trivial

/-- A burst in progress with these CAP and OFFSET. -/
abbrev BurstAt (cap offset : Nat) (s : State) : Prop :=
  s.burstActive = true ∧ s.cap.toNat = cap ∧ s.offset.toNat = offset

theorem allocBurst_burstAt (cap : Half) (pts dts : Timestamp) (ns : Word) (s : State) :
    (allocBurst cap pts dts ns s).Yields (BurstAt cap.toNat 8) := by
  unfold allocBurst
  split_ifs
  · trivial
  · trivial
  · exact ⟨rfl, rfl, rfl⟩

/-- FINALIZE of a burst in progress (R134, R140). -/
theorem finalize_complete_neverFaults {s : State} (ha : s.burstActive = true) (dt : Half) (mult : BitVec 4) :
    ((finalizeBurst dt mult s).andThen fun t => .done (respond .complete t)).NeverFaults := by
  rw [finalizeBurst, if_neg (by simp [ha])]
  cases (finalImage dt mult s).readRange 0 s.cap.toNat with
  | none => trivial
  | some data => trivial

/-- WRITE with room in the burst in progress (R132). -/
theorem writeBytes_performed {s : State} {data : List Byte} (ha : s.burstActive = true)
    (room : s.offset.toNat + imageSize data.length ≤ s.cap.toNat) (srcBe : Bool) :
    ∃ t, writeBytes data srcBe s = .done t ∧ t.burstActive = true :=
  ⟨_, writeBytes_room ha room srcBe, ha⟩

/-- A payload for which there is room, then FINALIZE (R160, R180). -/
theorem write_complete_neverFaults {s : State} {cap offset n : Nat} (hs : BurstAt cap offset s)
    (parity : offset % 2 = cap % 2) (room : offset + n ≤ cap) (f : Frame) (srcBe : Bool) (dt : Half)
    (mult : BitVec 4) :
    ((writeBytes (payload f n) srcBe s).andThen fun t =>
      (finalizeBurst dt mult t).andThen fun u => .done (respond .complete u)).NeverFaults := by
  obtain ⟨ha, rfl, rfl⟩ := hs
  obtain ⟨t, writes, active⟩ := writeBytes_performed ha (payload_fits parity room f) srcBe
  rw [writes, Micro.andThen_done]
  exact finalize_complete_neverFaults active dt mult

/-- R163: 8 bytes of preamble and the payload fit 6144 bytes, which are a whole number of words. -/
theorem processAc3_neverFaults (f : Frame) (s : State) : (processAc3 f s).NeverFaults := by
  by_cases accepted : ∃ size, Ac3Accepts s.params f size
  · obtain ⟨size, accepted⟩ := accepted
    rw [processAc3_accepted accepted]
    obtain ⟨-, -, hroom⟩ := accepted
    refine Micro.andThen_faultsOnlyIf (allocBurst_neverFaults _ _ _ _ s) (allocBurst_burstAt _ _ _ _ s) fun t ht => ?_
    exact write_complete_neverFaults ht (by decide) (Nat.add_comm size 8 ▸ hroom) f _ _ _
  · rw [processAc3_rejected (not_exists.1 accepted)]
    exact nofun

/-- The capacity of a DTS burst as a number (R180, R181). -/
theorem dts_capacity_toNat {ns : Nat} {dt : Half} (h : dtDts ns = some dt) :
    (BitVec.ofNat 16 (ns * 4)).toNat = ns * 4 := by
  have count : ns = 512 ∨ ns = 1024 ∨ ns = 2048 := by
    by_contra other
    simp [dtDts_of_other ns other] at h
  rw [BitVec.toNat_ofNat]
  omega

/-- OFFSET before the WRITE of a DTS frame: REWIND sets it to 0 when the frame fills the capacity (R180, R182). -/
theorem dtsRewind_burstAt {s : State} {cap : Nat} (hs : BurstAt cap 8 s) (bare : Bool) :
    ∃ t, (if bare then rewindBurst s else .done s) = .done t ∧ BurstAt cap (if bare then 0 else 8) t := by
  cases bare with
  | true =>
    obtain ⟨ha, hcap, -⟩ := hs
    exact ⟨_, rewindBurst_active ha, ha, hcap, rfl⟩
  | false => exact ⟨s, rfl, hs⟩

/-- R184: a frame fills the capacity exactly, with no preamble, or fits it together with one. -/
theorem dtsEmit_neverFaults {ns size : Nat} {dt : Half} (hdt : dtDts ns = some dt)
    (room : ¬ (dtsBare size ns = false ∧ ns * 4 < size + headerSize)) (f : Frame) (s : State) :
    (dtsEmit f size ns dt s).NeverFaults := by
  refine Micro.andThen_faultsOnlyIf (allocBurst_neverFaults _ _ _ _ s) (allocBurst_burstAt _ _ _ _ s) fun t ht => ?_
  rw [dts_capacity_toNat hdt] at ht
  obtain ⟨u, hu, at_u⟩ := dtsRewind_burstAt ht (dtsBare size ns)
  rw [hu, Micro.andThen_done]
  cases bare : dtsBare size ns with
  | true =>
    have fills : size = ns * 4 := beq_iff_eq.1 bare
    have start : BurstAt (ns * 4) 0 u := by simpa [bare] using at_u
    exact write_complete_neverFaults start (by omega) (by omega) f _ _ _
  | false =>
    have fits : size + 8 ≤ ns * 4 := Nat.le_of_not_lt fun h => room ⟨bare, h⟩
    have start : BurstAt (ns * 4) 8 u := by simpa [bare] using at_u
    exact write_complete_neverFaults start (by omega) (by omega) f _ _ _

theorem processDts_neverFaults (f : Frame) (s : State) : (processDts f s).NeverFaults := by
  unfold processDts
  cases dtsSize s.params f with
  | none => exact nofun
  | some q =>
    obtain ⟨size, ns⟩ := q
    simp only
    cases hdt : dtDts ns with
    | none => exact nofun
    | some dt =>
      simp only
      split_ifs with room
      · exact nofun
      · exact dtsEmit_neverFaults hdt room f s

theorem eac3Open_neverFaults (f : Frame) (s : State) : (eac3Open f s).NeverFaults := by
  unfold eac3Open
  split_ifs
  · trivial
  · exact allocBurst_neverFaults _ _ _ _ s

theorem eac3Count_neverFaults {s : State} (ha : s.burstActive = true) (h : HeaderReply) :
    (eac3Count h s).NeverFaults := by
  unfold eac3Count
  split_ifs
  · trivial
  · exact finalize_complete_neverFaults (s := { s with eac3Blocks := 0 }) ha _ _
  · exact finalize_complete_neverFaults (s := { s with eac3Blocks := 0 }) ha _ _

/-- R174: OFFSET and EAC3_CAPACITY are even, so a frame that fits leaves room for its promoted byte. -/
theorem processEac3_neverFaults {s : State} (hl : Legal s) (hf : s.fault = false) (hc : s.cfgCodec = .eac3)
    (f : Frame) : (processEac3 f s).NeverFaults := by
  unfold processEac3
  cases a52Reply s.params f.data with
  | none => exact nofun
  | some h =>
    simp only
    split_ifs
    · exact nofun
    · refine Micro.andThen_faultsOnlyIf (eac3Open_neverFaults f s) (eac3Open_yields f s) ?_
      rintro o rfl
      obtain ⟨-, -, -, -, -, heven, hcap⟩ := eac3_opened_facts (f := f) hl hf hc
      have oactive := opened_burstActive s.params.eac3Capacity s.params.eac3NSamples f s
      generalize opened s.params.eac3Capacity s.params.eac3NSamples f s = o at *
      split_ifs with hroom
      · exact nofun
      · obtain ⟨t, writes, active⟩ :=
          writeBytes_performed oactive (payload_fits (by omega) (Nat.le_of_not_lt hroom) f) true
        rw [writes, Micro.andThen_done]
        exact eac3Count_neverFaults active h

/-! ### The end marker of a super-frame -/

/-- No room for the end marker after a payload of `len` bytes written at `offset` in the last slot (R194). -/
abbrev NoRoomForEnd (idx : Fin 24) (offset len : Nat) : Prop :=
  idx = 23 ∧ 61440 < offset + imageSize len + (2536 - len) + 16

/-- Each slot ends before CAP, also when every frame so far was one byte longer (R193, R194). -/
theorem slot_end_lt (p : Params) {i : Nat} (h : i < 24) :
    slotStart i + i + (matMarker p i).length + (2560 - matReserve i) < 61440 := by
  by_cases last : i = 23
  · simp [last, slotStart, matMarker, matReserve]
  · have next := slotStart_succ p (i := i) (by omega)
    have bound := slotStart_bounds (i := i + 1) (by omega) (by omega)
    omega

theorem trueHdOpen_neverFaults (f : Frame) (s : State) : (trueHdOpen f s).NeverFaults := by
  unfold trueHdOpen
  split_ifs
  · trivial
  · exact allocBurst_neverFaults _ _ _ _ s

/-- After the last slot's padding only the end marker can lack room (R190, R194). -/
theorem slotEnd_faultsOnlyIf {s : State} (ha : s.burstActive = true) (hcap : s.cap = 61440) :
    (slotEnd s).FaultsOnlyIf (s.trueHdIdx = 23 ∧ 61440 < s.offset.toNat + 16) := by
  by_cases last : s.trueHdIdx = 23
  · rw [slotEnd_last last]
    have size : imageSize s.params.matEnd.toList.length = 16 := by rw [Vector.length_toList]; rfl
    have cap : s.cap.toNat = 61440 := by rw [hcap]; rfl
    by_cases room : s.offset.toNat + 16 ≤ 61440
    · obtain ⟨t, writes, active⟩ := writeBytes_performed ha (by rw [size, cap]; exact room) s.cfgOutBe
      rw [writes, Micro.andThen_done]
      exact (finalize_complete_neverFaults (s := { t with trueHdIdx := 0 }) active _ _).faultsOnlyIf _
    · rw [writeBytes_violation (.inr (by rw [size, cap]; exact Nat.lt_of_not_le room))]
      exact fun _ => ⟨last, Nat.lt_of_not_le room⟩
  · rw [slotEnd_next (fun h => last (Fin.ext h))]
    trivial

/-- Payload and padding themselves fit, since the slot leaves a byte for the promoted one (R190, R194). -/
theorem slotBody_faultsOnlyIf {s : State} (ha : s.burstActive = true) (hw : s.buf.wf) (hcap : s.cap = 61440)
    (room : s.offset.toNat + (2560 - matReserve s.trueHdIdx.val) < 61440) (f : Frame) :
    (slotBody f s).FaultsOnlyIf (NoRoomForEnd s.trueHdIdx s.offset.toNat f.len) := by
  have cap : s.cap.toNat = 61440 := by rw [hcap]; rfl
  by_cases rejected : slotRejects f.len s.trueHdIdx s.cap s.offset = true
  · rw [slotBody, if_pos rejected]
    exact nofun
  · rw [slotRejects_iff, not_or, Nat.not_lt] at rejected
    obtain ⟨fits, -⟩ := rejected
    have promoted : imageSize f.len ≤ f.len + 1 := by unfold imageSize; omega
    obtain ⟨m, off, stores, hoff, -⟩ := slotBody_stores (f := f) ha hw fits (by omega)
    rw [stores]
    refine Micro.ends_mono (slotEnd_faultsOnlyIf (s := { s with buf := m, offset := off }) ha hcap) (fun _ => id)
      fun k _ faults hk => ?_
    obtain ⟨last, full⟩ := faults hk
    refine ⟨last, ?_⟩
    have reserve : matReserve s.trueHdIdx.val = 24 := by rw [show s.trueHdIdx = 23 from last]; rfl
    simp only at full
    omega

/-- R194, for the super-frame in progress: at index 23 there always is one, and no marker stands before its payload. -/
theorem processTrueHd_faultsOnlyIf {s : State} (hl : Legal s) (hf : s.fault = false)
    (hc : s.cfgCodec = .mlp ∨ s.cfgCodec = .truehd) (f : Frame) :
    (processTrueHd f s).FaultsOnlyIf (NoRoomForEnd s.trueHdIdx s.offset.toNat f.len) := by
  refine Micro.andThen_faultsOnlyIf (trueHdOpen_neverFaults f s) (trueHdOpen_yields f s) ?_
  rintro o rfl
  obtain ⟨-, -, hw, hcap, -, -, hhigh, -, hidle⟩ := trueHd_opened_facts (f := f) hl hf hc
  obtain ⟨-, -, -, -, -, -, oidx, -⟩ := opened_keeps 61440 3840 f s
  have oactive := opened_burstActive 61440 3840 f s
  have same : s.trueHdIdx = 23 → opened 61440 3840 f s = s := fun last => by
    refine opened_active ?_ _ _ _
    by_contra idle
    rw [hidle (by simpa using idle)] at last
    cases last
  generalize opened 61440 3840 f s = o at *
  rw [← oidx] at hhigh same ⊢
  have room := slot_end_lt o.params o.trueHdIdx.isLt
  have cap : o.cap.toNat = 61440 := by rw [hcap]; rfl
  obtain ⟨m, off, marker, hoff, mwf, -⟩ := slotMarker_stores oactive hw (by omega)
  rw [marker, Micro.andThen_done]
  refine Micro.ends_mono (slotBody_faultsOnlyIf (s := { o with buf := m, offset := off }) oactive mwf hcap
    (show off.toNat + (2560 - matReserve o.trueHdIdx.val) < 61440 by omega) f) (fun _ => id) fun k _ faults hk => ?_
  obtain ⟨last, full⟩ := faults hk
  have unmarked : (matMarker o.params o.trueHdIdx.val).length = 0 := by
    rw [show o.trueHdIdx = 23 from last]
    rfl
  refine ⟨last, ?_⟩
  rw [← same last]
  simp only at full
  omega

/-! ### The response WriterFault -/

theorem codecOperation_faultsOnlyIf {s : State} (hl : Legal s) (hf : s.fault = false) (f : Frame) :
    (codecOperation s.cfgCodec f s).FaultsOnlyIf
      ((s.cfgCodec = .mlp ∨ s.cfgCodec = .truehd) ∧ NoRoomForEnd s.trueHdIdx s.offset.toNat f.len) := by
  cases hc : s.cfgCodec with
  | ac3 => exact (processAc3_neverFaults f s).faultsOnlyIf _
  | eac3 => exact (processEac3_neverFaults hl hf hc f).faultsOnlyIf _
  | dts => exact (processDts_neverFaults f s).faultsOnlyIf _
  | mlp =>
    exact Micro.ends_mono (processTrueHd_faultsOnlyIf hl hf (.inl hc) f) (fun _ => id)
      fun _ _ faults hk => ⟨.inl rfl, faults hk⟩
  | truehd =>
    exact Micro.ends_mono (processTrueHd_faultsOnlyIf hl hf (.inr hc) f) (fun _ => id)
      fun _ _ faults hk => ⟨.inr rfl, faults hk⟩

theorem codecOperation_ends (c : Codec) (f : Frame) (s : State) :
    (codecOperation c f s).Ends (AnsweredIn s) (RaisedIn s) := by
  cases c with
  | ac3 => exact processAc3_ends f s
  | eac3 => exact processEac3_ends f s
  | dts => exact processDts_ends f s
  | mlp => exact processTrueHd_ends f s
  | truehd => exact processTrueHd_ends f s

theorem AnsweredIn.rsp_ne_error {s t : State} (h : AnsweredIn s t) (k : ErrorKind) : t.rsp ≠ some (.error k) := by
  rcases h with ⟨u, -, rfl⟩ | ⟨u, b, -, rfl⟩
  · simp
  · simp

theorem raiseError_rsp (k : ErrorKind) (s : State) : (raiseError k s).rsp = some (.error k) := by
  unfold raiseError
  split_ifs <;> rfl

/-- An error is the response only when it was raised (R98, R213). -/
theorem raised_of_error {m : Micro} {s t : State} {k : ErrorKind} (hm : m.Ends (AnsweredIn s) (RaisedIn s))
    (hn : finishCommand m = .next t) (hk : t.rsp = some (.error k)) : ∃ u, m = .raise k u := by
  cases m with
  | done u =>
    obtain rfl := Host.Outcome.next.inj hn
    exact absurd hk (AnsweredIn.rsp_ne_error hm k)
  | raise l u =>
    obtain rfl := Host.Outcome.next.inj hn
    rw [raiseError_rsp] at hk
    cases hk
    exact ⟨u, rfl⟩
  | unwritten => cases hn

/-- Settles O25: each WRITE and PAD of the four operations has room, but for the end marker of a super-frame. -/
theorem writerFaultOnlyForOddTrueHdFrames : Obligations.WriterFaultOnlyForOddTrueHdFrames := by
  unfold Obligations.WriterFaultOnlyForOddTrueHdFrames
  intro s t f hl hf hconf hn hrsp
  rw [exec_process_accepted hf hconf] at hn
  obtain ⟨u, raises⟩ := raised_of_error (codecOperation_ends _ f s) hn hrsp
  have faults := codecOperation_faultsOnlyIf hl hf f
  rw [raises] at faults
  exact faults rfl

end Sys2Proof.Machine
end

section
/-! PROOFS. The family of spec/42_eac3.md: which frames PROCESS.EAC3 rejects (R170, R231), what one fitting frame does
to the aggregate (R170 to R172), and the one burst of a whole aggregate (R175). -/

namespace Sys2Proof.Machine

/-! ### The tests of PROCESS.EAC3 -/

/-- What follows the opening of the burst: the test for room, the WRITE and the count (R170). -/
def eac3Append (f : Frame) (h : HeaderReply) (o : State) : Micro :=
  if o.cap.toNat < o.offset.toNat + h.frameSize.toNat then .raise .malformedFrame o
  else (writeBytes (payload f h.frameSize.toNat) true o).andThen (eac3Count h)

theorem processEac3_unparsed {s : State} {f : Frame}
    (unparsed : ∀ h, a52Reply s.params f.data = some h → f.len < h.frameSize.toNat) :
    processEac3 f s = .raise .malformedFrame s := by
  unfold processEac3
  cases hreply : a52Reply s.params f.data with
  | none => rfl
  | some h => exact if_pos (unparsed h hreply)

theorem processEac3_parsed {s : State} {f : Frame} {h : HeaderReply} (hreply : a52Reply s.params f.data = some h)
    (hlen : h.frameSize.toNat ≤ f.len) : processEac3 f s = (eac3Open f s).andThen (eac3Append f h) := by
  unfold processEac3
  rw [hreply]
  exact if_neg (Nat.not_lt.2 hlen)

theorem eac3Open_refused {s : State} (ha : s.burstActive = false) (hb : s.bufAvail = false) (f : Frame) :
    eac3Open f s = .raise .allocationFailure s := by
  rw [eac3Open, if_neg (by simp [ha]), allocBurst_refused (.inr hb)]

/-- Settles O31: the tests of R170 in their order; each error flushes, also after a burst was opened for the frame. -/
theorem eac3RejectsFrames : Obligations.Eac3RejectsFrames := by
  unfold Obligations.Eac3RejectsFrames
  intro s f i hr
  rw [runs_processEac3 hr]
  refine ⟨fun unparsed => ?_, fun h hreply hlen => ⟨fun ha hb => ?_, fun opens noRoom => ?_⟩⟩
  · rw [processEac3_unparsed unparsed]
    exact finishCommand_flushes (by decide) s
  · rw [processEac3_parsed hreply hlen, eac3Open_refused ha hb]
    exact finishCommand_flushes (by decide) s
  · rw [processEac3_parsed hreply hlen, eac3Open_opened opens, Micro.andThen_done, eac3Append, if_pos noRoom]
    refine ⟨flushState s, flushState_flushed s, ?_⟩
    rw [finishCommand, raiseError_other _ _ (by decide), flushState_opened]
    rfl

/-! ### One fitting frame -/

theorem eac3Count_pending {s : State} {h : HeaderReply} (branch : EntersBranch h)
    (hsix : blocksAfter h s.eac3Blocks ≠ 6) :
    eac3Count h s = .done (respond .pending { s with eac3Blocks := blocksAfter h s.eac3Blocks }) := by
  rw [eac3Count, if_pos ((accumulates_iff h).2 branch), countBlocks_eq]
  exact if_pos hsix

/-- The burst is closed also on the count of 6, which the closing sets back to 0 (R170). -/
theorem eac3Count_closes {s : State} {h : HeaderReply} (closes : ¬ EntersBranch h ∨ blocksAfter h s.eac3Blocks = 6) :
    eac3Count h s = eac3Close s := by
  rw [eac3Count, countBlocks_eq]
  by_cases branch : accumulates h = true
  · rw [if_pos branch]
    exact if_neg (not_not.2 (closes.resolve_left (not_not.2 ((accumulates_iff h).1 branch))))
  · exact if_neg branch

/-- R174: OFFSET and EAC3_CAPACITY are even, so a frame that fits leaves room for its promoted byte. -/
theorem eac3_image_fits {s o : State} {f : Frame} {h : HeaderReply} (hl : Legal s) (hf : s.fault = false)
    (hc : s.cfgCodec = .eac3) (ho : o = opened s.params.eac3Capacity s.params.eac3NSamples f s)
    (hlen : h.frameSize.toNat ≤ f.len) (room : o.offset.toNat + h.frameSize.toNat ≤ o.cap.toNat) :
    o.offset.toNat + imageSize h.frameSize.toNat ≤ o.cap.toNat := by
  subst ho
  obtain ⟨-, -, -, -, -, heven, hcap⟩ := eac3_opened_facts (f := f) hl hf hc
  have fits := payload_fits (by omega) room f
  rwa [payload_length hlen] at fits

/-- A frame that passes every test is written in the burst in progress, or in the one opened for it (R170). -/
theorem processEac3_fitting {s o : State} {f : Frame} {h : HeaderReply}
    (opens : s.burstActive = true ∨ s.bufAvail = true) (ho : o = opened s.params.eac3Capacity s.params.eac3NSamples f s)
    (hreply : a52Reply s.params f.data = some h) (hlen : h.frameSize.toNat ≤ f.len)
    (room : o.offset.toNat + h.frameSize.toNat ≤ o.cap.toNat) :
    processEac3 f s = (writeBytes (payload f h.frameSize.toNat) true o).andThen (eac3Count h) := by
  subst ho
  rw [processEac3_parsed hreply hlen, eac3Open_opened opens, Micro.andThen_done]
  exact if_neg (Nat.not_lt.2 room)

/-- Settles O28: the WRITE has room by `eac3_image_fits`, and the count is not 6. -/
theorem eac3FrameIsAppended : Obligations.Eac3FrameIsAppended := by
  unfold Obligations.Eac3FrameIsAppended
  intro s o f h i hr hl hf hc opens ho hreply hlen room branch hsix
  have fits := eac3_image_fits hl hf hc ho hlen room
  have length := payload_length hlen
  have active : o.burstActive = true := ho ▸ opened_burstActive _ _ f s
  obtain ⟨-, hbe, -, -, -, hblocks, -⟩ := opened_keeps s.params.eac3Capacity s.params.eac3NSamples f s
  rw [← ho] at hbe hblocks
  rw [← hblocks] at hsix ⊢
  rw [runs_processEac3 hr, processEac3_fitting opens ho hreply hlen room,
    writeBytes_room active (length.symm ▸ fits), Micro.andThen_done, eac3Count_pending branch, length, ← hbe]
  · refine ⟨_, rfl, fun a => ?_⟩
    rw [read_write_image, length]
    rfl
  · exact hsix

/-- Settles O29: `write_finalize` says what the WRITE and the FINALIZE of an aggregate emit. -/
theorem eac3FrameClosesTheBurst : Obligations.Eac3FrameClosesTheBurst := by
  unfold Obligations.Eac3FrameClosesTheBurst
  intro s o f h i hr hl hf hc opens ho hreply hlen room closes
  have fits := eac3_image_fits hl hf hc ho hlen room
  have length := payload_length hlen
  have active : o.burstActive = true := ho ▸ opened_burstActive _ _ f s
  obtain ⟨-, hbe, -, -, -, hblocks, -⟩ := opened_keeps s.params.eac3Capacity s.params.eac3NSamples f s
  obtain ⟨h8, -, written, hw, -⟩ := eac3_opened_facts (f := f) hl hf hc
  rw [← ho] at hbe hblocks h8 written hw
  have preamble : dtEac3 ≠ 0 := by decide
  obtain ⟨t, m, data, hwrite, hfin, htblocks, htidx, hdata, hpre, hkept, himage, hzeros⟩ :=
    write_finalize hw active dtEac3 multBytes true (payload f h.frameSize.toNat) (length.symm ▸ fits) (.inr h8)
      (fun a hlt hdt => written a hlt (hdt.resolve_left preamble)) 0 o.trueHdIdx
  rw [hbe] at hpre himage
  rw [length] at hpre himage hzeros
  have closed : { t with eac3Blocks := 0, trueHdIdx := o.trueHdIdx } = { t with eac3Blocks := 0 } := by rw [← htidx]
  have count : eac3Count h t = eac3Close t := eac3Count_closes (by rwa [htblocks, hblocks])
  rw [closed] at hfin
  rw [runs_processEac3 hr, processEac3_fitting opens ho hreply hlen room, hwrite, Micro.andThen_done, count, eac3Close,
    hfin]
  refine ⟨m, ⟨o.cap, data, o.burstNSamples, o.burstPts, o.burstDts⟩, rfl, rfl, hdata, rfl, rfl, rfl, ?_,
    fun a hlt hle => hkept a hlt (.inr hle), himage, hzeros⟩
  have capacity := o.cap.isLt
  exact (hpre preamble).trans (congrArg (preambleBytes _ _) (by simp [multBytes]; omega))

/-! ### The frames of one aggregate -/

theorem stepN_succ {n : Nat} {s t u : State} (hn : stepN n s = some t) (hs : step t = .next u) :
    stepN (n + 1) s = some u := by
  induction n generalizing s with
  | zero =>
    obtain rfl := Option.some.inj hn
    rw [stepN, hs]
    rfl
  | succ n ih =>
    rw [stepN] at hn ⊢
    cases hv : step s with
    | next v => exact ih (by rwa [hv] at hn)
    | fault e => rw [hv] at hn; cases hn
    | refused e => rw [hv] at hn; cases hn

theorem step_processInput {s : State} {f : Frame} {rest : List Input} (hin : s.input = processInput f :: rest)
    (hwf : f.wf) : step s = exec (.process f) (accept true rest s) :=
  step_decoded hin (Laws.RoundTrip.process_word f hwf)

/-- The bytes that the frames of these replies occupy in a burst (R23, R64). -/
def occupiedBytes (replies : List HeaderReply) : Nat := (replies.map fun h => imageSize h.frameSize.toNat).sum

/-- The audio blocks that the frames of these replies carry (R172). -/
def blockCount (replies : List HeaderReply) : Nat := (replies.map fun h => h.blocksPerSyncFrame.toNat).sum

section
variable {replies : List HeaderReply} {h : HeaderReply} {i k : Nat}

theorem occupiedBytes_take_succ (hre : replies[k]? = some h) :
    occupiedBytes (replies.take (k + 1)) = occupiedBytes (replies.take k) + imageSize h.frameSize.toNat := by
  simp [occupiedBytes, List.take_add_one, hre]

theorem blockCount_take_succ (hre : replies[k]? = some h) :
    blockCount (replies.take (k + 1)) = blockCount (replies.take k) + h.blocksPerSyncFrame.toNat := by
  simp [blockCount, List.take_add_one, hre]

/-- What the first `k` replies add up to is no more than what all do. -/
theorem sum_map_take_le (g : HeaderReply → Nat) (k : Nat) (replies : List HeaderReply) :
    ((replies.take k).map g).sum ≤ (replies.map g).sum :=
  ((List.take_sublist k replies).map g).sum_le_sum fun _ _ => Nat.zero_le _

theorem occupiedBytes_take_mono (hik : i ≤ k) :
    occupiedBytes (replies.take i) ≤ occupiedBytes (replies.take k) := by
  rw [← Nat.min_eq_left hik, ← List.take_take]
  exact sum_map_take_le _ i (replies.take k)

end

/-- The bytes read from 8 on are the images of the first `k` frames, in order (R62, R64, R170). -/
def HoldsImages (be : Bool) (frames : List Frame) (replies : List HeaderReply) (k : Nat)
    (read : Nat → Option Byte) : Prop :=
  ∀ i < k, ∀ f h, frames[i]? = some f → replies[i]? = some h → ∀ j < imageSize h.frameSize.toNat,
    read (8 + occupiedBytes (replies.take i) + j) = some (imageByte true be (f.data.take h.frameSize.toNat) j)

/-- One more image after the first `k`, with these kept. -/
theorem HoldsImages.succ {be : Bool} {frames : List Frame} {replies : List HeaderReply} {k : Nat} {f : Frame}
    {h : HeaderReply} {old new : Nat → Option Byte} (held : HoldsImages be frames replies k old)
    (hfr : frames[k]? = some f) (hre : replies[k]? = some h)
    (kept : ∀ a < 8 + occupiedBytes (replies.take k), 8 ≤ a → new a = old a)
    (added : ∀ j < imageSize h.frameSize.toNat, new (8 + occupiedBytes (replies.take k) + j) =
      some (imageByte true be (f.data.take h.frameSize.toNat) j)) :
    HoldsImages be frames replies (k + 1) new := by
  intro i hi g r hg hr j hj
  rcases Nat.lt_succ_iff_lt_or_eq.1 hi with hlt | rfl
  · have next := occupiedBytes_take_succ hr
    have mono := occupiedBytes_take_mono (replies := replies) (show i + 1 ≤ k from hlt)
    rw [kept _ (by omega) (by omega)]
    exact held i hlt g r hg hr j hj
  · obtain rfl := Option.some.inj (hfr.symm.trans hg)
    obtain rfl := Option.some.inj (hre.symm.trans hr)
    exact added j hj

/-- The premises of R175 on the frames of one aggregate and the parser's replies to them. -/
structure MakesAggregate (p : Params) (frames : List Frame) (replies : List HeaderReply) : Prop where
  replied : frames.map (fun f => a52Reply p f.data) = replies.map some
  lengths : ∀ f ∈ frames, f.wf
  sizes : ∀ q ∈ frames.zip replies, q.2.frameSize.toNat ≤ q.1.len
  branch : ∀ h ∈ replies, EntersBranch h ∧ h.substreamId = 0
  fits : 8 + occupiedBytes replies ≤ p.eac3Capacity.toNat
  notBefore : ∀ k < frames.length, blockCount (replies.take k) ≠ 6
  total : blockCount replies = 6

/-- Frame `k` of an aggregate, with its reply. -/
structure FrameAt (p : Params) (frames : List Frame) (replies : List HeaderReply) (k : Nat) (f : Frame)
    (h : HeaderReply) : Prop where
  frame : frames[k]? = some f
  reply : replies[k]? = some h
  parsed : a52Reply p f.data = some h
  wf : f.wf
  size : h.frameSize.toNat ≤ f.len
  branch : EntersBranch h
  counted : h.substreamId = 0

section
variable {p : Params} {frames : List Frame} {replies : List HeaderReply} {k : Nat}

theorem MakesAggregate.length_eq (c : MakesAggregate p frames replies) : replies.length = frames.length := by
  simpa using (congrArg List.length c.replied).symm

theorem MakesAggregate.frameAt (c : MakesAggregate p frames replies) (hk : k < frames.length) :
    ∃ f h, FrameAt p frames replies k f h := by
  have hr : k < replies.length := c.length_eq ▸ hk
  have hfr := List.getElem?_eq_getElem hk
  have hre := List.getElem?_eq_getElem hr
  have parsed : a52Reply p frames[k].data = some replies[k] := by
    simpa [hfr, hre] using congrArg (·[k]?) c.replied
  have zipped : (frames[k], replies[k]) ∈ frames.zip replies :=
    List.mem_of_getElem? (List.getElem?_zip_eq_some.2 ⟨hfr, hre⟩)
  obtain ⟨branch, counted⟩ := c.branch _ (List.getElem_mem hr)
  exact ⟨_, _, hfr, hre, parsed, c.lengths _ (List.getElem_mem hk), c.sizes _ zipped, branch, counted⟩

/-- No count wraps on the way to 6. -/
theorem FrameAt.blocksAfter_toNat {f : Frame} {h : HeaderReply} (at_k : FrameAt p frames replies k f h)
    (c : MakesAggregate p frames replies) {blocks : Word} (hb : blocks.toNat = blockCount (replies.take k)) :
    (blocksAfter h blocks).toNat = blockCount (replies.take (k + 1)) := by
  have next := blockCount_take_succ at_k.reply
  have bound : blockCount (replies.take (k + 1)) ≤ 6 := c.total ▸ sum_map_take_le _ (k + 1) replies
  rw [blocksAfter, if_pos at_k.counted, hb, ← next, BitVec.toNat_ofNat]
  omega

end

/-! ### The aggregate, command by command -/

/-- The burst `o` holds the first `k` frames of the aggregate, under the first frame's timestamps (R175). -/
structure Gathers (p : Params) (be : Bool) (frames : List Frame) (replies : List HeaderReply) (k : Nat)
    (o : State) : Prop where
  offset : o.offset.toNat = 8 + occupiedBytes (replies.take k)
  blocks : o.eac3Blocks.toNat = blockCount (replies.take k)
  nsamples : o.burstNSamples = p.eac3NSamples
  stamps : ∀ f, frames.head? = some f → o.burstPts = tsBits p f.pts ∧ o.burstDts = tsBits p f.dts
  images : HoldsImages be frames replies k o.buf.read

/-- The session `t` has taken the first `k` frames of an aggregate and the others are placed: the burst in progress,
or for `k = 0` the one that frame `k` opens, holds those `k`. -/
structure AwaitsFrame (p : Params) (be : Bool) (frames : List Frame) (replies : List HeaderReply) (rest : List Input)
    (k : Nat) (t : State) : Prop where
  legal : Legal t
  fault : t.fault = false
  configured : t.configured = true
  codec : t.cfgCodec = .eac3
  params : t.params = p
  outBe : t.cfgOutBe = be
  input : t.input = (frames.drop k).map processInput ++ rest
  burst : ∀ f, frames[k]? = some f → Gathers p be frames replies k (opened p.eac3Capacity p.eac3NSamples f t)

/-- With no burst in progress the first frame opens one (R131, R175). -/
theorem awaitsFrame_zero {s : State} {frames : List Frame} {replies : List HeaderReply} {rest : List Input}
    (hl : Legal s) (hf : s.fault = false) (hconf : s.configured = true) (hc : s.cfgCodec = .eac3)
    (ha : s.burstActive = false) (hin : s.input = frames.map processInput ++ rest) :
    AwaitsFrame s.params s.cfgOutBe frames replies rest 0 s := by
  refine ⟨hl, hf, hconf, hc, rfl, rfl, hin, fun f hfr => ?_⟩
  obtain ⟨-, counters, -⟩ := hl.2 hf
  obtain ⟨blocks, -⟩ := counters ha
  rw [opened, if_neg (by simp [ha])]
  refine ⟨rfl, by rw [blocks]; rfl, rfl, fun g hg => ?_, fun i hi => absurd hi (Nat.not_lt_zero i)⟩
  rw [List.head?_eq_getElem?, hfr] at hg
  obtain rfl := Option.some.inj hg
  exact ⟨rfl, rfl⟩

/-- `t` once the command of frame `k` is taken, with a buffer available. -/
abbrev afterTaking (frames : List Frame) (rest : List Input) (k : Nat) (t : State) : State :=
  accept true ((frames.drop (k + 1)).map processInput ++ rest) t

theorem opened_accept (cap : Half) (ns : Word) (f : Frame) (avail : Bool) (rest : List Input) (s : State) :
    opened cap ns f (accept avail rest s) = accept avail rest (opened cap ns f s) := by
  cases ha : s.burstActive with
  | true => rw [opened_active ha, opened_active (s := accept avail rest s) ha]
  | false => simp [opened, ha, accept]

/-- The burst in which frame `k` is written. -/
abbrev burstFor (p : Params) (frames : List Frame) (rest : List Input) (k : Nat) (f : Frame) (t : State) : State :=
  opened p.eac3Capacity p.eac3NSamples f (afterTaking frames rest k t)

section
variable {p : Params} {be : Bool} {frames : List Frame} {replies : List HeaderReply} {rest : List Input} {k : Nat}
  {t : State} {f : Frame} {h : HeaderReply}

theorem AwaitsFrame.input_eq (w : AwaitsFrame p be frames replies rest k t) (hfr : frames[k]? = some f) :
    t.input = processInput f :: ((frames.drop (k + 1)).map processInput ++ rest) := by
  obtain ⟨hk, rfl⟩ := List.getElem?_eq_some_iff.1 hfr
  rw [w.input, List.drop_eq_getElem_cons hk]
  rfl

theorem AwaitsFrame.step_eq (w : AwaitsFrame p be frames replies rest k t) (at_k : FrameAt p frames replies k f h) :
    step t = exec (.process f) (afterTaking frames rest k t) :=
  step_processInput (w.input_eq at_k.frame) at_k.wf

theorem AwaitsFrame.runs (w : AwaitsFrame p be frames replies rest k t) (f : Frame) :
    Runs (.process f) (.processEac3 f) (afterTaking frames rest k t) :=
  .inr ⟨rfl, w.fault, w.configured, congrArg (selectProcess · (.process f)) w.codec⟩

theorem AwaitsFrame.burstFor_eq (w : AwaitsFrame p be frames replies rest k t) (f : Frame) :
    burstFor p frames rest k f t = opened (afterTaking frames rest k t).params.eac3Capacity
      (afterTaking frames rest k t).params.eac3NSamples f (afterTaking frames rest k t) := by
  rw [accept_params, w.params]

theorem AwaitsFrame.parsed (w : AwaitsFrame p be frames replies rest k t) (at_k : FrameAt p frames replies k f h) :
    a52Reply (afterTaking frames rest k t).params f.data = some h := by
  rw [accept_params, w.params]
  exact at_k.parsed

theorem AwaitsFrame.gathers (w : AwaitsFrame p be frames replies rest k t) (hfr : frames[k]? = some f) :
    Gathers p be frames replies k (burstFor p frames rest k f t) := by
  obtain ⟨offset, blocks, nsamples, stamps, images⟩ := w.burst f hfr
  rw [burstFor, opened_accept]
  exact ⟨offset, blocks, nsamples, stamps, images⟩

theorem AwaitsFrame.cap_eq (w : AwaitsFrame p be frames replies rest k t) (f : Frame) :
    (burstFor p frames rest k f t).cap = p.eac3Capacity := by
  obtain ⟨-, -, -, -, hcap, -⟩ := eac3_opened_facts (s := afterTaking frames rest k t) (f := f) w.legal w.fault w.codec
  rw [w.burstFor_eq f, hcap, accept_params, w.params]

/-- Every frame of the aggregate has room, its promoted byte included (R175). -/
theorem AwaitsFrame.room (w : AwaitsFrame p be frames replies rest k t) (c : MakesAggregate p frames replies)
    (at_k : FrameAt p frames replies k f h) :
    (burstFor p frames rest k f t).offset.toNat + imageSize h.frameSize.toNat ≤
      (burstFor p frames rest k f t).cap.toNat := by
  have next := occupiedBytes_take_succ at_k.reply
  have bound : occupiedBytes (replies.take (k + 1)) ≤ occupiedBytes replies := sum_map_take_le _ _ _
  have fits := c.fits
  rw [w.cap_eq f, (w.gathers at_k.frame).offset]
  omega

theorem AwaitsFrame.blocks (w : AwaitsFrame p be frames replies rest k t) (c : MakesAggregate p frames replies)
    (at_k : FrameAt p frames replies k f h) :
    (blocksAfter h (afterTaking frames rest k t).eac3Blocks).toNat = blockCount (replies.take (k + 1)) := by
  obtain ⟨-, -, -, -, -, hblocks, -⟩ := opened_keeps p.eac3Capacity p.eac3NSamples f (afterTaking frames rest k t)
  exact at_k.blocksAfter_toNat c (hblocks ▸ (w.gathers at_k.frame).blocks)

/-- A frame before the last is appended on PENDING (R175). -/
theorem AwaitsFrame.pending (w : AwaitsFrame p be frames replies rest k t) (c : MakesAggregate p frames replies)
    (hk : k + 1 < frames.length) :
    ∃ u, step t = .next u ∧ u.rsp = some .pending ∧ u.out = none ∧
      AwaitsFrame p be frames replies rest (k + 1) u := by
  obtain ⟨f, h, at_k⟩ := c.frameAt (Nat.lt_of_succ_lt hk)
  have g := w.gathers at_k.frame
  have room := w.room c at_k
  have count := w.blocks c at_k
  have hsix : blocksAfter h (afterTaking frames rest k t).eac3Blocks ≠ 6 := fun six =>
    c.notBefore (k + 1) hk (by rw [← count, six]; rfl)
  obtain ⟨m, hexec, hm⟩ := eac3FrameIsAppended (afterTaking frames rest k t) (burstFor p frames rest k f t) f h
    (.process f) (w.runs f) w.legal w.fault w.codec (.inr rfl) (w.burstFor_eq f)
    (w.parsed at_k) at_k.size ((Nat.add_le_add_left (le_imageSize _) _).trans room) at_k.branch hsix
  obtain ⟨oparams, obe, ocodec, oconf, ofault, -, -, oout, oinput, -⟩ :=
    opened_keeps p.eac3Capacity p.eac3NSamples f (afterTaking frames rest k t)
  have hstep := (w.step_eq at_k).trans hexec
  have hoff := offset_toNat (s := burstFor p frames rest k f t) room
  refine ⟨_, hstep, rfl, oout, ?_, ofault.trans w.fault, oconf.trans w.configured, ocodec.trans w.codec,
    oparams.trans w.params, obe.trans w.outBe, oinput, fun f' _ => ?_⟩
  · exact hostStepKeepsTheSessionLegal t _ w.legal (by rw [hostNext, w.input_eq at_k.frame]; rfl) hstep
  · rw [opened_active (by exact opened_burstActive _ _ _ _)]
    refine ⟨?_, count, g.nsamples, g.stamps, g.images.succ at_k.frame at_k.reply (fun a hlt h8 => ?_) fun j hj => ?_⟩
    · rw [occupiedBytes_take_succ at_k.reply, ← Nat.add_assoc, ← g.offset]
      exact hoff
    · rw [← g.offset] at hlt
      exact (hm a).trans (if_neg (by omega))
    · rw [← g.offset, ← w.outBe]
      refine (hm _).trans ?_
      rw [if_pos (by omega), Nat.add_sub_cancel_left]
      rfl

/-- The burst record of a whole aggregate (R175). -/
structure AggregateRecord (p : Params) (be : Bool) (frames : List Frame) (replies : List HeaderReply)
    (b : BurstRecord) : Prop where
  len : b.len = p.eac3Capacity
  data : b.data.length = p.eac3Capacity.toNat
  nsamples : b.nsamples = p.eac3NSamples
  stamps : ∀ f, frames.head? = some f → b.pts = tsBits p f.pts ∧ b.dts = tsBits p f.dts
  preamble : b.data.take 8 = preambleBytes be 0x15 (occupiedBytes replies)
  images : HoldsImages be frames replies frames.length (b.data[·]?)

/-- The last frame closes the burst, and its record holds the whole aggregate (R175). -/
theorem AwaitsFrame.complete (w : AwaitsFrame p be frames replies rest k t) (c : MakesAggregate p frames replies)
    (hk : k + 1 = frames.length) :
    ∃ u b, step t = .next u ∧ u.rsp = some .complete ∧ u.out = some b ∧ u.input = rest ∧ u.burstActive = false ∧
      u.eac3Blocks = 0 ∧ AggregateRecord p be frames replies b := by
  obtain ⟨f, h, at_k⟩ := c.frameAt (Nat.lt_of_succ_le hk.le)
  have g := w.gathers at_k.frame
  have room := w.room c at_k
  have all : replies.take (k + 1) = replies := List.take_of_length_le (by rw [hk, c.length_eq])
  have hsix : blocksAfter h (afterTaking frames rest k t).eac3Blocks = 6 :=
    BitVec.eq_of_toNat_eq (by rw [w.blocks c at_k, all, c.total]; rfl)
  obtain ⟨m, b, hexec, hlen, hdata, hns, hpts, hdts, hpre, hkept, himage, -⟩ :=
    eac3FrameClosesTheBurst (afterTaking frames rest k t) (burstFor p frames rest k f t) f h (.process f)
      (w.runs f) w.legal w.fault w.codec (.inr rfl) (w.burstFor_eq f)
      (w.parsed at_k) at_k.size ((Nat.add_le_add_left (le_imageSize _) _).trans room) (.inr hsix)
  obtain ⟨-, -, -, -, -, -, -, -, oinput, -⟩ :=
    opened_keeps p.eac3Capacity p.eac3NSamples f (afterTaking frames rest k t)
  have hcap := w.cap_eq f
  have next := occupiedBytes_take_succ at_k.reply
  rw [all] at next
  refine ⟨_, b, (w.step_eq at_k).trans hexec, rfl, rfl, oinput.trans ?_, rfl, rfl, hlen.trans hcap,
    hdata.trans (congrArg _ hcap), hns.trans g.nsamples, fun f' hf' => ?_, ?_, ?_⟩
  · rw [accept_input, hk, List.drop_length]
    rfl
  · obtain ⟨pts, dts⟩ := g.stamps f' hf'
    exact ⟨hpts.trans pts, hdts.trans dts⟩
  · rw [hpre, accept_cfgOutBe, w.outBe, g.offset, next, Nat.add_sub_cancel_left]
  · rw [← hk]
    refine g.images.succ at_k.frame at_k.reply (fun a hlt h8 => hkept a (g.offset ▸ hlt) h8) fun j hj => ?_
    rw [← g.offset, ← w.outBe]
    exact himage j hj

/-- After any number of frames but all, the session awaits the next one (R175). -/
theorem MakesAggregate.awaitsFrame (c : MakesAggregate p frames replies) {s : State}
    (w : AwaitsFrame p be frames replies rest 0 s) (hk : k < frames.length) :
    ∃ t, stepN k s = some t ∧ AwaitsFrame p be frames replies rest k t := by
  induction k with
  | zero => exact ⟨s, rfl, w⟩
  | succ k ih =>
    obtain ⟨t, runs, awaits⟩ := ih (Nat.lt_of_succ_lt hk)
    obtain ⟨u, hstep, -, -, next⟩ := awaits.pending c hk
    exact ⟨u, stepN_succ runs hstep, next⟩

end

/-- Settles O30: `AwaitsFrame` holds before each frame; each but the last is appended, and the last closes the burst. -/
theorem eac3AggregateEmitsOneBurst : Obligations.Eac3AggregateEmitsOneBurst := by
  unfold Obligations.Eac3AggregateEmitsOneBurst
  intro s frames replies rest hl hf hconf hc ha hin replied lengths sizes branch fits notBefore total
  have c : MakesAggregate s.params frames replies := ⟨replied, lengths, sizes, branch, fits, notBefore, total⟩
  have start := awaitsFrame_zero (replies := replies) hl hf hconf hc ha hin
  have nonempty : frames.length ≠ 0 := fun empty => by
    obtain rfl := List.eq_nil_of_length_eq_zero (c.length_eq.trans empty)
    cases total
  refine ⟨fun k hk => ?_, ?_⟩
  · obtain ⟨t, runs, awaits⟩ := c.awaitsFrame start (Nat.lt_of_succ_lt hk)
    obtain ⟨u, hstep, hrsp, hout, -⟩ := awaits.pending c hk
    exact ⟨u, stepN_succ runs hstep, hrsp, hout⟩
  · obtain ⟨k, hk⟩ := Nat.exists_eq_succ_of_ne_zero nonempty
    obtain ⟨t, runs, awaits⟩ := c.awaitsFrame start (k := k) (by omega)
    obtain ⟨u, b, hstep, hrsp, hout, hrest, hactive, hblocks, record⟩ := awaits.complete c hk.symm
    obtain ⟨len, data, nsamples, stamps, preamble, images⟩ := record
    refine ⟨u, b, hk ▸ stepN_succ runs hstep, hrsp, hout, hrest, hactive, hblocks, len, data, nsamples, stamps,
      preamble, fun i f h hfr hre => images i ?_ f h hfr hre⟩
    exact (List.getElem?_eq_some_iff.1 hfr).1

end Sys2Proof.Machine
end

section
/-! PROOFS. The family of spec/43_dts.md: which frames PROCESS.DTS rejects (R180, R181), the burst of an accepted frame
that leaves room for a preamble (R180, R183) and of one that fills the capacity (R182, R185). -/

namespace Sys2Proof.Machine

/-! ### Accepted and rejected frames -/

theorem dtsBare_eq_false_iff (size ns : Nat) : dtsBare size ns = false ↔ size ≠ ns * 4 := beq_eq_false_iff_ne

/-- R180's last test lets through a frame that fills the capacity and one that fits it under a preamble. -/
theorem dts_room_iff (size ns : Nat) :
    ¬ (dtsBare size ns = false ∧ ns * 4 < size + headerSize) ↔ size = ns * 4 ∨ size + 8 ≤ ns * 4 := by
  rw [dtsBare_eq_false_iff, headerSize]
  omega

theorem processDts_accepted {s : State} {f : Frame} {size ns : Nat} {dt : Half} (h : DtsAccepts s.params f size ns)
    (hdt : dtDts ns = some dt) : processDts f s = dtsEmit f size ns dt s := by
  obtain ⟨declared, -, room⟩ := h
  unfold processDts
  rw [(dtsSize_iff s.params f size ns).2 declared]
  simp only [hdt]
  exact if_neg ((dts_room_iff size ns).2 room)

theorem processDts_rejected {s : State} {f : Frame} (h : ∀ size ns, ¬ DtsAccepts s.params f size ns) :
    processDts f s = .raise .malformedFrame s := by
  unfold processDts
  cases hsize : dtsSize s.params f with
  | none => rfl
  | some q =>
    obtain ⟨size, ns⟩ := q
    have declared := (dtsSize_iff s.params f size ns).1 hsize
    simp only
    by_cases count : ns = 512 ∨ ns = 1024 ∨ ns = 2048
    · obtain ⟨dt, hdt, -⟩ := dtDts_of_count ns count
      simp only [hdt]
      exact if_pos (not_not.1 fun room => h size ns ⟨declared, count, (dts_room_iff size ns).1 room⟩)
    · rw [dtDts_of_other ns count]

theorem dtsEmit_refused {s : State} (h : s.burstActive = true ∨ s.bufAvail = false) (f : Frame) (size ns : Nat)
    (dt : Half) : dtsEmit f size ns dt s = .raise .allocationFailure s := by
  rw [dtsEmit, allocBurst_refused h]
  rfl

/-- Settles O34: R180's tests precede ALLOC, so a rejected frame never samples BUF_AVAIL; both errors flush. -/
theorem dtsRejectsFrames : Obligations.DtsRejectsFrames := by
  unfold Obligations.DtsRejectsFrames
  intro s f i hr
  rw [runs_processDts hr]
  refine ⟨fun rejected => ?_, fun size ns accepted hb => ?_⟩
  · rw [processDts_rejected rejected]
    exact finishCommand_flushes (by decide) s
  · obtain ⟨dt, hdt, -⟩ := dtDts_of_count ns accepted.2.1
    rw [processDts_accepted accepted hdt, dtsEmit_refused (.inr hb)]
    exact finishCommand_flushes (by decide) s

/-! ### The WRITE and the FINALIZE of an accepted frame -/

/-- The burst opened for a frame of `ns` samples, to be written from `offset` on (R131, R180, R182). -/
def dtsOpened (f : Frame) (ns : Nat) (offset : Half) (s : State) : State :=
  { s with
    cap := BitVec.ofNat 16 (ns * 4)
    offset := offset
    burstPts := tsBits s.params f.pts
    burstDts := tsBits s.params f.dts
    burstNSamples := BitVec.ofNat 32 ns
    buf := s.buf.erase 0 (BitVec.ofNat 16 (ns * 4)).toNat
    burstActive := true }

/-- The burst record of a frame of `ns` samples (R39). -/
def dtsRecord (f : Frame) (ns : Nat) (data : List Byte) (s : State) : BurstRecord :=
  { len := BitVec.ofNat 16 (ns * 4)
    data := data
    nsamples := BitVec.ofNat 32 ns
    pts := tsBits s.params f.pts
    dts := tsBits s.params f.dts }

/-- What follows ALLOC and REWIND in R180: a WRITE at `offset`, a FINALIZE with data type `dt` and the response. -/
def dtsWrite (f : Frame) (size ns : Nat) (offset dt : Half) (s : State) : Micro :=
  (writeBytes (payload f size) (dtsSrcBe s.params f) (dtsOpened f ns offset s)).andThen fun t =>
    (finalizeBurst dt multBits t).andThen fun u => .done (respond .complete u)

section
variable {s : State} (ha : s.burstActive = false) (hb : s.bufAvail = true) (f : Frame)
include ha hb

theorem dtsEmit_preamble {size ns : Nat} (partly : size ≠ ns * 4) (dt : Half) :
    dtsEmit f size ns dt s = dtsWrite f size ns 8 dt s := by
  rw [dtsEmit, allocBurst_ready ha hb, (dtsBare_eq_false_iff size ns).2 partly]
  rfl

theorem dtsEmit_bare (ns : Nat) (dt : Half) : dtsEmit f (ns * 4) ns dt s = dtsWrite f (ns * 4) ns 0 0 s := by
  have bare : dtsBare (ns * 4) ns = true := beq_self_eq_true _
  rw [dtsEmit, allocBurst_ready ha hb, bare]
  rfl

end

/-- The length field in bits does not wrap: the largest payload under a preamble has 65472 of them (R180). -/
theorem dts_lengthField {n : Nat} (h : 8 + n ≤ 8192) :
    ((8 : Half).toNat - 8 + n) * multBits.toNat % 65536 = n * 8 := by
  have eight : (8 : Half).toNat = 8 := rfl
  have bits : multBits.toNat = 8 := rfl
  rw [eight, bits]
  omega

/-- Where a DTS payload starts: at byte 0 of a bare burst, after the preamble of another, so no byte that is emitted
lies before it unwritten (R180, R182). -/
theorem dts_payload_start {offset dt : Half} (start : dt = 0 ∧ offset = 0 ∨ dt ≠ 0 ∧ offset = 8) :
    offset.toNat % 2 = 0 ∧ (dt = 0 ∨ 8 ≤ offset.toNat) ∧ ∀ a < offset.toNat, ¬ (dt = 0 ∨ 8 ≤ a) := by
  rcases start with ⟨hdt, rfl⟩ | ⟨hdt, rfl⟩
  · exact ⟨rfl, .inl hdt, fun a hlt => absurd hlt (Nat.not_lt_zero a)⟩
  · exact ⟨rfl, .inr le_rfl, fun a hlt h => absurd (eight_le_of_preamble hdt a h) (Nat.not_le.2 hlt)⟩

/-- A frame written from byte 0 with no preamble, or after one, completes its burst (R180, R182, R183). -/
theorem dtsWrite_completes {s : State} {f : Frame} {size ns : Nat} {offset dt : Half} (hw : s.buf.wf)
    (ha : s.burstActive = false) (accepted : DtsAccepts s.params f size ns)
    (start : dt = 0 ∧ offset = 0 ∨ dt ≠ 0 ∧ offset = 8) (room : offset.toNat + size ≤ ns * 4) :
    ∃ m data, dtsWrite f size ns offset dt s = .done
        { s with
          cap := BitVec.ofNat 16 (ns * 4), offset := BitVec.ofNat 16 (ns * 4), burstPts := tsBits s.params f.pts
          burstDts := tsBits s.params f.dts, burstNSamples := BitVec.ofNat 32 ns, buf := m
          out := some (dtsRecord f ns data s), rsp := some .complete } ∧
      data.length = ns * 4 ∧
      (dt ≠ 0 → data.take 8 = preambleBytes s.cfgOutBe dt.toNat (imageSize size * 8)) ∧
      (∀ j < imageSize size,
        data[offset.toNat + j]? = some (imageByte (dtsSrcBe s.params f) s.cfgOutBe (f.data.take size) j)) ∧
      (∀ j < ns * 4, offset.toNat + imageSize size ≤ j → data[j]? = some 0) := by
  have count := accepted.2.1
  have capacity : (BitVec.ofNat 16 (ns * 4)).toNat = ns * 4 := by
    obtain ⟨_, hdt, -⟩ := dtDts_of_count ns count
    exact dts_capacity_toNat hdt
  obtain ⟨even, preamble, covered⟩ := dts_payload_start start
  have fits := payload_fits (by omega) room f
  obtain ⟨t, m, data, hwrite, hfin, hblocks, hidx, hlen, hpre, -, himage, hzeros⟩ :=
    write_finalize (s := dtsOpened f ns offset s) (Memory.wf_erase hw 0 _) rfl dt multBits (dtsSrcBe s.params f)
      (payload f size) (capacity.symm ▸ fits) preamble (fun a hlt h => absurd h (covered a hlt))
      s.eac3Blocks s.trueHdIdx
  rw [set_counters_self (blocks := s.eac3Blocks) (idx := s.trueHdIdx) hblocks hidx] at hfin
  rw [payload_length accepted.size_le] at fits hpre himage hzeros
  refine ⟨m, data, ?_, hlen.trans capacity, fun hdt => ?_, himage, fun j hj => hzeros j (capacity.symm ▸ hj)⟩
  · rw [dtsWrite, hwrite, Micro.andThen_done, hfin, ha]
    rfl
  · obtain ⟨-, rfl⟩ := start.resolve_left fun h => hdt h.1
    have eight : (8 : Half).toNat = 8 := rfl
    exact (hpre hdt).trans (congrArg _ (dts_lengthField (by omega)))

/-! ### The burst of an accepted frame -/

/-- The sample count and the capacity of an accepted frame fit their wires. -/
theorem dtsRecord_counts {ns : Nat} (count : ns = 512 ∨ ns = 1024 ∨ ns = 2048) (f : Frame) (data : List Byte)
    (s : State) : (dtsRecord f ns data s).len.toNat = ns * 4 ∧ (dtsRecord f ns data s).nsamples.toNat = ns := by
  rcases count with rfl | rfl | rfl <;> exact ⟨rfl, rfl⟩

theorem dtsSrcBe_eq {p : Params} {f : Frame} {srcBe : Bool}
    (h : srcBe = true ↔ f.data.head? = some p.dtsMagic.1 ∨ f.data.head? = some p.dtsMagic.2) :
    dtsSrcBe p f = srcBe := Bool.eq_iff_iff.2 ((dtsSrcBe_iff p f).trans h.symm)

/-- Settles O32: a frame that does not fill the capacity is written at OFFSET 8, under its preamble. -/
theorem dtsFrameBecomesOneBurst : Obligations.DtsFrameBecomesOneBurst := by
  unfold Obligations.DtsFrameBecomesOneBurst
  intro s f size ns srcBe i hr hw ha hb accepted partly hsrc
  have ⟨_, count, fits⟩ := accepted
  obtain ⟨dt, hdt, nonzero, code⟩ := dtDts_of_count ns count
  have room : (8 : Half).toNat + size ≤ ns * 4 := Nat.add_comm size 8 ▸ fits.resolve_left partly
  obtain ⟨m, data, hrun, hlen, hpre, himage, hzeros⟩ :=
    dtsWrite_completes hw ha accepted (.inr ⟨nonzero, rfl⟩) room
  obtain ⟨hcap, hns⟩ := dtsRecord_counts count f data s
  rw [dtsSrcBe_eq hsrc] at himage
  rw [runs_processDts hr, processDts_accepted accepted hdt, dtsEmit_preamble ha hb f partly, hrun]
  exact ⟨m, dtsRecord f ns data s, rfl, hcap, hlen, hns, rfl, rfl, code ▸ hpre nonzero, himage, hzeros⟩

/-- Settles O33: REWIND sets OFFSET to 0, so the payload fills the burst from byte 0 on; data type 0 stamps nothing. -/
theorem dtsFullFrameIsEmittedBare : Obligations.DtsFullFrameIsEmittedBare := by
  unfold Obligations.DtsFullFrameIsEmittedBare
  intro s f ns srcBe i hr hw ha hb accepted hsrc
  have count := accepted.2.1
  obtain ⟨dt, hdt, -⟩ := dtDts_of_count ns count
  obtain ⟨m, data, hrun, hlen, -, himage, -⟩ :=
    dtsWrite_completes hw ha accepted (.inl ⟨rfl, rfl⟩) (Nat.zero_add _).le
  obtain ⟨hcap, hns⟩ := dtsRecord_counts count f data s
  rw [dtsSrcBe_eq hsrc] at himage
  rw [runs_processDts hr, processDts_accepted accepted hdt, dtsEmit_bare ha hb f ns dt, hrun]
  refine ⟨m, dtsRecord f ns data s, rfl, hcap, hlen, hns, rfl, rfl, fun j hj => ?_⟩
  have image := himage j (hj.trans_le (le_imageSize _))
  rwa [show (0 : Half).toNat + j = j from Nat.zero_add j] at image

end Sys2Proof.Machine
end

section
/-! PROOFS. The family of spec/44_truehd.md: which frames PROCESS.TRUEHD rejects (R190, R191, R231), what a fitting
frame does below index 23 and at it (R190 to R192, R194), the cadence of even frames (R193) and the one burst of a whole
super-frame (R197). -/

namespace Sys2Proof.Machine

/-! ### Opening the super-frame and the marker -/

theorem trueHdOpen_refused {s : State} (ha : s.burstActive = false) (hb : s.bufAvail = false) (f : Frame) :
    trueHdOpen f s = .raise .allocationFailure s := by
  rw [trueHdOpen, if_neg (by simp [ha]), allocBurst_refused (.inr hb)]

section
variable {s : State} {f : Frame} (hl : Legal s) (hf : s.fault = false) (hc : s.cfgCodec = .mlp ∨ s.cfgCodec = .truehd)
include hl hf hc

/-- The slot of the frame ends before CAP, with a byte left for a promoted odd one (R193, R194). -/
theorem trueHd_opened_room :
    (opened 61440 3840 f s).offset.toNat + (matMarker s.params s.trueHdIdx.val).length +
      (2560 - matReserve s.trueHdIdx.val) < (opened 61440 3840 f s).cap.toNat := by
  obtain ⟨-, -, -, hcap, -, -, hhigh, -⟩ := trueHd_opened_facts (f := f) hl hf hc
  have room := slot_end_lt s.params s.trueHdIdx.isLt
  have cap : (opened 61440 3840 f s).cap.toNat = 61440 := by rw [hcap]; rfl
  omega

/-- What the command comes to before R190's test: a burst in progress that holds the marker of the slot. -/
theorem processTrueHd_marked (opens : s.burstActive = true ∨ s.bufAvail = true) :
    ∃ m off, processTrueHd f s = slotBody f { opened 61440 3840 f s with buf := m, offset := off } ∧
      off.toNat = (opened 61440 3840 f s).offset.toNat + (matMarker s.params s.trueHdIdx.val).length ∧ m.wf ∧
      ∀ a, m.read a =
        if (opened 61440 3840 f s).offset.toNat ≤ a ∧
            a < (opened 61440 3840 f s).offset.toNat + (matMarker s.params s.trueHdIdx.val).length
        then (matMarker s.params s.trueHdIdx.val)[a - (opened 61440 3840 f s).offset.toNat]?
        else (opened 61440 3840 f s).buf.read a := by
  have room := trueHd_opened_room (f := f) hl hf hc
  obtain ⟨-, -, hw, -⟩ := trueHd_opened_facts (f := f) hl hf hc
  obtain ⟨oparams, -, -, -, -, -, oidx, -⟩ := opened_keeps 61440 3840 f s
  rw [← oparams, ← oidx] at room ⊢
  obtain ⟨m, off, stores, marked⟩ := slotMarker_stores (opened_burstActive 61440 3840 f s) hw (by omega)
  refine ⟨m, off, ?_, marked⟩
  rw [processTrueHd, trueHdOpen_opened opens, Micro.andThen_done, stores, Micro.andThen_done]

end

/-- Settles O38: without a buffer ALLOC raises; with one the marker is written and R190's test raises. -/
theorem trueHdRejectsFrames : Obligations.TrueHdRejectsFrames := by
  unfold Obligations.TrueHdRejectsFrames
  intro s f i hr hl hf hc
  rw [runs_processTrueHd hr]
  refine ⟨fun ha hb => ?_, fun opens long => ?_⟩
  · rw [processTrueHd, trueHdOpen_refused ha hb]
    exact finishCommand_flushes (by decide) s
  · obtain ⟨m, off, marked, -⟩ := processTrueHd_marked (f := f) hl hf hc opens
    obtain ⟨-, -, -, -, -, -, oidx, -⟩ := opened_keeps 61440 3840 f s
    have raises : processTrueHd f s =
        .raise .malformedFrame { opened 61440 3840 f s with buf := m, offset := off } := by
      rw [marked, slotBody, if_pos ((slotRejects_iff ..).2 (.inl (oidx ▸ long)))]
    have ends := processTrueHd_ends f s
    rw [raises] at ends ⊢
    obtain ⟨same, -⟩ := ends
    refine ⟨flushState s, flushState_flushed s, ?_⟩
    rw [finishCommand, raiseError_other _ _ (by decide), same]
    rfl

/-! ### A slot below index 23 -/

/-- OFFSET is the word of its number. -/
theorem offset_eq_ofNat {off : Half} {n : Nat} (h : off.toNat = n) : off = BitVec.ofNat 16 n := by
  rw [← h, BitVec.ofNat_toNat, BitVec.setWidth_eq]

/-- Settles O35: the marker, the payload and the padding lie one after the other from OFFSET on. -/
theorem trueHdFrameFillsItsSlot : Obligations.TrueHdFrameFillsItsSlot := by
  unfold Obligations.TrueHdFrameFillsItsSlot
  intro s o f n marker i hr hl hf hc opens ho hn h23 hmarker fits
  subst ho hn hmarker
  have room := trueHd_opened_room (f := f) hl hf hc
  obtain ⟨m, off, marked, hoff, hmw, hm⟩ := processTrueHd_marked (f := f) hl hf hc opens
  obtain ⟨-, obe, -, -, -, -, oidx, -⟩ := opened_keeps 61440 3840 f s
  have active := opened_burstActive 61440 3840 f s
  rw [runs_processTrueHd hr, marked]
  rw [← oidx] at fits h23 room hoff hm ⊢
  rw [← obe]
  generalize opened 61440 3840 f s = o at *
  generalize matMarker s.params o.trueHdIdx.val = marker at *
  have promoted : imageSize f.len ≤ f.len + 1 := by unfold imageSize; omega
  obtain ⟨m', off', stores, hoff', -, hm'⟩ := slotBody_stores (s := { o with buf := m, offset := off }) (f := f)
    active hmw fits (show off.toNat + _ + (2560 - f.len - matReserve o.trueHdIdx.val) ≤ o.cap.toNat by omega)
  simp only [hoff] at hoff' hm'
  have ends := slotEnd_next (s := { o with buf := m', offset := off' }) h23
  rw [stores, ends, ← offset_eq_ofNat hoff']
  refine ⟨m', rfl, fun j hj => ?_, fun j hj => ?_, fun j hj => ?_, fun a ha => ?_⟩
  · rw [hm', if_neg (by omega), if_neg (by omega), hm, if_pos (by omega), Nat.add_sub_cancel_left]
  · rw [hm', if_pos (by omega), Nat.add_sub_cancel_left]
  · rw [hm', if_neg (by omega), if_pos (by omega)]
  · rw [hm', if_neg (by omega), if_neg (by omega), hm, if_neg (by omega)]

/-! ### The slot of index 23 -/

/-- A byte string of even length stored in its own byte order stays as it is (R65, R192). -/
theorem imageByte_verbatim (be : Bool) {data : List Byte} (even : data.length % 2 = 0) {j : Nat}
    (hj : j < data.length) : some (imageByte be be data j) = data[j]? := by
  rw [← wireBytes_get be be data j (hj.trans_le (le_imageSize _)), bne_self_eq_false, wireBytes_verbatim be data even]

/-- The end marker and the FINALIZE after it, with room for the marker (R190, R192). -/
theorem slotEnd_completes {s : State} (hw : s.buf.wf) (ha : s.burstActive = true) (last : s.trueHdIdx = 23)
    (hcap : s.cap = 61440) (h8 : 8 ≤ s.offset.toNat) (room : s.offset.toNat + 16 ≤ 61440)
    (written : ∀ a < s.offset.toNat, 8 ≤ a → (s.buf.read a).isSome = true) :
    ∃ m data, slotEnd s = .done
        { s with
          buf := m, offset := 61440, burstActive := false, trueHdIdx := 0
          out := some { len := 61440, data := data, nsamples := s.burstNSamples, pts := s.burstPts, dts := s.burstDts }
          rsp := some .complete } ∧
      data.length = 61440 ∧ data.take 8 = preambleBytes s.cfgOutBe 0x16 (s.offset.toNat + 16 - 8) ∧
      (∀ a < s.offset.toNat, 8 ≤ a → data[a]? = s.buf.read a) ∧
      (∀ j < 16, data[s.offset.toNat + j]? = s.params.matEnd.toList[j]?) ∧
      ∀ j < 61440, s.offset.toNat + 16 ≤ j → data[j]? = some 0 := by
  have length : s.params.matEnd.toList.length = 16 := Vector.length_toList
  have size : imageSize s.params.matEnd.toList.length = 16 := by rw [length]; rfl
  have cap : s.cap.toNat = 61440 := by rw [hcap]; rfl
  have preamble : dtTrueHd ≠ 0 := by decide
  obtain ⟨t, m, data, hwrite, hfin, hblocks, -, hlen, hpre, hkept, hmarker, hzeros⟩ :=
    write_finalize hw ha dtTrueHd multBytes s.cfgOutBe s.params.matEnd.toList (by omega) (.inr h8)
      (fun a hlt hdt => written a hlt (hdt.resolve_left preamble)) s.eac3Blocks 0
  have closed : { t with eac3Blocks := s.eac3Blocks, trueHdIdx := 0 } = { t with trueHdIdx := 0 } := by rw [← hblocks]
  rw [closed] at hfin
  rw [size] at hpre hmarker hzeros
  rw [cap] at hlen hzeros
  refine ⟨m, data, ?_, hlen, ?_, fun a hlt hle => hkept a hlt (.inr hle), fun j hj => ?_, hzeros⟩
  · rw [slotEnd_last last, hwrite, Micro.andThen_done, hfin, hcap]
    rfl
  · exact (hpre preamble).trans (congrArg (preambleBytes _ _) (by simp [multBytes]; omega))
  · rw [hmarker j hj, imageByte_verbatim s.cfgOutBe (by rw [length]) (by omega)]

/-- The end marker without room for it (R194). -/
theorem slotEnd_faults {s : State} (last : s.trueHdIdx = 23) (hcap : s.cap = 61440)
    (full : 61440 < s.offset.toNat + 16) : slotEnd s = .raise .writerFault s := by
  have size : imageSize s.params.matEnd.toList.length = 16 := by rw [Vector.length_toList]; rfl
  have cap : s.cap.toNat = 61440 := by rw [hcap]; rfl
  rw [slotEnd_last last, writeBytes_violation (.inr (by omega)), Micro.andThen_raise]

/-- Settles O36: the payload and padding of `last_slot_stores`, then the end marker and FINALIZE. -/
theorem trueHdLastFrameCompletesTheBurst : Obligations.TrueHdLastFrameCompletesTheBurst := by
  unfold Obligations.TrueHdLastFrameCompletesTheBurst
  intro s f last i hr hl hf hc h23 hlen hlast room
  obtain ⟨active, m, off, stores, hoff, hmw, hm⟩ := last_slot_stores hl hf hc (congrArg Fin.val h23) hlen
  obtain ⟨h8, written, -, hcap, -⟩ := trueHd_opened_facts (f := f) hl hf hc
  rw [opened_active active] at h8 written hcap
  rw [← hlast] at hoff hm
  have filled : ∀ a < off.toNat, 8 ≤ a → (m.read a).isSome = true := fun a hlt hle => by
    rw [hm]
    split_ifs with payload padding
    · rfl
    · rfl
    · exact written a (by omega) hle
  obtain ⟨m', data, ends, length, preamble, kept, marker, zeros⟩ :=
    slotEnd_completes (s := { s with buf := m, offset := off }) hmw active h23 hcap (show 8 ≤ off.toNat by omega)
      (show off.toNat + 16 ≤ 61440 by omega) filled
  simp only [hoff] at preamble kept marker zeros
  rw [runs_processTrueHd hr, stores, ends]
  refine ⟨m', ⟨61440, data, s.burstNSamples, s.burstPts, s.burstDts⟩, rfl, rfl, length, rfl, rfl, rfl, preamble,
    fun a hlt hle => ?_, fun j hj => ?_, fun j hj => ?_, marker, zeros⟩
  · rw [kept a (by omega) hle, hm, if_neg (by omega), if_neg (by omega)]
  · rw [kept _ (by omega) (by omega), hm, if_pos (by omega), Nat.add_sub_cancel_left]
  · rw [kept _ (by omega) (by omega), hm, if_neg (by omega), if_pos (by omega)]

/-- Settles O37: the WRITE of the end marker raises in the state in which `last_slot_stores` leaves the burst. -/
theorem trueHdEndMarkerWithoutRoomFaults : Obligations.TrueHdEndMarkerWithoutRoomFaults := by
  unfold Obligations.TrueHdEndMarkerWithoutRoomFaults
  intro s f last i hr hl hf hc h23 hlen hlast full
  obtain ⟨active, m, off, stores, hoff, -, hm⟩ := last_slot_stores hl hf hc (congrArg Fin.val h23) hlen
  obtain ⟨-, -, -, hcap, -⟩ := trueHd_opened_facts (f := f) hl hf hc
  rw [opened_active active] at hcap
  rw [← hlast] at hoff hm
  have raises := slotEnd_faults (s := { s with buf := m, offset := off }) h23 hcap
    (show 61440 < off.toNat + 16 by omega)
  rw [runs_processTrueHd hr, stores, raises, ← offset_eq_ofNat hoff]
  exact ⟨m, rfl, hm⟩

/-! ### The cadence of even frames -/

theorem runs_process_trueHd {s : State} (hf : s.fault = false) (hconf : s.configured = true)
    (hc : s.cfgCodec = .mlp ∨ s.cfgCodec = .truehd) (f : Frame) : Runs (.process f) (.processTrueHd f) s := by
  refine .inr ⟨rfl, hf, hconf, ?_⟩
  rcases hc with hc | hc
  · exact congrArg (selectProcess · (.process f)) hc
  · exact congrArg (selectProcess · (.process f)) hc

/-- Below index 23 the index does not wrap (R34, R196). -/
theorem trueHdIdx_succ {i : Fin 24} (h : i.val < 23) : (i + 1).val = i.val + 1 := by
  rw [Fin.val_add]
  exact Nat.mod_eq_of_lt (Nat.add_lt_add_right h 1)

section
variable {s : State} {f : Frame} (hl : Legal s) (hf : s.fault = false) (hc : s.cfgCodec = .mlp ∨ s.cfgCodec = .truehd)
include hl hf hc

/-- Only a frame that passes R190's tests is answered PENDING. -/
theorem trueHd_accepted_of_pending {i : Instr} {t : State} (hr : Runs i (.processTrueHd f) s)
    (hn : exec i s = .next t) (pending : t.rsp = some .pending) :
    (s.burstActive = true ∨ s.bufAvail = true) ∧ f.len + matReserve s.trueHdIdx.val ≤ 2560 := by
  obtain ⟨noBuffer, tooLong⟩ := trueHdRejectsFrames s f i hr hl hf hc
  have noError (k : ErrorKind) (u : State) : exec i s ≠ .next { u with rsp := some (.error k) } := fun raised => by
    obtain rfl := Host.Outcome.next.inj (hn.symm.trans raised)
    cases pending
  have opens : s.burstActive = true ∨ s.bufAvail = true := by
    by_contra closed
    rw [not_or, Bool.not_eq_true, Bool.not_eq_true] at closed
    obtain ⟨u, -, raised⟩ := noBuffer closed.1 closed.2
    exact noError _ u raised
  refine ⟨opens, Nat.le_of_not_lt fun long => ?_⟩
  obtain ⟨u, -, raised⟩ := tooLong opens long
  exact noError _ u raised

/-- The burst of a session on the cadence is on it, also when the frame opens it (R193). -/
theorem trueHd_opened_cadence (cadence : s.burstActive = true → s.offset.toNat = slotStart s.trueHdIdx.val) :
    (opened 61440 3840 f s).offset.toNat = slotStart s.trueHdIdx.val := by
  by_cases active : s.burstActive = true
  · rw [opened_active active, cadence active]
  · obtain ⟨-, -, -, -, -, -, -, -, idle⟩ := trueHd_opened_facts (f := f) hl hf hc
    rw [opened, if_neg active, idle (by simpa using active)]
    rfl

variable (start : (opened 61440 3840 f s).offset.toNat = slotStart s.trueHdIdx.val) (even : f.len % 2 = 0)
include start even

/-- The slot of an even frame ends where the next one starts (R193). -/
theorem trueHd_even_slot_end (h23 : s.trueHdIdx.val < 23) (fits : f.len + matReserve s.trueHdIdx.val ≤ 2560) :
    (BitVec.ofNat 16 ((opened 61440 3840 f s).offset.toNat + (matMarker s.params s.trueHdIdx.val).length +
      imageSize f.len + (2560 - f.len - matReserve s.trueHdIdx.val))).toNat = slotStart (s.trueHdIdx.val + 1) := by
  have room := trueHd_opened_room (f := f) hl hf hc
  have size := imageSize_of_even even
  rw [offset_toNat (s := opened 61440 3840 f s) (by omega), ← slotStart_succ s.params h23]
  omega

/-- The last slot of a super-frame on the cadence: the end marker comes to 61416 (R193). -/
theorem trueHd_even_last (last : s.trueHdIdx = 23) (hlen : f.len ≤ 2536) :
    s.burstActive = true ∧ s.offset.toNat = 58880 ∧ 61416 = s.offset.toNat + imageSize f.len + (2536 - f.len) := by
  obtain ⟨active, -⟩ := last_slot_stores hl hf hc (congrArg Fin.val last) hlen
  have offset : s.offset.toNat = 58880 := by rw [← opened_active active 61440 3840 f, start, last]; rfl
  have size := imageSize_of_even even
  exact ⟨active, offset, by omega⟩

end

/-- Settles O39: O36 for the frame of index 23; a frame answered PENDING was accepted, and O35 says where it lies. -/
theorem trueHdEvenFramesKeepTheCadence : Obligations.TrueHdEvenFramesKeepTheCadence := by
  unfold Obligations.TrueHdEvenFramesKeepTheCadence
  intro s t f hl hf hconf hc cadence even hn
  have hr := runs_process_trueHd hf hconf hc f
  have start := trueHd_opened_cadence (f := f) hl hf hc cadence
  have completes : s.trueHdIdx.val = 23 → f.len ≤ 2536 → t.rsp = some .complete ∧
      ∃ b, t.out = some b ∧ b.data.take 8 = preambleBytes s.cfgOutBe 0x16 61424 ∧
        (∀ j < 16, b.data[61416 + j]? = s.params.matEnd.toList[j]?) ∧
        (∀ j < 8, b.data[61432 + j]? = some 0) := fun last hlen => by
    obtain ⟨-, -, hlast⟩ := trueHd_even_last hl hf hc start even (Fin.ext last) hlen
    obtain ⟨m, b, hexec, -, -, -, -, -, preamble, -, -, -, marker, zeros⟩ :=
      trueHdLastFrameCompletesTheBurst s f 61416 (.process f) hr hl hf hc (Fin.ext last) hlen hlast (by decide)
    obtain rfl := Host.Outcome.next.inj (hn.symm.trans hexec)
    exact ⟨rfl, b, rfl, preamble, marker, fun j hj => zeros _ (by omega) (by omega)⟩
  refine ⟨fun pending => ?_, completes⟩
  obtain ⟨opens, fits⟩ := trueHd_accepted_of_pending hl hf hc hr hn pending
  have h23 : s.trueHdIdx.val ≠ 23 := fun last => by
    have reserve : matReserve s.trueHdIdx.val = 24 := by rw [last]; rfl
    obtain ⟨complete, -⟩ := completes last (by omega)
    cases pending.symm.trans complete
  have below : s.trueHdIdx.val < 23 := by omega
  obtain ⟨m, hexec, marker, -⟩ :=
    trueHdFrameFillsItsSlot s _ f _ _ (.process f) hr hl hf hc opens rfl rfl h23 rfl fits
  obtain rfl := Host.Outcome.next.inj (hn.symm.trans hexec)
  have succ := trueHdIdx_succ below
  rw [start] at marker
  refine ⟨?_, succ, fun first j hj => ?_, fun middle j hj => ?_⟩
  · exact (trueHd_even_slot_end hl hf hc start even below fits).trans (congrArg slotStart succ.symm)
  · rw [first] at marker
    exact marker j (by simpa [matMarker] using hj)
  · rw [middle] at marker
    exact marker j (by simpa [matMarker] using hj)

/-! ### The frames of one super-frame -/

/-- The payload of an even slot follows its marker (R193). -/
theorem payloadStart_eq (p : Params) (i : Nat) : payloadStart i = slotStart i + (matMarker p i).length := by
  unfold payloadStart slotStart matMarker
  split_ifs <;> simp

theorem slotStart_mono {i k : Nat} (h : i ≤ k) : slotStart i ≤ slotStart k := by
  unfold slotStart
  split_ifs <;> omega

/-- The marker and the payload of an even frame end before the next slot (R191, R193). -/
theorem slot_payload_end (p : Params) {i k len : Nat} (hik : i < k) (hk : k < 24) (hlen : len ≤ 2532) :
    slotStart i + (matMarker p i).length + len ≤ slotStart k := by
  have next := slotStart_succ p (i := i) (by omega)
  have mono := slotStart_mono (show i + 1 ≤ k from hik)
  have reserve := matReserve_le i
  omega

/-- The premises of R197 on the frames of one super-frame. -/
structure MakesSuperFrame (frames : List Frame) (size : Nat) : Prop where
  count : frames.length = 24
  sizes : ∀ f ∈ frames, f.len = size
  even : size % 2 = 0
  bound : size ≤ 2532

/-- The markers and payloads of the first `k` frames are read in their slots (R193). -/
def HoldsSlots (p : Params) (be : Bool) (frames : List Frame) (k : Nat) (read : Nat → Option Byte) : Prop :=
  ∀ i < k, ∀ f, frames[i]? = some f →
    (∀ j < (matMarker p i).length, read (slotStart i + j) = (matMarker p i)[j]?) ∧
    ∀ j < f.len, read (payloadStart i + j) = some (imageByte true be f.data j)

section
variable {p : Params} {be : Bool} {frames : List Frame} {size k : Nat} {rest : List Input} {t : State}

theorem MakesSuperFrame.frameAt (c : MakesSuperFrame frames size) (hk : k < 24) :
    ∃ f, frames[k]? = some f ∧ f.len = size :=
  have hk : k < frames.length := c.count ▸ hk
  ⟨_, List.getElem?_eq_getElem hk, c.sizes _ (List.getElem_mem hk)⟩

/-- What stands below the slot of index `k` is all that the first `k` slots hold. -/
theorem HoldsSlots.kept {old new : Nat → Option Byte} (held : HoldsSlots p be frames k old)
    (c : MakesSuperFrame frames size) (hk : k < 24)
    (kept : ∀ a < slotStart k, 8 ≤ a → new a = old a) : HoldsSlots p be frames k new := by
  intro i hi f hfr
  obtain ⟨marker, payload⟩ := held i hi f hfr
  have hlen : f.len ≤ 2532 := (c.sizes f (List.mem_of_getElem? hfr)).trans_le c.bound
  have ends := slot_payload_end p hi hk hlen
  have low : 8 ≤ slotStart i := slotStart_mono (Nat.zero_le i)
  have start := payloadStart_eq p i
  refine ⟨fun j hj => ?_, fun j hj => ?_⟩
  · rw [kept _ (by omega) (by omega), marker j hj]
  · rw [kept _ (by omega) (by omega), payload j hj]

/-- One more slot after the first `k`. -/
theorem HoldsSlots.succ {read : Nat → Option Byte} {f : Frame} (held : HoldsSlots p be frames k read)
    (hfr : frames[k]? = some f)
    (marker : ∀ j < (matMarker p k).length, read (slotStart k + j) = (matMarker p k)[j]?)
    (payload : ∀ j < f.len, read (payloadStart k + j) = some (imageByte true be f.data j)) :
    HoldsSlots p be frames (k + 1) read := by
  intro i hi g hg
  rcases Nat.lt_succ_iff_lt_or_eq.1 hi with hlt | rfl
  · exact held i hlt g hg
  · obtain rfl := Option.some.inj (hfr.symm.trans hg)
    exact ⟨marker, payload⟩

/-- The burst `o` holds the slots of the first `k` frames, under the first frame's timestamps (R193, R197). -/
structure GathersSlots (p : Params) (be : Bool) (frames : List Frame) (k : Nat) (o : State) : Prop where
  offset : o.offset.toNat = slotStart k
  nsamples : o.burstNSamples = 3840
  stamps : ∀ f, frames.head? = some f → o.burstPts = tsBits p f.pts ∧ o.burstDts = tsBits p f.dts
  slots : HoldsSlots p be frames k o.buf.read

/-- The session `t` has taken the first `k` frames of a super-frame and the others are placed: the burst in progress,
or for `k = 0` the one that frame `k` opens, holds their slots. -/
structure AwaitsSlot (p : Params) (be : Bool) (frames : List Frame) (rest : List Input) (k : Nat) (t : State) :
    Prop where
  legal : Legal t
  fault : t.fault = false
  configured : t.configured = true
  codec : t.cfgCodec = .mlp ∨ t.cfgCodec = .truehd
  params : t.params = p
  outBe : t.cfgOutBe = be
  index : t.trueHdIdx.val = k
  input : t.input = (frames.drop k).map processInput ++ rest
  burst : ∀ f, frames[k]? = some f → GathersSlots p be frames k (opened 61440 3840 f t)

/-- With no burst in progress the first frame opens one (R131, R190). -/
theorem awaitsSlot_zero {s : State} (hl : Legal s) (hf : s.fault = false) (hconf : s.configured = true)
    (hc : s.cfgCodec = .mlp ∨ s.cfgCodec = .truehd) (ha : s.burstActive = false)
    (hin : s.input = frames.map processInput ++ rest) : AwaitsSlot s.params s.cfgOutBe frames rest 0 s := by
  obtain ⟨-, counters, -⟩ := hl.2 hf
  obtain ⟨-, idx⟩ := counters ha
  refine ⟨hl, hf, hconf, hc, rfl, rfl, congrArg Fin.val idx, hin, fun f hfr => ?_⟩
  rw [opened, if_neg (by simp [ha])]
  refine ⟨rfl, rfl, fun g hg => ?_, fun i hi => absurd hi (Nat.not_lt_zero i)⟩
  rw [List.head?_eq_getElem?, hfr] at hg
  obtain rfl := Option.some.inj hg
  exact ⟨rfl, rfl⟩

variable {f : Frame}

theorem AwaitsSlot.input_eq (w : AwaitsSlot p be frames rest k t) (hfr : frames[k]? = some f) :
    t.input = processInput f :: ((frames.drop (k + 1)).map processInput ++ rest) := by
  obtain ⟨hk, rfl⟩ := List.getElem?_eq_some_iff.1 hfr
  rw [w.input, List.drop_eq_getElem_cons hk]
  rfl

theorem AwaitsSlot.step_eq (w : AwaitsSlot p be frames rest k t) (c : MakesSuperFrame frames size)
    (hfr : frames[k]? = some f) (hlen : f.len = size) :
    step t = exec (.process f) (afterTaking frames rest k t) := by
  refine step_processInput (w.input_eq hfr) ?_
  have bound := c.bound
  show f.len < 2 ^ 32
  omega

theorem AwaitsSlot.runs (w : AwaitsSlot p be frames rest k t) (f : Frame) :
    Runs (.process f) (.processTrueHd f) (afterTaking frames rest k t) :=
  runs_process_trueHd (s := afterTaking frames rest k t) w.fault w.configured w.codec f

theorem AwaitsSlot.gathers (w : AwaitsSlot p be frames rest k t) (hfr : frames[k]? = some f) :
    GathersSlots p be frames k (opened 61440 3840 f (afterTaking frames rest k t)) := by
  obtain ⟨offset, nsamples, stamps, slots⟩ := w.burst f hfr
  rw [opened_accept]
  exact ⟨offset, nsamples, stamps, slots⟩

/-- A frame before the last fills its slot on PENDING (R193, R197). -/
theorem AwaitsSlot.pending (w : AwaitsSlot p be frames rest k t) (c : MakesSuperFrame frames size) (hk : k < 23) :
    ∃ u, step t = .next u ∧ u.rsp = some .pending ∧ u.out = none ∧ AwaitsSlot p be frames rest (k + 1) u := by
  obtain ⟨f, hfr, hlen⟩ := c.frameAt (k := k) (by omega)
  obtain ⟨offset, nsamples, stamps, slots⟩ := w.gathers hfr
  have index : (afterTaking frames rest k t).trueHdIdx.val = k := w.index
  have below : (afterTaking frames rest k t).trueHdIdx.val < 23 := index.trans_lt hk
  have even : f.len % 2 = 0 := hlen ▸ c.even
  have fits : f.len + matReserve (afterTaking frames rest k t).trueHdIdx.val ≤ 2560 := by
    have bound := c.bound
    have reserve := matReserve_le (afterTaking frames rest k t).trueHdIdx.val
    omega
  obtain ⟨m, hexec, hmarker, hpayload, -, hkept⟩ :=
    trueHdFrameFillsItsSlot (afterTaking frames rest k t) _ f _ _ (.process f) (w.runs f) w.legal w.fault w.codec
      (.inr rfl) rfl rfl below.ne rfl fits
  have slotEnds := trueHd_even_slot_end (s := afterTaking frames rest k t) w.legal w.fault w.codec
    (offset.trans (congrArg slotStart index.symm)) even below fits
  obtain ⟨oparams, obe, ocodec, oconf, ofault, -, -, oout, oinput, -⟩ :=
    opened_keeps 61440 3840 f (afterTaking frames rest k t)
  have hstep := (w.step_eq c hfr hlen).trans hexec
  rw [index, accept_params, w.params, offset] at hmarker hpayload
  rw [offset] at hkept
  rw [accept_cfgOutBe, w.outBe, imageSize_of_even even, ← payloadStart_eq] at hpayload
  refine ⟨_, hstep, rfl, oout, ?_, ofault.trans w.fault, oconf.trans w.configured, ocodec ▸ w.codec,
    oparams.trans w.params, obe.trans w.outBe, (trueHdIdx_succ below).trans (congrArg (· + 1) index), oinput,
    fun g _ => ?_⟩
  · exact hostStepKeepsTheSessionLegal t _ w.legal (by rw [hostNext, w.input_eq hfr]; rfl) hstep
  · rw [opened_active (by exact opened_burstActive _ _ _ _)]
    refine ⟨slotEnds.trans (congrArg (slotStart <| · + 1) index), nsamples, stamps, ?_⟩
    exact (slots.kept c (by omega) fun a hlt _ => hkept a (.inl hlt)).succ hfr hmarker hpayload

/-- The burst record of a whole super-frame (R193, R197). -/
structure SuperFrameRecord (p : Params) (be : Bool) (frames : List Frame) (b : BurstRecord) : Prop where
  len : b.len = 61440
  data : b.data.length = 61440
  nsamples : b.nsamples = 3840
  stamps : ∀ f, frames.head? = some f → b.pts = tsBits p f.pts ∧ b.dts = tsBits p f.dts
  preamble : b.data.take 8 = preambleBytes be 0x16 61424
  endMarker : ∀ j < 16, b.data[61416 + j]? = p.matEnd.toList[j]?
  slots : HoldsSlots p be frames 24 (b.data[·]?)

/-- The last frame closes the burst, and its record holds every slot and the end marker (R193, R197). -/
theorem AwaitsSlot.complete (w : AwaitsSlot p be frames rest 23 t) (c : MakesSuperFrame frames size) :
    ∃ u b, step t = .next u ∧ u.rsp = some .complete ∧ u.out = some b ∧ u.input = rest ∧ u.burstActive = false ∧
      u.trueHdIdx = 0 ∧ SuperFrameRecord p be frames b := by
  obtain ⟨f, hfr, hlen⟩ := c.frameAt (k := 23) (by decide)
  have gathers := w.gathers hfr
  have last : (afterTaking frames rest 23 t).trueHdIdx = 23 := Fin.ext w.index
  have even : f.len % 2 = 0 := hlen ▸ c.even
  have fits : f.len ≤ 2536 := by
    have bound := c.bound
    omega
  obtain ⟨active, start, hlast⟩ := trueHd_even_last (s := afterTaking frames rest 23 t) w.legal w.fault w.codec
    (gathers.offset.trans (by rw [last]; rfl)) even last fits
  obtain ⟨m, b, hexec, blen, hdata, hns, hpts, hdts, hpre, hkept, himage, -, hmarker, -⟩ :=
    trueHdLastFrameCompletesTheBurst (afterTaking frames rest 23 t) f 61416 (.process f) (w.runs f) w.legal w.fault
      w.codec last fits hlast (by decide)
  rw [opened_active active] at gathers
  obtain ⟨-, nsamples, stamps, slots⟩ := gathers
  rw [accept_params, w.params] at hmarker
  rw [accept_cfgOutBe, w.outBe] at hpre himage
  rw [start] at hkept himage
  rw [imageSize_of_even even] at himage
  refine ⟨_, b, (w.step_eq c hfr hlen).trans hexec, rfl, rfl, ?_, rfl, rfl, blen, hdata, hns.trans nsamples,
    fun g hg => ?_, hpre, hmarker, ?_⟩
  · show (frames.drop 24).map processInput ++ rest = rest
    rw [← c.count, List.drop_length]
    rfl
  · obtain ⟨pts, dts⟩ := stamps g hg
    exact ⟨hpts.trans pts, hdts.trans dts⟩
  · exact (slots.kept c (by decide) hkept).succ hfr
      (fun j hj => absurd hj (Nat.not_lt_zero j)) himage

/-- After any number of frames but all, the session awaits the next one (R197). -/
theorem MakesSuperFrame.awaitsSlot (c : MakesSuperFrame frames size) {s : State}
    (w : AwaitsSlot p be frames rest 0 s) (hk : k < 24) :
    ∃ t, stepN k s = some t ∧ AwaitsSlot p be frames rest k t := by
  induction k with
  | zero => exact ⟨s, rfl, w⟩
  | succ k ih =>
    obtain ⟨t, runs, awaits⟩ := ih (Nat.lt_of_succ_lt hk)
    obtain ⟨u, hstep, -, -, next⟩ := awaits.pending c (Nat.lt_of_succ_lt_succ hk)
    exact ⟨u, stepN_succ runs hstep, next⟩

end

/-- Settles O40: `AwaitsSlot` holds before each frame; each but the last fills its slot, and the last closes the
burst. -/
theorem trueHdSuperFrameHasItsMarkersAndPayloads : Obligations.TrueHdSuperFrameHasItsMarkersAndPayloads := by
  unfold Obligations.TrueHdSuperFrameHasItsMarkersAndPayloads
  intro s frames size rest hl hf hconf hc ha count sizes even bound hin
  have c : MakesSuperFrame frames size := ⟨count, sizes, even, bound⟩
  have start := awaitsSlot_zero hl hf hconf hc ha hin
  refine ⟨fun k hk => ?_, ?_⟩
  · obtain ⟨t, runs, awaits⟩ := c.awaitsSlot start (k := k) (by omega)
    obtain ⟨u, hstep, hrsp, hout, -⟩ := awaits.pending c hk
    exact ⟨u, stepN_succ runs hstep, hrsp, hout⟩
  · obtain ⟨t, runs, awaits⟩ := c.awaitsSlot start (k := 23) (by decide)
    obtain ⟨u, b, hstep, hrsp, hout, hrest, hactive, hidx, record⟩ := awaits.complete c
    obtain ⟨len, data, nsamples, stamps, preamble, endMarker, slots⟩ := record
    have marker : ∀ i < 24, ∀ j < (matMarker s.params i).length,
        b.data[slotStart i + j]? = (matMarker s.params i)[j]? := fun i hi => by
      obtain ⟨f, hfr, -⟩ := c.frameAt hi
      exact (slots i hi f hfr).1
    refine ⟨u, b, stepN_succ runs hstep, hrsp, hout, hrest, hactive, hidx, len, data, nsamples, stamps, preamble,
      fun j hj => marker 0 (by decide) j (by simpa [matMarker] using hj),
      fun j hj => marker 12 (by decide) j (by simpa [matMarker] using hj), endMarker, fun i f hfr j hj => ?_⟩
    have hi := (List.getElem?_eq_some_iff.1 hfr).1
    exact (slots i (count ▸ hi) f hfr).2 j (by rwa [sizes f (List.mem_of_getElem? hfr)])

end Sys2Proof.Machine
end

section
/-! PROOFS. The family of spec/45_session.md: SETUP (R210), the dispatch of PROCESS (R211), FLUSH (R212), PROCESS before
a successful SETUP (R214) and the three commands under FAULT (R215). -/

namespace Sys2Proof.Machine

/-! ### SETUP -/

theorem exec_setup_fault {s : State} (hf : s.fault = true) (codec fmt : Byte) :
    exec (.setup codec fmt) s = .next (respond (.error .writerFault) s) := if_pos hf

theorem exec_setup_accepted {s : State} (hf : s.fault = false) (codec fmt : Byte) :
    exec (.setup codec fmt) s = .next (setupSession codec fmt s) := if_neg (by simp [hf])

theorem setupSession_supported {codec fmt : Byte} {c : Codec} {be : Bool} (hcodec : codecOfId codec = some c)
    (hfmt : outBeOfId fmt = some be) (s : State) :
    setupSession codec fmt s =
      respond .done { flushState s with cfgCodec := c, cfgOutBe := be, configured := true } := by
  simp only [setupSession, hcodec, hfmt]

theorem setupSession_unsupported {codec fmt : Byte} (h : codecOfId codec = none ∨ outBeOfId fmt = none) (s : State) :
    setupSession codec fmt s =
      respond (.error .unsupportedConfiguration) { flushState s with configured := false } := by
  rw [setupSession]
  split
  next hcodec hfmt => simp [hcodec, hfmt] at h
  next => rfl

/-- Settles O19: a pair of supported ids names a codec and a format; any other pair has an id that names none. -/
theorem setupConfiguresOrRejects : Obligations.SetupConfiguresOrRejects := by
  unfold Obligations.SetupConfiguresOrRejects
  intro s codec fmt hf
  rw [exec_setup_accepted hf]
  refine ⟨flushState s, flushState_flushed s, fun ⟨hcodec, hfmt⟩ => ?_, fun hpair => ?_⟩
  · obtain ⟨c, named, bits⟩ := codecOfId_supported hcodec
    exact ⟨c, bits, congrArg _ (setupSession_supported named (outBeOfId_supported hfmt) s)⟩
  · have unnamed : codecOfId codec = none ∨ outBeOfId fmt = none := by
      rcases not_and_or.1 hpair with h | h
      · exact .inl (codecOfId_unsupported (not_le.1 h))
      · exact .inr (outBeOfId_unsupported (not_le.1 h))
    exact congrArg _ (setupSession_unsupported unnamed s)

/-! ### FLUSH -/

theorem exec_flush (s : State) : exec .flush s = .next (respond .done (flushState s)) := rfl

/-- With no burst in progress and both counters 0 a flush changes nothing meaningful (R20, R212). -/
theorem sameMeaning_flushState {s : State} (ha : s.burstActive = false) (hblocks : s.eac3Blocks = 0)
    (hidx : s.trueHdIdx = 0) : SameMeaning s (flushState s) :=
  ⟨rfl, rfl, rfl, rfl, rfl, rfl, rfl, ha, hblocks, hidx, fun _ => ⟨rfl, rfl⟩, fun h => by simp [ha] at h⟩

/-- Settles O20: the flushed state has no burst and zero counters, so a second FLUSH keeps its meaning. -/
theorem flushDropsBurstAndCounters : Obligations.FlushDropsBurstAndCounters := by
  unfold Obligations.FlushDropsBurstAndCounters
  intro s
  have again : SameMeaning (respond .done (flushState s)) (flushState (respond .done (flushState s))) :=
    sameMeaning_flushState rfl rfl rfl
  exact ⟨flushState s, _, flushState_flushed s, exec_flush s, exec_flush _, again.respond .done⟩

/-! ### The three commands under FAULT -/

/-- Settles O21: SETUP and PROCESS test FAULT before anything else, and FLUSH does not test it (R216). -/
theorem faultRefusesProcessAndSetup : Obligations.FaultRefusesProcessAndSetup := by
  unfold Obligations.FaultRefusesProcessAndSetup
  intro s codec fmt f hf
  exact ⟨exec_setup_fault hf codec fmt, exec_process_fault hf f, flushState s, flushState_flushed s, hf,
    exec_flush s⟩

/-! ### PROCESS -/

/-- Settles O22: with FAULT 0 the next test of R216 is CONFIGURED. -/
theorem unconfiguredProcessIsRefused : Obligations.UnconfiguredProcessIsRefused := by
  unfold Obligations.UnconfiguredProcessIsRefused
  intro s f hf hconf
  exact exec_process_unconfigured hf hconf f

/-- An accepted PROCESS is the operation that CFG_CODEC selects (R99, R211). -/
theorem exec_process_selected {s : State} {c : Codec} (hf : s.fault = false) (hconf : s.configured = true)
    (hc : s.cfgCodec = c) (f : Frame) : exec (.process f) s = exec (selectProcess c (.process f)) s := by
  rw [exec_process_accepted hf hconf, hc]
  cases c <;> rfl

/-- Settles O23: `exec_process_selected` at each codec; MLP and TRUEHD select the same operation (R195). -/
theorem processRunsTheOperationOfTheCodec : Obligations.ProcessRunsTheOperationOfTheCodec := by
  unfold Obligations.ProcessRunsTheOperationOfTheCodec
  intro s f hf hconf
  have selected : ∀ {c}, s.cfgCodec = c → exec (.process f) s = exec (selectProcess c (.process f)) s :=
    fun hc => exec_process_selected hf hconf hc f
  exact ⟨selected, selected, selected, fun hc => hc.elim selected selected⟩

end Sys2Proof.Machine
end

section
/-! PROOFS. The family of spec/60_exceptions.md: the session states (R241), the errors that flush (R231, R233) and the
idle block (R245). -/

namespace Sys2Proof.Machine

/-! ### The idle block -/

/-- Settles O6: with an empty input list a step takes no transaction. -/
theorem idleStepKeepsTheState : Obligations.IdleStepKeepsTheState := fun _ => step_idle

/-! ### The errors of the four operations -/

/-- Settles O24: of the ways an operation can end (`runs_cases`) two answer an error, and the one that keeps the state
answers WriterFault. -/
theorem errorFlushesTheSession : Obligations.ErrorFlushesTheSession := by
  unfold Obligations.ErrorFlushesTheSession
  intro s t f op i k ho hr hn hrsp hk
  rcases runs_cases ho hr hn with pending | complete | ⟨l, hl, rfl⟩ | ⟨u, -, rfl⟩
  · exact absurd hrsp (AnsweredIn.rsp_ne_error (.inl pending) k)
  · exact absurd hrsp (AnsweredIn.rsp_ne_error (.inr complete) k)
  · obtain rfl : l = k := by simpa using hrsp
    exact ⟨hl, flushState s, flushState_flushed s, rfl⟩
  · exact absurd (by simpa using hrsp.symm) hk

/-! ### The session states -/

theorem sessionState_eq_faulted_iff (s : State) : sessionState s = .faulted ↔ s.fault = true := by
  unfold sessionState
  split_ifs with hf
  · simp [hf]
  · simp [hf]
  · simp [hf]

theorem sessionState_eq_ready_iff (s : State) :
    sessionState s = .ready ↔ s.fault = false ∧ s.configured = true := by
  unfold sessionState
  split_ifs with hf hc
  · simp [hf]
  · simp [hf, hc]
  · simp [hc]

theorem sessionState_eq_unconfigured_iff (s : State) :
    sessionState s = .unconfigured ↔ s.fault = false ∧ s.configured = false := by
  unfold sessionState
  split_ifs with hf hc
  · simp [hf]
  · simp [hc]
  · simp [hf, hc]

/-- The burst and the counters are no part of the session state. -/
theorem SameSession.sessionState_eq {s t : State} (h : SameSession s t) : sessionState t = sessionState s := by
  have flushed : sessionState (flushState t) = sessionState (flushState s) := congrArg sessionState h
  exact flushed

/-- SETUP writes CONFIGURED unless FAULT refuses it (R210, R215). -/
theorem exec_setup_sessionState {s t : State} {codec fmt : Byte} (hn : exec (.setup codec fmt) s = .next t) :
    sessionState t =
      if sessionState s = .faulted then .faulted
      else if codec.toNat ≤ 4 ∧ fmt.toNat ≤ 1 then .ready else .unconfigured := by
  by_cases hf : s.fault = true
  · have faulted := (sessionState_eq_faulted_iff s).2 hf
    obtain rfl := Host.Outcome.next.inj (exec_setup_fault hf codec fmt ▸ hn)
    rw [if_pos faulted]
    exact faulted
  · rw [if_neg (mt (sessionState_eq_faulted_iff s).1 hf)]
    rw [Bool.not_eq_true] at hf
    obtain ⟨u, flushed, accepts, rejects⟩ := setupConfiguresOrRejects s codec fmt hf
    have unfaulted : u.fault = false := by
      obtain ⟨_, _, _, _, _, rfl⟩ := flushed
      exact hf
    by_cases supported : codec.toNat ≤ 4 ∧ fmt.toNat ≤ 1
    · obtain ⟨c, -, hc⟩ := accepts supported
      obtain rfl := Host.Outcome.next.inj (hc ▸ hn)
      rw [if_pos supported]
      exact (sessionState_eq_ready_iff _).2 ⟨unfaulted, rfl⟩
    · obtain rfl := Host.Outcome.next.inj (rejects supported ▸ hn)
      rw [if_neg supported]
      exact (sessionState_eq_unconfigured_iff _).2 ⟨unfaulted, rfl⟩

/-- In a session that is not READY, PROCESS is refused with no state change (R214, R215). -/
theorem exec_process_not_ready {s : State} (h : sessionState s ≠ .ready) (f : Frame) :
    ∃ k, exec (.process f) s = .next (respond (.error k) s) :=
  (exec_process_cases f s).resolve_right (mt (sessionState_eq_ready_iff s).2 h)

/-- A READY session is left by the entry of a writer fault alone (R235). -/
theorem exec_process_ready_sessionState {s t : State} {f : Frame} (h : sessionState s = .ready)
    (hn : exec (.process f) s = .next t) :
    sessionState t = if t.rsp = some (.error .writerFault) then .faulted else sessionState s := by
  obtain ⟨hf, hc⟩ := (sessionState_eq_ready_iff s).1 h
  obtain ⟨op, ho, hr⟩ := process_runs hf hc f
  rcases runs_cases ho hr hn with ⟨u, hu, rfl⟩ | ⟨u, b, hu, rfl⟩ | ⟨k, hk, rfl⟩ | ⟨u, -, rfl⟩
  · exact hu.sessionState_eq
  · exact hu.sessionState_eq
  · rw [if_neg (by rcases hk with rfl | rfl <;> simp)]
    rfl
  · rfl

theorem exec_process_sessionState {s t : State} {f : Frame} (hn : exec (.process f) s = .next t) :
    sessionState t =
      if sessionState s = .ready ∧ t.rsp = some (.error .writerFault) then .faulted else sessionState s := by
  by_cases ready : sessionState s = .ready
  · simpa only [ready, true_and] using exec_process_ready_sessionState ready hn
  · obtain ⟨k, hk⟩ := exec_process_not_ready ready f
    obtain rfl := Host.Outcome.next.inj (hk ▸ hn)
    exact (if_neg fun h => ready h.1).symm

/-- A flush keeps CONFIGURED and FAULT (R212, R215). -/
theorem exec_flush_sessionState {s t : State} (hn : exec .flush s = .next t) : sessionState t = sessionState s := by
  obtain rfl := Host.Outcome.next.inj (exec_flush s ▸ hn)
  rfl

/-- Settles O13: the three columns of the table, one lemma for each command. -/
theorem sessionStatesMoveByTheTable : Obligations.SessionStatesMoveByTheTable :=
  fun _ _ _ _ _ => ⟨exec_setup_sessionState, exec_process_sessionState, exec_flush_sessionState⟩

end Sys2Proof.Machine
end

section
/-! PROOFS. The family of spec/70_reset_and_hazards.md: the `rst` input (R260, R261, R262). -/

namespace Sys2Proof.Machine

/-- Settles O7: `step_rst` gives the state after the step. What R260's table fixes of it is as in `State.reset`
(`stateAtReset`), whatever `s` was; the parameters and the later transactions are the environment's and stay. -/
theorem resetPinEntersTheResetState : Obligations.ResetPinEntersTheResetState := by
  unfold Obligations.ResetPinEntersTheResetState
  intro s rest hin
  obtain ⟨configured, fault, burst, blocks, idx, unwritten, rsp, out, -⟩ := stateAtReset
  have unconfigured : sessionState (hardReset rest s) = .unconfigured :=
    (sessionState_eq_unconfigured_iff _).2 ⟨fault, configured⟩
  exact ⟨hardReset rest s, step_rst hin, configured, fault, burst, blocks, idx, unwritten, rsp, out, unconfigured,
    hardReset_input rest s, hardReset_params rest s⟩

end Sys2Proof.Machine
end
